-- ==== Sys2Proof/Word.lean ====
section
/-! DEFINITION. The word type of the I/O core: the byte (R8). -/

namespace Sys2Proof

/-- A byte: 8 bits, numbered 7 (most significant) down to 0 (R8). -/
abbrev Byte := BitVec 8

/-- A byte sequence; strings are held as their UTF-8 bytes (R203), so this is the string type too. -/
abbrev Bytes := List Byte

end Sys2Proof
end

