-- ==== Sys2Proof/Config.lean ====
section
/-! DEFINITION. The configuration record `CFG` of R7, its well-formedness (R44), the example record
`CFG_EX` of 93_implementation_defined.md section 3, and the model's one free value. -/

namespace Sys2Proof

/-- Which edge of the interrupt line raises an event (R7 `IRQ_EDGE`). No rule reads it (D16; DEDUCED,
log entry 21, safe). -/
inductive EdgePolarity where
  | rising
  | falling
deriving DecidableEq, Repr

/-- `CFG`, the implementation parameters of R7: every row of its table that is OPEN. -/
structure Cfg where
  /-- `DEVADDR_W`: device-address byte of a write transaction (R93). -/
  devaddrW : Byte
  /-- `DEVADDR_R`: device-address byte of a read transaction (R93). -/
  devaddrR : Byte
  /-- `REG_CFG`. -/
  regCfg : Byte
  /-- `REG_DIR_OUT`. -/
  regDirOut : Byte
  /-- `REG_DIR_IN`. -/
  regDirIn : Byte
  /-- `REG_PULLUP_IN`. -/
  regPullupIn : Byte
  /-- `REG_INTEN_IN`. -/
  regIntenIn : Byte
  /-- `REG_OUT_PORT`. -/
  regOutPort : Byte
  /-- `REG_OUT_LATCH`; may equal `REG_OUT_PORT`. -/
  regOutLatch : Byte
  /-- `REG_IN_PORT`. -/
  regInPort : Byte
  /-- `REG_INT_FLAG`. -/
  regIntFlag : Byte
  /-- `REG_INT_CAPTURE`. -/
  regIntCapture : Byte
  /-- `VAL_CFG_ADDRMODE`. -/
  valCfgAddrmode : Byte
  /-- `VAL_DIR_ALL_OUT`. -/
  valDirAllOut : Byte
  /-- `VAL_DIR_ALL_IN`. -/
  valDirAllIn : Byte
  /-- `VAL_PULLUP_ALL`. -/
  valPullupAll : Byte
  /-- `VAL_INTEN_NONE`. -/
  valIntenNone : Byte
  /-- `TRIG_BIT`: output bit that triggers the sonar burst. -/
  trigBit : Fin 8
  /-- `ECHO_BIT`: input bit that carries the echo. -/
  echoBit : Fin 8
  /-- `FWD_BIT[0]`. -/
  fwdBit0 : Fin 8
  /-- `BACK_BIT[0]`. -/
  backBit0 : Fin 8
  /-- `FWD_BIT[1]`. -/
  fwdBit1 : Fin 8
  /-- `BACK_BIT[1]`. -/
  backBit1 : Fin 8
  /-- `T_TRIG`, in milliseconds. -/
  tTrig : Rat
  /-- `IRQ_EDGE`. -/
  irqEdge : EdgePolarity
  /-- `LISTEN_PORT`. -/
  listenPort : Fin 65536
deriving DecidableEq, Repr

/-- `FWD_BIT[c]`. -/
def Cfg.fwdBit (g : Cfg) (c : Fin 2) : Fin 8 := if c = 0 then g.fwdBit0 else g.fwdBit1

/-- `BACK_BIT[c]`. -/
def Cfg.backBit (g : Cfg) (c : Fin 2) : Fin 8 := if c = 0 then g.backBit0 else g.backBit1

/-- The output bits the block gives a use of its own: the trigger and the four motor bits (R44). -/
def Cfg.ownedBits (g : Cfg) : List (Fin 8) :=
  [g.trigBit, g.fwdBit0, g.backBit0, g.fwdBit1, g.backBit1]

/-- The expander registers whose addresses must differ pairwise (R44): all ten of R33 and R34 but
`REG_OUT_LATCH`. -/
def Cfg.mainRegs (g : Cfg) : List Byte :=
  [g.regCfg, g.regDirOut, g.regDirIn, g.regPullupIn, g.regIntenIn, g.regOutPort, g.regInPort,
   g.regIntFlag, g.regIntCapture]

/-- The ten register addresses the block uses (R61). -/
def Cfg.regs (g : Cfg) : List Byte := g.regOutLatch :: g.mainRegs

/-- `CFG` is well-formed (R44): five pairwise different output bits, none of them 1 or 2; different
device-address bytes; ten pairwise different register addresses, but that `REG_OUT_LATCH` may
equal `REG_OUT_PORT`; `T_TRIG > 0`. -/
def Cfg.wf (g : Cfg) : Bool :=
  decide (g.ownedBits.Nodup ∧ (1 : Fin 8) ∉ g.ownedBits ∧ (2 : Fin 8) ∉ g.ownedBits ∧
    g.devaddrW ≠ g.devaddrR ∧ g.mainRegs.Nodup ∧
    (g.regOutLatch = g.regOutPort ∨ g.regOutLatch ∉ g.mainRegs) ∧ 0 < g.tTrig)

/-- `CFG_EX`, the example configuration of 93_implementation_defined.md section 3. PRESUMED there
(general knowledge) and not from the source; used here by the tests, by `decodeTableWord` and as
the parameters `State.reset` starts from (log entry 1, unsafe to rely on). Every statement
quantifies over the configuration. -/
def Config.cfgEx : Cfg where
  devaddrW := 0x40
  devaddrR := 0x41
  regCfg := 0x0A
  regDirOut := 0x00
  regDirIn := 0x01
  regPullupIn := 0x0D
  regIntenIn := 0x05
  regOutPort := 0x12
  regOutLatch := 0x14
  regInPort := 0x13
  regIntFlag := 0x0F
  regIntCapture := 0x11
  valCfgAddrmode := 0x08
  valDirAllOut := 0x00
  valDirAllIn := 0xFF
  valPullupAll := 0xFF
  valIntenNone := 0x00
  trigBit := 0
  echoBit := 7
  fwdBit0 := 4
  backBit0 := 5
  fwdBit1 := 6
  backBit1 := 7
  tTrig := 1 / 100
  irqEdge := .falling
  listenPort := 50210

/-- FREE VALUE. The byte a bus read returns when the environment script `State.busIn` supplies none:
"any value" (R64, R65, R66, U8, U9). No body: nothing can be proved of it. `step` applies it to
the draw counter `State.draws` (log entry 3, safe). -/
opaque Config.freeByte : Nat → Byte

/-- `T_ECHO_TIMEOUT` = 60 ms (R7, R165). -/
def Config.echoTimeout : Rat := 60

/-- `DIST_MAX` = 1000 mm (R7, R169). -/
def Config.distMax : Nat := 1000

/-- `FRAME_HEADER` = 0xAA (R7, R94, R96). -/
def Config.frameHeader : Byte := 0xAA

/-- The debounce spacing of accepted interrupt edges, 50 ms (R142, R313). -/
def Config.irqSpacing : Rat := 50

end Sys2Proof
end

