-- ==== Sys2Proof/Syntax.lean ====
section
/-! DEFINITION. The operations of the block: one constructor of `Instr` per row of
spec/opcode_table.json, in the table's order (R10), with the operand types they share. -/

namespace Sys2Proof

/-- The logical direction of a motor channel (R24). -/
inductive Direction where
  | stopped
  | forward
  | reverse
deriving DecidableEq, Repr

/-- A motor channel index (R24, `N_CHANNELS` = 2). -/
abbrev Channel := Fin 2

/-- The environment input `init_result` (R38): success, or failure after `k` in 0..5 completed writes
(an operand of `INIT`: DESIGN CHOICE, log entry 22, safe). -/
inductive InitResult where
  | ok
  | fail (k : Fin 6)
deriving DecidableEq, Repr

/-- A function from bytes to bytes, the operand of `RMW(f)` (R137), as plain data: the two named
forms, the constant function of `WRITE_OUTPUTS`, and any function at all by its table of 256
values (DESIGN CHOICE, log entry 18, safe). -/
inductive ByteFn where
  /-- `v ↦ v | m`, the form `SET_BITS(m)`. -/
  | orMask (m : Byte)
  /-- `v ↦ v & ~m`, the form `CLEAR_BITS(m)`. -/
  | andNotMask (m : Byte)
  /-- `v ↦ w`, the form `WRITE_OUTPUTS(w)`. -/
  | const (w : Byte)
  /-- `v ↦ t[v]`. -/
  | table (t : Vector Byte 256)
deriving DecidableEq, Repr

/-- The operations of R10, one constructor per row of spec/opcode_table.json. -/
inductive Instr where
  /-- `BUS_WRITE(reg, v)`, R121. -/
  | busWrite (reg v : Byte)
  /-- `BUS_READ(reg)`, R122. -/
  | busRead (reg : Byte)
  /-- `INIT`, R133, with the `init_result` the environment gives it. -/
  | init (r : InitResult)
  /-- `IS_READY`, R135. -/
  | isReady
  /-- `READ_INPUTS`, R136. -/
  | readInputs
  /-- `READ_OUTPUT_LATCH`, R140. -/
  | readOutputLatch
  /-- `RMW(f)`, R137 and R138. -/
  | rmw (f : ByteFn)
  /-- `SET_BITS(m)`, R137 and R138. -/
  | setBits (m : Byte)
  /-- `CLEAR_BITS(m)`, R137 and R138. -/
  | clearBits (m : Byte)
  /-- `WRITE_OUTPUTS(mask)`, R139. -/
  | writeOutputs (mask : Byte)
  /-- `IRQ_EDGE`, R141. -/
  | irqEdge
  /-- `MEASURE`, R160. -/
  | measure
  /-- `TICK`, R180. -/
  | tick
  /-- `DRIVE(c, target)`, R183. -/
  | drive (c : Channel) (target : Direction)
  /-- `SAFE_SET_CLEAR(set, clear)`, R184. -/
  | safeSetClear (set clear : Byte)
  /-- `SET_DIRECTION(c, s)`, R187. -/
  | setDirection (c : Channel) (d : Direction)
  /-- `SET_POWER(c, p)`, R188: `p` is any integer. -/
  | setPower (c : Channel) (p : Int)
  /-- `STOP_ALL`, R189. -/
  | stopAll
  /-- `DECODE_BYTE(b)`, R201. -/
  | decodeByte (b : Byte)
  /-- `ENCODE_RESPONSE(p)`, R204. -/
  | encodeResponse (p : Bytes)
  /-- `ENCODE_REQUEST(p)`, R205. -/
  | encodeRequest (p : Bytes)
  /-- `DECODE_RESPONSE` fed the byte `b`, R206. -/
  | decodeResponse (b : Byte)
  /-- `SERIAL_EXCHANGE(p)`, R207. -/
  | serialExchange (p : Bytes)
  /-- `DISPATCH(req)`, R220. -/
  | dispatch (req : Bytes)
  /-- Command `poll`, R226. -/
  | poll
  /-- Command `o`, R228. -/
  | o (bitIndex : Int) (value : Bool)
  /-- Command `reset_all`, R230. -/
  | resetAll
  /-- Command `crossdomain.xml`, R232. -/
  | crossdomain
  /-- Command `md`, R234. -/
  | md (motorId : Int) (d : Direction)
  /-- Command `mp`, R236. -/
  | mp (motorId power : Int)
  /-- Anything else, R238: the request as received. -/
  | unknown (req : Bytes)
deriving DecidableEq, Repr

/-- What a request of format `CT` asks for once its arguments are converted (R105). -/
inductive Command where
  | poll
  | o (bitIndex : Int) (value : Bool)
  | resetAll
  | crossdomain
  | md (motorId : Int) (d : Direction)
  | mp (motorId power : Int)
  /-- A name outside the six (R105, last row). -/
  | unknown
deriving DecidableEq, Repr

/-- The `ParseError` of R9: the one thing raised inside `DISPATCH` (R222), with its cause. -/
inductive ParseError where
  /-- A segment the command needs is absent (R100). -/
  | missingSegment
  /-- `parseInt` rejects the segment (R101). -/
  | badInteger
  /-- `parseBool` rejects the segment (R102). -/
  | badBoolean
deriving DecidableEq, Repr

/-- The table row of an operation, counted from 0 in spec/opcode_table.json. -/
def Instr.row : Instr → Nat
  | .busWrite _ _ => 0
  | .busRead _ => 1
  | .init _ => 2
  | .isReady => 3
  | .readInputs => 4
  | .readOutputLatch => 5
  | .rmw _ => 6
  | .setBits _ => 7
  | .clearBits _ => 8
  | .writeOutputs _ => 9
  | .irqEdge => 10
  | .measure => 11
  | .tick => 12
  | .drive _ _ => 13
  | .safeSetClear _ _ => 14
  | .setDirection _ _ => 15
  | .setPower _ _ => 16
  | .stopAll => 17
  | .decodeByte _ => 18
  | .encodeResponse _ => 19
  | .encodeRequest _ => 20
  | .decodeResponse _ => 21
  | .serialExchange _ => 22
  | .dispatch _ => 23
  | .poll => 24
  | .o _ _ => 25
  | .resetAll => 26
  | .crossdomain => 27
  | .md _ _ => 28
  | .mp _ _ => 29
  | .unknown _ => 30

end Sys2Proof
end

