-- ==== Sys2Proof/Decode.lean ====
section
/-! DEFINITION. The encodings of 30_encoding.md: text of format `CT` (R99 to R105), frames of
formats `FI` and `FO` (R94, R96), transactions of formats `BW` and `BR` (R91, R92), and the
model's event word around them (log entry 2): the decoder, and after it the encoder. -/

namespace Sys2Proof

/-! ### Text -/

/-- The bytes of an ASCII string (R203: strings are held as their UTF-8 bytes). -/
def ascii (s : String) : Bytes := s.toList.map fun c => BitVec.ofNat 8 c.toNat

/-- The byte `/`, which cuts a request into segments (R99). -/
def slash : Byte := 0x2F

/-- `split(s, '/')` (R9): the maximal substrings between occurrences of `/`, empty ones kept. -/
def splitSlash : Bytes → List Bytes
  | [] => [[]]
  | b :: bs =>
    if b = slash then [] :: splitSlash bs
    else
      match splitSlash bs with
      | [] => [[b]]
      | s :: ss => (b :: s) :: ss

/-- The ASCII digit of `d` in 0..9. -/
def digit (d : Nat) : Byte := BitVec.ofNat 8 (48 + d)

/-- The digits of `n` in front of `acc`; `fuel` bounds their number. -/
def decDigits : Nat → Nat → Bytes → Bytes
  | 0, _, acc => acc
  | fuel + 1, n, acc =>
    if n < 10 then digit n :: acc else decDigits fuel (n / 10) (digit (n % 10) :: acc)

/-- `dec(n)` (R9): the decimal numeral of `n`, no sign, no leading zero. -/
def dec (n : Nat) : Bytes := decDigits (n + 1) n []

/-- A decimal integer with a leading `-` when negative: the inverse of `parseInt` (R13(g)). -/
def decInt (i : Int) : Bytes := if i < 0 then 0x2D :: dec i.natAbs else dec i.natAbs

/-- The value of a digit byte, if it is one. -/
def digitValue (b : Byte) : Option Nat :=
  if 48 ≤ b.toNat ∧ b.toNat ≤ 57 then some (b.toNat - 48) else none

/-- The decimal number whose digits continue `acc`. -/
def parseDigits : Nat → Bytes → Option Nat
  | acc, [] => some acc
  | acc, b :: bs =>
    match digitValue b with
    | some d => parseDigits (acc * 10 + d) bs
    | none => none

/-- One or more digits. -/
def parseNat (s : Bytes) : Option Nat := if s = [] then none else parseDigits 0 s

/-- An optional `-` and one or more digits, of any size (R101 before its range check). -/
def parseIntAny : Bytes → Option Int
  | [] => none
  | b :: bs =>
    if b = 0x2D then (parseNat bs).map fun n => - (n : Int)
    else (parseNat (b :: bs)).map fun n => (n : Int)

/-- The range of an integer argument, -2^31 .. 2^31 - 1 (R101). -/
abbrev inInt32 (i : Int) : Prop := -2147483648 ≤ i ∧ i ≤ 2147483647

/-- `parseInt` (R101). -/
def parseInt (s : Bytes) : Except ParseError Int :=
  match parseIntAny s with
  | some i => if inInt32 i then .ok i else .error .badInteger
  | none => .error .badInteger

/-- `"true"` or `"false"`, as replies print a bit (`tf`, R108) and as `o` takes it (R102). -/
def boolText (b : Bool) : Bytes := if b then ascii "true" else ascii "false"

/-- `parseBool` (R102). -/
def parseBool (s : Bytes) : Except ParseError Bool :=
  if s = ascii "true" then .ok true
  else if s = ascii "false" then .ok false
  else .error .badBoolean

/-- The spelling of a direction (R103). -/
def dirText : Direction → Bytes
  | .stopped => ascii "Stopped"
  | .forward => ascii "Forward"
  | .reverse => ascii "Reverse"

/-- `parseDir` (R103): any other string is Stopped and raises nothing. -/
def parseDir (s : Bytes) : Direction :=
  if s = ascii "Forward" then .forward
  else if s = ascii "Reverse" then .reverse
  else .stopped

/-! ### Format `CT` -/

/-- Taking segment `n`; an absent one raises `ParseError` (R100). -/
def segment (segs : List Bytes) (n : Nat) : Except ParseError Bytes :=
  match segs[n]? with
  | some s => .ok s
  | none => .error .missingSegment

/-- The arguments of `o` (R228), converted in positional order (R223). -/
def parseO (segs : List Bytes) : Except ParseError Command := do
  let a ← segment segs 2
  let i ← parseInt a
  let v ← segment segs 3
  let b ← parseBool v
  return .o i b

/-- The arguments of `md` (R234), converted in positional order (R223). -/
def parseMd (segs : List Bytes) : Except ParseError Command := do
  let a ← segment segs 2
  let c ← parseInt a
  let d ← segment segs 3
  return .md c (parseDir d)

/-- The arguments of `mp` (R236), converted in positional order (R223). -/
def parseMp (segs : List Bytes) : Except ParseError Command := do
  let a ← segment segs 2
  let c ← parseInt a
  let q ← segment segs 3
  let p ← parseInt q
  return .mp c p

/-- The choice of arm by `seg[1]` alone, byte for byte (R105, R220). -/
def parseCommand (req : Bytes) : Except ParseError Command := do
  let segs := splitSlash req
  let name ← segment segs 1
  if name = ascii "poll" then return .poll
  else if name = ascii "o" then parseO segs
  else if name = ascii "reset_all" then return .resetAll
  else if name = ascii "crossdomain.xml" then return .crossdomain
  else if name = ascii "md" then parseMd segs
  else if name = ascii "mp" then parseMp segs
  else return .unknown

/-- The operation a request of format `CT` names: one of the six commands with its arguments
converted, and `unknown` for every other text and for a `ParseError` (R238). -/
def decodeText (req : Bytes) : Instr :=
  match parseCommand req with
  | .ok .poll => .poll
  | .ok (.o i b) => .o i b
  | .ok .resetAll => .resetAll
  | .ok .crossdomain => .crossdomain
  | .ok (.md c d) => .md c d
  | .ok (.mp c p) => .mp c p
  | .ok .unknown => .unknown req
  | .error _ => .unknown req

/-! ### Frames -/

/-- The frame `ENCODE_REQUEST(p)` makes, format `FI` (R94, R205). The length byte holds
`len p` for `len p ≤ 255`. -/
def requestFrame (p : Bytes) : Bytes := Config.frameHeader :: BitVec.ofNat 8 p.length :: p

/-- The frame `ENCODE_RESPONSE(p)` makes, format `FO` (R96, R204): the length's bits 15..8, then its
bits 7..0 (R97). -/
def responseFrame (p : Bytes) : Bytes :=
  Config.frameHeader :: BitVec.ofNat 8 (p.length / 256) :: BitVec.ofNat 8 (p.length % 256) :: p

/-! ### The event word

R113 gives an encoded form to the formats `BW`, `BR`, `FI`, `FO` and `CT` only; operations started
by a port event or called inside the block have none. The model writes every event the
environment can deliver as one word: the row's number in the opcode table (standing for the
port), then the row's own encoding where the spec gives one, else the operands as bytes.
DESIGN CHOICE, log entry 2 (safe). -/

/-- Why a word is no event of the block. -/
inductive DecodeError where
  /-- The word is empty. -/
  | emptyWord
  /-- The first byte is no row of the opcode table. -/
  | unknownRow
  /-- The operand bytes are too few or too many for the row. -/
  | badLength
  /-- A transaction does not begin with the device-address byte of its direction (R91, R92). -/
  | wrongDeviceByte
  /-- A frame does not begin with 0xAA (R94, R96). -/
  | badHeader
  /-- An operand byte stands for no value of the operand. -/
  | badOperand
  /-- A delivered payload has more than 255 bytes (R207). -/
  | payloadTooLong
  /-- A request text names another command than the row (R105). -/
  | wrongCommand
deriving DecidableEq, Repr

/-- A channel operand byte. -/
def decodeChannel (b : Byte) : Option Channel :=
  if b = 0 then some 0 else if b = 1 then some 1 else none

/-- A direction operand byte. -/
def decodeDirection (b : Byte) : Option Direction :=
  if b = 0 then some .stopped
  else if b = 1 then some .forward
  else if b = 2 then some .reverse
  else none

/-- An `init_result` operand byte: 0..5 are `fail(k)`, 6 is `ok`. -/
def decodeInitResult (b : Byte) : Option InitResult :=
  if h : b.toNat < 6 then some (.fail ⟨b.toNat, h⟩) else if b = 6 then some .ok else none

/-- A byte-function operand: a form byte, then a mask, or a table of 256 bytes. -/
def decodeByteFn : Bytes → Option ByteFn
  | [] => none
  | k :: m =>
    if k = 0 then (match m with | [x] => some (.orMask x) | _ => none)
    else if k = 1 then (match m with | [x] => some (.andNotMask x) | _ => none)
    else if k = 2 then (match m with | [x] => some (.const x) | _ => none)
    else if k = 3 then
      if h : m.length = 256 then some (.table ⟨m.toArray, by simpa using h⟩) else none
    else none

/-- No operand bytes. -/
def decodeBare (i : Instr) : Bytes → Except DecodeError Instr
  | [] => .ok i
  | _ :: _ => .error .badLength

/-- One operand byte. -/
def decodeOne (f : Byte → Instr) : Bytes → Except DecodeError Instr
  | [b] => .ok (f b)
  | _ => .error .badLength

/-- A transaction of format `BW` (R91). -/
def decodeBW (g : Cfg) : Bytes → Except DecodeError Instr
  | [w, reg, v] => if w = g.devaddrW then .ok (.busWrite reg v) else .error .wrongDeviceByte
  | _ => .error .badLength

/-- A transaction of format `BR` (R92): its two outgoing bytes. -/
def decodeBR (g : Cfg) : Bytes → Except DecodeError Instr
  | [d, reg] => if d = g.devaddrR then .ok (.busRead reg) else .error .wrongDeviceByte
  | _ => .error .badLength

/-- A whole frame of format `FI` (R94), for the peer's `ENCODE_REQUEST`. -/
def decodeFI : Bytes → Except DecodeError Instr
  | h :: l :: p =>
    if h ≠ Config.frameHeader then .error .badHeader
    else if p.length = l.toNat then .ok (.encodeRequest p)
    else .error .badLength
  | _ => .error .badLength

/-- A whole frame of format `FO` (R96), for `ENCODE_RESPONSE`; `N = byte 1 * 256 + byte 2` (R97). -/
def decodeFO : Bytes → Except DecodeError Instr
  | h :: hi :: lo :: p =>
    if h ≠ Config.frameHeader then .error .badHeader
    else if p.length = hi.toNat * 256 + lo.toNat then .ok (.encodeResponse p)
    else .error .badLength
  | _ => .error .badLength

/-- A request text under the row of its own command. -/
def decodeCT (row : Nat) (req : Bytes) : Except DecodeError Instr :=
  if (decodeText req).row = row then .ok (decodeText req) else .error .wrongCommand

/-- The operand bytes of a row that takes an `init_result`. -/
def decodeInit : Bytes → Except DecodeError Instr
  | [b] =>
    match decodeInitResult b with
    | some r => .ok (.init r)
    | none => .error .badOperand
  | _ => .error .badLength

/-- The operand bytes of `RMW`. -/
def decodeRmw (m : Bytes) : Except DecodeError Instr :=
  match decodeByteFn m with
  | some f => .ok (.rmw f)
  | none => .error .badOperand

/-- The operand bytes of `DRIVE` and of `SET_DIRECTION`: a channel and a direction. -/
def decodeChannelDirection (f : Channel → Direction → Instr) : Bytes → Except DecodeError Instr
  | [c, d] =>
    match decodeChannel c, decodeDirection d with
    | some c', some d' => .ok (f c' d')
    | _, _ => .error .badOperand
  | _ => .error .badLength

/-- The operand bytes of `SAFE_SET_CLEAR`. -/
def decodeSafeSetClear : Bytes → Except DecodeError Instr
  | [set, clear] => .ok (.safeSetClear set clear)
  | _ => .error .badLength

/-- The operand bytes of `SET_POWER`: a channel, then the power in decimal text. -/
def decodeSetPower : Bytes → Except DecodeError Instr
  | c :: t =>
    match decodeChannel c, parseIntAny t with
    | some c', some p => .ok (.setPower c' p)
    | _, _ => .error .badOperand
  | [] => .error .badLength

/-- The operand bytes of `SERIAL_EXCHANGE`: a delivered payload, 0..255 bytes (R207). -/
def decodeExchange (p : Bytes) : Except DecodeError Instr :=
  if p.length ≤ 255 then .ok (.serialExchange p) else .error .payloadTooLong

/-- What follows the row byte of an event word. -/
def decodeOperands (g : Cfg) (row : Nat) (p : Bytes) : Except DecodeError Instr :=
  match row with
  | 0 => decodeBW g p
  | 1 => decodeBR g p
  | 2 => decodeInit p
  | 3 => decodeBare .isReady p
  | 4 => decodeBare .readInputs p
  | 5 => decodeBare .readOutputLatch p
  | 6 => decodeRmw p
  | 7 => decodeOne .setBits p
  | 8 => decodeOne .clearBits p
  | 9 => decodeOne .writeOutputs p
  | 10 => decodeBare .irqEdge p
  | 11 => decodeBare .measure p
  | 12 => decodeBare .tick p
  | 13 => decodeChannelDirection .drive p
  | 14 => decodeSafeSetClear p
  | 15 => decodeChannelDirection .setDirection p
  | 16 => decodeSetPower p
  | 17 => decodeBare .stopAll p
  | 18 => decodeOne .decodeByte p
  | 19 => decodeFO p
  | 20 => decodeFI p
  | 21 => decodeOne .decodeResponse p
  | 22 => decodeExchange p
  | 23 => .ok (.dispatch p)
  | 24 => decodeCT 24 p
  | 25 => decodeCT 25 p
  | 26 => decodeCT 26 p
  | 27 => decodeCT 27 p
  | 28 => decodeCT 28 p
  | 29 => decodeCT 29 p
  | 30 => decodeCT 30 p
  | _ => .error .unknownRow

/-- The operation an event word stands for, or why it stands for none. -/
def decode (g : Cfg) : Bytes → Except DecodeError Instr
  | [] => .error .emptyWord
  | r :: p => decodeOperands g r.toNat p

/-! ### The encoder -/

/-- The operand byte of a channel. -/
def encodeChannel (c : Channel) : Byte := if c = 0 then 0 else 1

/-- The operand byte of a direction. -/
def encodeDirection : Direction → Byte
  | .stopped => 0
  | .forward => 1
  | .reverse => 2

/-- The operand byte of an `init_result`. -/
def encodeInitResult : InitResult → Byte
  | .ok => 6
  | .fail k => BitVec.ofNat 8 k.val

/-- The operand bytes of a byte function. -/
def encodeByteFn : ByteFn → Bytes
  | .orMask m => [0, m]
  | .andNotMask m => [1, m]
  | .const m => [2, m]
  | .table t => 3 :: t.toList

/-- A command's text with its arguments, each after a `/` (R99). -/
def commandText (name : Bytes) (args : List Bytes) : Bytes :=
  slash :: name ++ args.flatMap (slash :: ·)

/-- What an operation's event word holds after its row byte, from the spec's encodings R91, R92, R94,
R96 and R99 to R105 where it has one. -/
def encodeOperands (g : Cfg) : Instr → Bytes
  | .busWrite reg v => [g.devaddrW, reg, v]
  | .busRead reg => [g.devaddrR, reg]
  | .init r => [encodeInitResult r]
  | .isReady => []
  | .readInputs => []
  | .readOutputLatch => []
  | .rmw f => encodeByteFn f
  | .setBits m => [m]
  | .clearBits m => [m]
  | .writeOutputs m => [m]
  | .irqEdge => []
  | .measure => []
  | .tick => []
  | .drive c d => [encodeChannel c, encodeDirection d]
  | .safeSetClear set clear => [set, clear]
  | .setDirection c d => [encodeChannel c, encodeDirection d]
  | .setPower c p => encodeChannel c :: decInt p
  | .stopAll => []
  | .decodeByte b => [b]
  | .encodeResponse p => responseFrame p
  | .encodeRequest p => requestFrame p
  | .decodeResponse b => [b]
  | .serialExchange p => p
  | .dispatch req => req
  | .poll => commandText (ascii "poll") []
  | .o i b => commandText (ascii "o") [decInt i, boolText b]
  | .resetAll => commandText (ascii "reset_all") []
  | .crossdomain => commandText (ascii "crossdomain.xml") []
  | .md c d => commandText (ascii "md") [decInt c, dirText d]
  | .mp c p => commandText (ascii "mp") [decInt c, decInt p]
  | .unknown req => req

/-- The event word of an operation. -/
def encode (g : Cfg) (i : Instr) : Bytes := BitVec.ofNat 8 i.row :: encodeOperands g i

/-! ### Words of the opcode table -/

/-- The bytes of a table word, bit 0 the least significant bit of the first byte. -/
def tableBytes (nbits w : Nat) : Bytes :=
  (List.range (nbits / 8)).map fun k => BitVec.ofNat 8 (w / 2 ^ (8 * k))

/-- The event words that deliver bytes of one of the table's encoded formats, told apart by their own
content under `CFG_EX`: three bytes from `DEVADDR_W` are a `BW`, two from `DEVADDR_R` a `BR`, bytes
from 0xAA arrive one by one on `serial_in` (R201), anything else is a `CT` text under the row of
its command (R105). DESIGN CHOICE, log entry 20 (safe). -/
def tableWords (bytes : Bytes) : List Bytes :=
  if bytes.length = 3 ∧ bytes.head? = some Config.cfgEx.devaddrW then [0 :: bytes]
  else if bytes.length = 2 ∧ bytes.head? = some Config.cfgEx.devaddrR then [1 :: bytes]
  else if bytes.head? = some Config.frameHeader then bytes.map fun b => [18, b]
  else [BitVec.ofNat 8 (decodeText bytes).row :: bytes]

/-- The operation the decoder reads from a word of the opcode table (under `CFG_EX`). -/
def decodeTableWord (nbits w : Nat) : Option Instr :=
  match tableWords (tableBytes nbits w) with
  | word :: _ =>
    match decode Config.cfgEx word with
    | .ok i => some i
    | .error _ => none
  | [] => none

end Sys2Proof
end

