-- ==== Sys2Proof/Machine/Assoc.lean ====
section
/-! DEFINITION. Sparse data by numbered key: a list of pairs in one canonical form, keys strictly
rising. The expander's registers and the agents in mid-operation are held in it. -/

namespace Sys2Proof.Machine

/-- The value at key `k`, if any. -/
def Assoc.get {α : Type} : List (Nat × α) → Nat → Option α
  | [], _ => none
  | (k', v) :: r, k => if k = k' then some v else Assoc.get r k

/-- The same with key `k` holding `v`. -/
def Assoc.put {α : Type} : List (Nat × α) → Nat → α → List (Nat × α)
  | [], k, v => [(k, v)]
  | (k', v') :: r, k, v =>
    if k < k' then (k, v) :: (k', v') :: r
    else if k = k' then (k, v) :: r
    else (k', v') :: Assoc.put r k v

/-- The same with nothing at key `k`. -/
def Assoc.erase {α : Type} : List (Nat × α) → Nat → List (Nat × α)
  | [], _ => []
  | (k', v) :: r, k => if k = k' then Assoc.erase r k else (k', v) :: Assoc.erase r k

/-- The canonical form: keys strictly rising. -/
abbrev Assoc.wf {α : Type} (m : List (Nat × α)) : Prop := (m.map Prod.fst).Pairwise (· < ·)

end Sys2Proof.Machine
end

