-- ==== Sys2Proof/Machine/State.lean ====
section
/-! DEFINITION. The state of the block and of the environment it is run with, as plain data, and its
value after reset. -/

namespace Sys2Proof.Machine

/-! ### Registers of the block -/

/-- `DRV`, the driver's status (R22). -/
inductive Drv where
  | uninit
  | ready
  | unavailable
deriving DecidableEq, Repr

/-- `CH[c]`, a motor channel's record (R24); `onTicks` and `offTicks` are u32. -/
structure ChannelRec where
  state : Direction
  onTicks : BitVec 32
  offTicks : BitVec 32
deriving DecidableEq, Repr

/-- `SONAR.state` (R27). -/
inductive SonarState where
  | idle
  | triggering
  | waiting
  | measured
  | timedOut
deriving DecidableEq, Repr

/-- `SONAR.prev`, the echo level at the previous sample (R28). -/
inductive EchoLevel where
  | none
  | active
  | inactive
deriving DecidableEq, Repr

/-- `DEC.state` (R29). -/
inductive DecPhase where
  | hunt
  | len
  | payload
deriving DecidableEq, Repr

/-- `DEC.state`, `DEC.len`, `DEC.buf` (R29). -/
structure DecRegs where
  phase : DecPhase
  len : Byte
  buf : Bytes
deriving DecidableEq, Repr

/-! ### The peer's decoder -/

/-- Where the peer's decoder stands (R206): as R29 with a length of two bytes. -/
inductive PeerPhase where
  | hunt
  | lenHigh
  | lenLow
  | payload
deriving DecidableEq, Repr

/-- The registers of the peer's decoder (R206) and what it has delivered (DESIGN CHOICE, log entry 13,
unsafe in its reset values). -/
structure PeerRegs where
  phase : PeerPhase
  /-- The high length byte `h`, once read. -/
  high : Byte
  /-- `N = h * 256 + l`, once both are read. -/
  len : Nat
  buf : Bytes
  delivered : List Bytes
deriving DecidableEq, Repr

/-! ### Ports -/

/-- One bus transaction, whole (R71): a write, or a read with the byte the expander returned. -/
inductive Txn where
  | write (reg v : Byte)
  | read (reg b : Byte)
deriving DecidableEq, Repr

/-- An output event (R42). -/
inductive Event where
  /-- `IoChangeEvent` (R111). -/
  | ioChange (changedMask capturedState : Byte)
  /-- `DistanceNotification` (R169). -/
  | distance (mm : Nat)
deriving DecidableEq, Repr

/-- What an operation returns to its caller. -/
inductive Value where
  | unit
  | bool (b : Bool)
  | byte (b : Byte)
  /-- The pair `(old, new)` of an `RMW` (R138). -/
  | pair (old new : Byte)
  /-- A reply string (R220). -/
  | text (t : Bytes)
  /-- A byte sequence (R204, R205). -/
  | bytes (b : Bytes)
deriving DecidableEq, Repr

/-! ### Agents -/

/-- The agents of R11 that take steps. -/
inductive AgentId where
  /-- `A_INIT`. -/
  | init
  /-- `A_TICK`. -/
  | tick
  /-- `A_SONAR`. -/
  | sonar
  /-- `A_IRQ`. -/
  | irq
  /-- `A_SERIAL`. -/
  | serial
  /-- `A_CMD[k]`; a caller of an internal operation from outside the block is numbered with them. -/
  | cmd (k : Nat)
deriving DecidableEq, Repr

/-- The key an agent's position is kept under. -/
def AgentId.key : AgentId → Nat
  | .init => 0
  | .tick => 1
  | .sonar => 2
  | .irq => 3
  | .serial => 4
  | .cmd k => 5 + k

/-- One line of an operation's pseudocode that is still to be run, with the values earlier lines of
the same run gave it: an agent's position "is the step number within the operation's pseudocode"
(R21). Each line is one step of R70. -/
inductive Line where
  /-- `BusWrite(reg, v)`, gated on `DRV` (R121). -/
  | busWrite (reg v : Byte)
  /-- A configuration write of `INIT`, not gated (R133). -/
  | initWrite (reg v : Byte)
  /-- `BusRead(reg)` (R122). -/
  | busRead (reg : Byte)
  /-- `atomic { OUT <- 0x00 }` of `INIT` (R133). -/
  | initOut
  /-- `CH[c] <- {Stopped, 0, 5}` of `INIT` (R133). -/
  | initChannel (c : Channel)
  /-- `DRV <- Ready if r = ok else Unavailable` (R133). -/
  | initDone (r : InitResult)
  /-- `return (DRV = Ready)` (R135). -/
  | isReady
  /-- `RMW(f)`: its atomic step (R137); its bus write follows as `busWrite` (R138). -/
  | rmw (f : ByteFn)
  /-- `IRQ_EDGE`, the gate (R141). -/
  | irqGate
  /-- `IRQ_EDGE`, the read of `REG_INT_FLAG`. -/
  | irqFlag
  /-- `IRQ_EDGE`, the read of `REG_INT_CAPTURE`, `changedMask` in hand. -/
  | irqCapture (m : Byte)
  /-- `emit` of an event (R42). -/
  | emit (e : Event)
  /-- `MEASURE` lines 1 to 3 (R160, R161). -/
  | measureGate
  /-- `MEASURE` lines 5 and 6: enabled once `T_TRIG` has passed since the agent's last step (R163;
  DEDUCED, log entry 19, safe). -/
  | measureTrigger
  /-- `MEASURE` line 7 (R164). -/
  | measureStart
  /-- `MEASURE` line 9 (R165). -/
  | measureTest
  /-- `MEASURE` lines 10 to 12 (R164, R166). -/
  | measureSample
  /-- `MEASURE` lines 13 to 16, up to the filter (R167 to R169). -/
  | measureEdge
  /-- `DIST <- d` of line 16 (R169). -/
  | publish (d : Nat)
  /-- `MEASURE` line 17 (R170). -/
  | measureEnd
  /-- `TICK`, the gate and `t <- TICK` (R180). -/
  | tickGate
  /-- `TICK`, one channel, with the `t` of this tick (R180 to R182). -/
  | tickChannel (t : Nat) (c : Channel)
  /-- `TICK <- t + 1`. -/
  | tickEnd (t : Nat)
  /-- `CH[c].state <- s` (R187, R189). -/
  | setDirection (c : Channel) (d : Direction)
  /-- `(CH[c].onTicks, CH[c].offTicks) <- table[clamp(p)]` (R188). -/
  | setPower (c : Channel) (p : Int)
  /-- `poll`, the test of `DRV` (R226). -/
  | pollGate
  /-- `poll`, `in <- READ_INPUTS()`. -/
  | pollInputs
  /-- `poll`, `latch <- READ_OUTPUT_LATCH()`. -/
  | pollLatch (i : Byte)
  /-- `poll`, `d <- DIST` and the reply. -/
  | pollReply (i l : Byte)
  /-- `return v`. -/
  | give (v : Value)
  /-- The conditional sending of the reply to the serial text `p` (R207, R208). -/
  | serialReply (p : Bytes)
  /-- One byte into the peer's decoder (R206). -/
  | peerByte (b : Byte)
  /-- The value returned goes to caller `k`: a reply string on `reply[k]` (R41). -/
  | deliver (k : Nat)
deriving DecidableEq, Repr

/-- An agent in mid-operation: the lines still to run, the value the last one returned, and the time
of its last step (from which `wait T_TRIG` counts, R163). -/
structure Thread where
  code : List Line
  acc : Value
  stamp : Rat
deriving DecidableEq, Repr

/-! ### The environment -/

/-- What the environment does in one turn. -/
inductive Action where
  /-- It delivers an event, written as an event word (`decode`). -/
  | start (word : Bytes)
  /-- It lets an agent go on. -/
  | resume (a : AgentId)
deriving DecidableEq, Repr

/-- One turn of the environment's schedule: the time it happens at, how many steps of R70 the agent
takes in it, and what happens. A list of turns is an interleaving of R70 (DESIGN CHOICE, log entry
5, safe). -/
structure Turn where
  time : Rat
  slice : Nat
  act : Action
deriving DecidableEq, Repr

/-- The expander registers' bytes `X[a]`, by address (R60, R62). An address not listed holds
`Memory.unlisted`. -/
abbrev Memory := List Host.Cell

/-- The expander chip, outside the block (R62 to R66): whether the run assumes the conforming
expander (DESIGN CHOICE, log entry 10, safe), and the bytes `X[a]` its registers hold, which no
read sees unless it does (log entry 24). -/
structure Chip where
  conforming : Bool
  cells : Memory
deriving DecidableEq, Repr

/-- What an expander register holds that the state does not list: 0x00, the power-on value of the
family's registers but the two of direction (PRESUMED, log entry 23, unsafe: the spec leaves
`X[a]` before any write unspecified, R33, R62). -/
def Memory.unlisted : Byte := 0x00

/-- `X[a]` at power-on: every register 0x00 but the two of direction, 0xFF, as the family of the
example addresses has them (PRESUMED, log entry 23, unsafe). -/
def Memory.powerOn (g : Cfg) : Memory :=
  Assoc.put (Assoc.put [] g.regDirOut.toNat 0xFF) g.regDirIn.toNat 0xFF

/-! ### The state -/

/-- Everything the spec gives the machine: the registers of R20, the outputs of R41, the expander and
peer the rules name, each agent's position (R21, R32), and what the environment has still to
supply (R38). -/
@[ext]
structure State where
  /-- `CFG` (R7), fixed for a run. -/
  cfg : Cfg
  /-- `DRV` (R22). -/
  drv : Drv
  /-- `OUT` (R23), the shadow of the output port. -/
  out : Byte
  /-- `CH[0]` (R24). -/
  ch0 : ChannelRec
  /-- `CH[1]` (R24). -/
  ch1 : ChannelRec
  /-- `TICK` (R25), unbounded. -/
  tick : Nat
  /-- `DIST` (R26), millimetres. -/
  dist : Nat
  /-- `SONAR.state` (R27). -/
  sonarState : SonarState
  /-- `SONAR.t0` (R28), milliseconds. -/
  sonarT0 : Rat
  /-- `SONAR.prev` (R28). -/
  sonarPrev : EchoLevel
  /-- `DEC.*` (R29). -/
  dec : DecRegs
  /-- `RXQ` (R30), head first. -/
  rxq : Bytes
  /-- The expander (R33, R34, R62 to R66). -/
  chip : Chip
  /-- `bus_out`, the bus trace (R41), oldest first. -/
  busTrace : List Txn
  /-- `serial_out` (R30, R41), oldest first. -/
  serialOut : Bytes
  /-- `reply[k]` (R41), with the caller's number, oldest first. -/
  replies : List (Nat × Bytes)
  /-- What operations called from outside returned, with the caller's number; the model's own. -/
  results : List (Nat × Value)
  /-- `events` (R42), oldest first. -/
  events : List Event
  /-- The peer's decoder (R206). -/
  peer : PeerRegs
  /-- The agents in mid-operation (R21, R32(c)), by `AgentId.key`; an idle agent has no entry. -/
  threads : List (Nat × Thread)
  /-- The number of the next `A_CMD[k]` (R11); the model's own. -/
  nextCmd : Nat
  /-- Whether the one `init_start` event has been delivered (R38); the model's own. -/
  initStarted : Bool
  /-- The time of the last accepted interrupt edge (R142); the environment's (DEDUCED, log entry 9,
  safe). -/
  lastIrq : Option Rat
  /-- `now()` (R39), milliseconds: the time of the current turn (DESIGN CHOICE, log entry 8, unsafe in
  its reset value). -/
  time : Rat
  /-- `bus_in` (R38): the bytes the expander will return, while the environment's script lasts. -/
  busIn : Bytes
  /-- How many free bytes have been drawn; the model's own, the argument of `Config.freeByte`. -/
  draws : Nat
  /-- How many steps of R70 the agent of the current turn takes; the model's own. -/
  slice : Nat
  /-- The turns still to come (R70); the model's own. -/
  turns : List Turn
deriving DecidableEq, Repr

/-! ### Stops -/

/-- Why a run faults: never. "Nothing in this block traps or hangs" (93_implementation_defined.md
section 1), so the type has no constructor. -/
inductive Fault where
deriving DecidableEq, Repr

/-- Why a run is refused. All but the first two are the `refuse` rows of
93_implementation_defined.md: the spec admits no such run. -/
inductive Refusal where
  /-- An instruction with no meaning in this model; no arm of `exec` raises it (safe). -/
  | notModelled (mnemonic : String)
  /-- Raised by `step` on an event word that `decode` rejects: the environment delivered no event of
  the block (safe). -/
  | undecodable (e : DecodeError)
  /-- U7, raised by `step`: `CFG` is not well-formed (R44) (safe). -/
  | illFormedConfig
  /-- U6, raised by `INIT`: a second `init_start` (R131) (safe). -/
  | secondInit
  /-- U1, raised by `MEASURE`: a `measure` event while one is outstanding (R161) (safe). -/
  | measureWhileBusy
  /-- U2, raised by `TICK`: a `tick` event while a `TICK` is running (R301) (safe). -/
  | tickOverlap
  /-- U11, raised by `IRQ_EDGE`: an accepted edge closer than 50 ms to the one before (R142) (safe). -/
  | irqTooEarly
  /-- U12, raised by `step`: `now()` would go backwards (R39) (safe). -/
  | timeBackwards
  /-- U5, raised by `ENCODE_RESPONSE`: a payload of more than 65535 bytes (R204) (safe). -/
  | responseTooLong
  /-- Raised by `ENCODE_REQUEST`: a payload of more than 255 bytes "cannot be framed" (R205) (safe). -/
  | requestTooLong
deriving DecidableEq, Repr

/-! ### Reset -/

/-- `CH[c]` after reset (R24): Stopped, at the pair of power 0. -/
def ChannelRec.reset : ChannelRec := { state := .stopped, onTicks := 0, offTicks := 5 }

/-- The machine after reset with configuration `g`: the reset column of R20 (R291), every agent idle
and nothing pending (R32, R46). The values R291 leaves unspecified (`SONAR.t0`, `DEC.len`) are 0,
DESIGN CHOICE, log entry 4; the expander's registers, which it leaves unspecified too, hold
`Memory.powerOn`, PRESUMED, log entry 23. The environment's part is empty: no event delivered, no
turn scheduled, the expander not assumed to conform (R66). -/
def State.resetWith (g : Cfg) : State where
  cfg := g
  drv := .uninit
  out := 0
  ch0 := ChannelRec.reset
  ch1 := ChannelRec.reset
  tick := 0
  dist := 0
  sonarState := .idle
  sonarT0 := 0
  sonarPrev := .none
  dec := { phase := .hunt, len := 0, buf := [] }
  rxq := []
  chip := { conforming := false, cells := Memory.powerOn g }
  busTrace := []
  serialOut := []
  replies := []
  results := []
  events := []
  peer := { phase := .hunt, high := 0, len := 0, buf := [], delivered := [] }
  threads := []
  nextCmd := 0
  initStarted := false
  lastIrq := none
  time := 0
  busIn := []
  draws := 0
  slice := 0
  turns := []

/-- The machine right after reset, with the example parameters in its `CFG` (log entry 1). -/
def State.reset : State := State.resetWith Config.cfgEx

end Sys2Proof.Machine
end

