-- ==== Sys2Proof/Machine/Flags.lean ====
section
/-! DEFINITION. The three status conditions of R31; the block has no other flag. -/

namespace Sys2Proof.Machine

/-- `ready`: `DRV` = Ready (R31, R135). -/
def State.ready (s : State) : Bool := decide (s.drv = .ready)

/-- `busy`: `SONAR.state` is not Idle (R31, R27). -/
def State.busy (s : State) : Bool := decide (s.sonarState ≠ .idle)

/-- `changed`: the one-bit result of an `RMW` (R31, R137). -/
def changed (old new : Byte) : Bool := decide (new ≠ old)

end Sys2Proof.Machine
end

