-- ==== Sys2Proof/Machine/Frames.lean ====
section
/-! DEFINITION. The two frame decoders as functions of their registers and one byte (R201, R206), and
the reply condition of the serial transport (R208). -/

namespace Sys2Proof.Machine

/-- `DECODE_BYTE(b)` on `DEC.*` (R201): the registers after it, and the payload delivered, if one is. -/
def DecRegs.feed (d : DecRegs) (b : Byte) : DecRegs × Option Bytes :=
  match d.phase with
  | .hunt => if b = Config.frameHeader then ({ d with phase := .len }, none) else (d, none)
  | .len =>
    if b = 0 then ({ phase := .hunt, len := b, buf := [] }, some [])
    else ({ phase := .payload, len := b, buf := [] }, none)
  | .payload =>
    if (d.buf ++ [b]).length = d.len.toNat then
      ({ d with phase := .hunt, buf := [] }, some (d.buf ++ [b]))
    else ({ d with buf := d.buf ++ [b] }, none)

/-- The peer's decoder fed one byte (R206): as R201 with a length `N = h * 256 + l`. -/
def PeerRegs.feed (d : PeerRegs) (b : Byte) : PeerRegs :=
  match d.phase with
  | .hunt => if b = Config.frameHeader then { d with phase := .lenHigh } else d
  | .lenHigh => { d with phase := .lenLow, high := b }
  | .lenLow =>
    if d.high.toNat * 256 + b.toNat = 0 then
      { d with phase := .hunt, len := 0, buf := [], delivered := d.delivered ++ [[]] }
    else { d with phase := .payload, len := d.high.toNat * 256 + b.toNat, buf := [] }
  | .payload =>
    if (d.buf ++ [b]).length = d.len then
      { d with phase := .hunt, buf := [], delivered := d.delivered ++ [d.buf ++ [b]] }
    else { d with buf := d.buf ++ [b] }

/-- Whether `t` begins with `p`. -/
def startsWith : Bytes → Bytes → Bool
  | [], _ => true
  | _ :: _, [] => false
  | a :: p, b :: t => a == b && startsWith p t

/-- `contains(s, t)` (R9): whether `t` occurs in `s`. -/
def containsText (t : Bytes) : Bytes → Bool
  | [] => startsWith t []
  | b :: s => startsWith t (b :: s) || containsText t s

/-- Whether a serial text is answered: it contains `poll` anywhere (R208). -/
def answered (text : Bytes) : Bool := containsText (ascii "poll") text

end Sys2Proof.Machine
end

