-- ==== Sys2Proof/Machine/Operands.lean ====
section
/-! DEFINITION. Operand forms: masks of pins, byte functions, the drive and duty tables, the
adjustments of R104, and the distance formula. -/

namespace Sys2Proof.Machine

/-- `mask(i) = 2^i` (R8). -/
def mask (i : Fin 8) : Byte := BitVec.ofNat 8 (2 ^ i.val)

/-- `bit(v, i)` (R8). -/
def bitOf (v : Byte) (i : Fin 8) : Bool := v.getLsbD i.val

/-- A byte function applied to a byte (R137, R139). -/
def applyByteFn : ByteFn → Byte → Byte
  | .orMask m, v => v ||| m
  | .andNotMask m, v => v &&& ~~~m
  | .const w, _ => w
  | .table t, v => t[v.toNat]

/-- The output bit the `o` command drives: `bitIndex + 1` (R104(a)). -/
def outputBit (i : Int) : Fin 8 := if i = 0 then 1 else 2

/-- The channel a `motorId` stands for, if it is legal (R104(b), R105). -/
def motorChannel (c : Int) : Option Channel :=
  if c = 0 then some 0 else if c = 1 then some 1 else none

/-- `clamp(p) = min(6, max(0, p))` (R185). -/
def clampPower (p : Int) : Nat := (min 6 (max 0 p)).toNat

/-- The duty-cycle table, power level to `(onTicks, offTicks)` (R186). -/
def dutyTable : List (BitVec 32 × BitVec 32) :=
  [(0, 5), (1, 3), (1, 2), (1, 1), (2, 1), (3, 1), (5, 0)]

/-- `table[clamp(p)]` (R188). -/
def dutyPair (p : Int) : BitVec 32 × BitVec 32 := dutyTable.getD (clampPower p) (0, 5)

/-- A channel's period `onTicks + offTicks`, a mathematical integer (R13(b), R45). -/
def ChannelRec.period (r : ChannelRec) : Nat := r.onTicks.toNat + r.offTicks.toNat

/-- `phase = t mod (on + off)` (R181). -/
def ChannelRec.phase (r : ChannelRec) (t : Nat) : Nat := t % r.period

/-- What a channel is driven to at tick `t`: Stopped in the off ticks, which come first, else its
logical state (R180, R182). -/
def ChannelRec.target (r : ChannelRec) (t : Nat) : Direction :=
  if r.phase t < r.offTicks.toNat then .stopped else r.state

/-- The set-mask of R183's drive table. -/
def driveSet (g : Cfg) (c : Channel) : Direction → Byte
  | .stopped => 0
  | .forward => mask (g.fwdBit c)
  | .reverse => mask (g.backBit c)

/-- The clear-mask of R183's drive table. -/
def driveClear (g : Cfg) (c : Channel) : Direction → Byte
  | .stopped => mask (g.fwdBit c) ||| mask (g.backBit c)
  | .forward => mask (g.backBit c)
  | .reverse => mask (g.fwdBit c)

/-- The echo level a sample of the input port shows (R164). -/
def echoLevel (g : Cfg) (s : Byte) : EchoLevel := if bitOf s g.echoBit then .active else .inactive

/-- `round(q)`: the nearest integer, a tie going up (R168, U3: DESIGN CHOICE, log entry 12, unsafe). -/
def roundHalfUp (q : Rat) : Int := (q + 1 / 2).floor

/-- `distanceMm = round(elapsedMs * 0.170 * 1000)`, exact but for `round` (R167). -/
def distanceMm (e : Rat) : Nat := (roundHalfUp (170 * e)).toNat

/-- The configuration writes of `INIT`, in order (R133). -/
def initWrites (g : Cfg) : List (Byte × Byte) :=
  [(g.regCfg, g.valCfgAddrmode), (g.regOutPort, 0), (g.regDirOut, g.valDirAllOut),
   (g.regDirIn, g.valDirAllIn), (g.regPullupIn, g.valPullupAll), (g.regIntenIn, g.valIntenNone)]

/-- How many of them are performed: six, or the `k` of `fail(k)` (R133, R134). -/
def initCount : InitResult → Nat
  | .ok => 6
  | .fail k => k.val

end Sys2Proof.Machine
end

