-- ==== Sys2Proof/Machine/Replies.lean ====
section
/-! DEFINITION. The reply strings of format `RT` (R107 to R109). -/

namespace Sys2Proof.Machine

/-- `OKAY`. -/
def replyOkay : Bytes := ascii "okay\n"

/-- `ERR_NOT_CONNECTED`. -/
def errNotConnected : Bytes := ascii "_problem The Digital 2 Piface is not connected.\n"

/-- `ERR_INVALID_BIT`, with no newline (R107). -/
def errInvalidBit : Bytes := ascii "_problem invalid bit"

/-- `ERR_INVALID_MOTOR`. -/
def errInvalidMotor : Bytes := ascii "_problem: invalid motor id\n"

/-- `ERR_UNKNOWN(req)`: the request echoed exactly as received (R107, R238). -/
def errUnknown (req : Bytes) : Bytes := ascii "_problem unknown command: " ++ req ++ [0x0A]

/-- One line of a poll reply about a pin: its prefix, its index, its level (R108). -/
def pinLine (kind : Bytes) (k : Nat) (b : Bool) : Bytes :=
  kind ++ dec k ++ [0x20] ++ boolText b ++ [0x0A]

/-- The lines of a poll reply for pin index `k`: the input, and at index 1 and 2 the output bit `k`
as output `k - 1` (R108). -/
def pollLines (i l : Byte) (k : Fin 8) : Bytes :=
  pinLine (ascii "i/") k.val (bitOf i k) ++
    (if k.val = 1 ∨ k.val = 2 then pinLine (ascii "o/") (k.val - 1) (bitOf l k) else [])

/-- `POLL_REPLY(in, latch, d)` (R108). -/
def pollReply (i l : Byte) (d : Nat) : Bytes :=
  ([0, 1, 2, 3, 4, 5, 6] : List (Fin 8)).flatMap (pollLines i l) ++
    (ascii "d " ++ dec d ++ [0x0A])

/-- `XDOMAIN(port)` (R109). -/
def xdomain (port : Nat) : Bytes :=
  ascii "<cross-domain-policy><allow-access-from domain=\"*\" to-ports=\"" ++ dec port ++
    ascii "\"/></cross-domain-policy>\n"

end Sys2Proof.Machine
end

