-- ==== Sys2Proof/Machine/Ops.lean ====
section
/-! DEFINITION. The named operations over the expander's registers and the block's own, each one
indivisible step of R70, and what taking a `ParseError` does. -/

namespace Sys2Proof.Machine

/-! ### The expander's registers -/

/-- `X[a]` (R62): every address holds a byte. -/
def Memory.read (m : Memory) (a : Nat) : Byte := (Assoc.get m a).getD Memory.unlisted

/-- `X[a] <- v` (R62), keeping the canonical form: the value of an unlisted address is not listed. -/
def Memory.write (m : Memory) (a : Nat) (v : Byte) : Memory :=
  if v = Memory.unlisted then Assoc.erase m a else Assoc.put m a v

/-- The canonical form: addresses strictly rising, each one byte wide (R60), and no entry equal to what
an unlisted address holds. -/
abbrev Memory.wf (m : Memory) : Prop :=
  Assoc.wf m ∧ ∀ c ∈ m, c.1 < 256 ∧ c.2 ≠ Memory.unlisted

/-- The chip takes a write (R62): one of the ten registers takes the byte; of any other address nothing
is assumed, so nothing is held (R61; DESIGN CHOICE, log entry 11, safe). The byte is kept also
where the expander is not assumed to conform (R66), when no read sees it (DESIGN CHOICE, log
entry 24, safe). -/
def Chip.take (h : Chip) (g : Cfg) (reg v : Byte) : Chip :=
  if reg ∈ g.regs then { h with cells := h.cells.write reg.toNat v } else h

/-- What the conforming expander answers of its own to a read, if anything: the last byte written to
the output port for `REG_OUT_LATCH` (R63); nothing for the environment's three registers (R64,
R65); `X[reg]` for the rest of the ten (R62); nothing for any other address (R61, log entry 11). -/
def Chip.answer (h : Chip) (g : Cfg) (reg : Byte) : Option Byte :=
  if h.conforming then
    if reg = g.regOutLatch then some (h.cells.read g.regOutPort.toNat)
    else if reg = g.regInPort ∨ reg = g.regIntFlag ∨ reg = g.regIntCapture then none
    else if reg ∈ g.regs then some (h.cells.read reg.toNat)
    else none
  else none

/-! ### The bus -/

/-- The environment's next byte on `bus_in`: from its script, else a free value (R66, U9). -/
def State.draw (s : State) : Byte × State :=
  match s.busIn with
  | b :: bs => (b, { s with busIn := bs })
  | [] => (Config.freeByte s.draws, { s with draws := s.draws + 1 })

/-- A write transaction (R121): on the trace and into the chip. -/
def State.transact (s : State) (reg v : Byte) : State :=
  { s with busTrace := s.busTrace ++ [.write reg v], chip := s.chip.take s.cfg reg v }

/-- `BusWrite(reg, v)` (R121), gated on `DRV` (R120), the gate in the same step (DEDUCED, log entry 7,
safe). -/
def State.busWrite (s : State) (reg v : Byte) : State :=
  if s.ready then s.transact reg v else s

/-- The byte the expander returns to a read, and the state with that byte taken (R62 to R66). -/
def State.expanderByte (s : State) (reg : Byte) : Byte × State :=
  match s.chip.answer s.cfg reg with
  | some b => (b, s)
  | none => s.draw

/-- `BusRead(reg)` (R122): the byte, and the state after; 0x00 and no transaction unless Ready (R120). -/
def State.busRead (s : State) (reg : Byte) : Byte × State :=
  if s.ready then
    ((s.expanderByte reg).1,
      { (s.expanderByte reg).2 with
        busTrace := (s.expanderByte reg).2.busTrace ++ [.read reg (s.expanderByte reg).1] })
  else (0, s)

/-- The bytes a transaction puts on the bus (R91, R92). -/
def Txn.bytesOut (g : Cfg) : Txn → Bytes
  | .write reg v => [g.devaddrW, reg, v]
  | .read reg _ => [g.devaddrR, reg]

/-! ### The block's registers -/

/-- `CH[c]`, the whole record (R24, R75). -/
def State.channel (s : State) (c : Channel) : ChannelRec := if c = 0 then s.ch0 else s.ch1

/-- `CH[c]` written whole (R24, R75). -/
def State.setChannel (s : State) (c : Channel) (r : ChannelRec) : State :=
  if c = 0 then { s with ch0 := r } else { s with ch1 := r }

/-- `CH[c].state <- d` (R187). -/
def State.writeDirection (s : State) (c : Channel) (d : Direction) : State :=
  s.setChannel c { s.channel c with state := d }

/-- `(CH[c].onTicks, CH[c].offTicks) <- table[clamp(p)]` (R188). -/
def State.writePower (s : State) (c : Channel) (p : Int) : State :=
  s.setChannel c { s.channel c with onTicks := (dutyPair p).1, offTicks := (dutyPair p).2 }

/-- `atomic { old <- OUT ; new <- f(old) ; OUT <- new }`, the in-memory step of `RMW` (R72, R137). -/
def State.rmwAtomic (s : State) (f : ByteFn) : State := { s with out := applyByteFn f s.out }

/-- `DRV` at the end of `INIT` (R131, R133). -/
def State.finishInit (s : State) : InitResult → State
  | .ok => { s with drv := .ready }
  | .fail _ => { s with drv := .unavailable }

/-- `atomic { OUT <- 0x00 }`, the first step of `INIT` (R133). -/
def State.resetOut (s : State) : State := { s with out := 0 }

/-- `SONAR.state <- st` (R27). -/
def State.setSonar (s : State) (st : SonarState) : State := { s with sonarState := st }

/-- `SONAR.prev <- lvl` (R28). -/
def State.setPrev (s : State) (lvl : EchoLevel) : State := { s with sonarPrev := lvl }

/-- `MEASURE` line 7 (R164): `SONAR.t0 <- now() ; SONAR.prev <- None ; SONAR.state <- Waiting`. -/
def State.startTimer (s : State) : State :=
  { s with sonarT0 := s.time, sonarPrev := .none, sonarState := .waiting }

/-- `DIST <- d` (R169). -/
def State.publish (s : State) (d : Nat) : State := { s with dist := d }

/-- `MEASURE` line 17 (R170): `SONAR.state <- Idle ; SONAR.prev <- None`. -/
def State.sonarIdle (s : State) : State := { s with sonarState := .idle, sonarPrev := .none }

/-- `TICK <- t` (R180). -/
def State.setTick (s : State) (t : Nat) : State := { s with tick := t }

/-- A byte is removed from the head of `RXQ`, leaving `q`, and the decoder's registers become `d` (R200,
R201). -/
def State.decoded (s : State) (q : Bytes) (d : DecRegs) : State := { s with rxq := q, dec := d }

/-- The peer's decoder takes a byte (R206). -/
def State.feedPeer (s : State) (b : Byte) : State := { s with peer := s.peer.feed b }

/-! ### Events as they arrive -/

/-- The serial peer appends a byte to `RXQ` (R30). -/
def State.receive (s : State) (b : Byte) : State := { s with rxq := s.rxq ++ [b] }

/-- The one `init_start` event has been delivered (R38). -/
def State.startInit (s : State) : State := { s with initStarted := true }

/-- An interrupt edge is accepted at the present time (R142). -/
def State.acceptEdge (s : State) : State := { s with lastIrq := some s.time }

/-- A new `A_CMD[k]` has its number (R11). -/
def State.newCaller (s : State) : State := { s with nextCmd := s.nextCmd + 1 }

/-- Agent `a`'s position is taken up for a turn. -/
def State.takeUp (s : State) (a : AgentId) : State :=
  { s with threads := Assoc.erase s.threads a.key }

/-! ### Output ports -/

/-- Bytes appended to `serial_out` (R30). -/
def State.send (s : State) (b : Bytes) : State := { s with serialOut := s.serialOut ++ b }

/-- `emit E` (R42). -/
def State.emit (s : State) (e : Event) : State := { s with events := s.events ++ [e] }

/-- A returned value goes to caller `k`: a reply string on `reply[k]` (R41), any other value among the
results. -/
def State.deliver (s : State) (k : Nat) : Value → State
  | .text t => { s with replies := s.replies ++ [(k, t)] }
  | v => { s with results := s.results ++ [(k, v)] }

/-- The bytes of a value that is a string. -/
def Value.textBytes : Value → Bytes
  | .text t => t
  | _ => []

/-! ### The dispatcher boundary -/

/-- TAKING A `ParseError` (R222, R271): nothing is saved, no mode changes, nothing is masked; the
command is abandoned and what is left of it is to return `ERR_UNKNOWN(req)`. There is no return
from it (R273). -/
def takeParseError (req : Bytes) (_ : ParseError) : List Line := [.give (.text (errUnknown req))]

end Sys2Proof.Machine
end

