-- ==== Sys2Proof/Machine/Programs.lean ====
section
/-! DEFINITION. The pseudocode of each operation, as the lines its agent runs. -/

namespace Sys2Proof.Machine

/-! ### Bus and expander driver -/

/-- R121. -/
def codeBusWrite (reg v : Byte) : List Line := [.busWrite reg v]

/-- R122. -/
def codeBusRead (reg : Byte) : List Line := [.busRead reg]

/-- R133. -/
def codeInit (g : Cfg) (r : InitResult) : List Line :=
  [.initOut, .initChannel 0, .initChannel 1] ++
    ((initWrites g).take (initCount r)).map (fun w => .initWrite w.1 w.2) ++ [.initDone r]

/-- R135. -/
def codeIsReady : List Line := [.isReady]

/-- R136. -/
def codeReadInputs (g : Cfg) : List Line := [.busRead g.regInPort]

/-- R140. -/
def codeReadOutputLatch (g : Cfg) : List Line := [.busRead g.regOutLatch]

/-- `RMW(f)` (R137, R138). -/
def codeRmw (f : ByteFn) : List Line := [.rmw f]

/-- `SET_BITS(m) = RMW(v ↦ v | m)` (R137). -/
def codeSetBits (m : Byte) : List Line := codeRmw (.orMask m)

/-- `CLEAR_BITS(m) = RMW(v ↦ v & ~m)` (R137). -/
def codeClearBits (m : Byte) : List Line := codeRmw (.andNotMask m)

/-- `WRITE_OUTPUTS(w) = RMW(v ↦ w)` (R139). -/
def codeWriteOutputs (w : Byte) : List Line := codeRmw (.const w)

/-- R141. -/
def codeIrqEdge : List Line := [.irqGate]

/-! ### Sonar -/

/-- R160, from line 1; the lines after the gate follow from it. -/
def codeMeasure : List Line := [.measureGate]

/-- R160 lines 4 to 17, once the gate has passed. -/
def codeMeasureBody (g : Cfg) : List Line :=
  codeClearBits (mask g.trigBit) ++ [.measureTrigger, .measureStart, .measureTest]

/-! ### Motors -/

/-- `SAFE_SET_CLEAR(set, clear)`: clear first, set second (R184). -/
def codeSafeSetClear (set clear : Byte) : List Line := codeClearBits clear ++ codeSetBits set

/-- What an operation without a result hands its caller: nothing, the value unit. `DRIVE` and
`SAFE_SET_CLEAR` end in an `RMW`, whose pair is not theirs (R183, R184; DESIGN CHOICE, log entry
15, safe). -/
def codeNoResult : List Line := [.give .unit]

/-- `DRIVE(c, target)` (R183). -/
def codeDrive (g : Cfg) (c : Channel) (target : Direction) : List Line :=
  codeSafeSetClear (driveSet g c target) (driveClear g c target)

/-- R180, from the gate. -/
def codeTick : List Line := [.tickGate]

/-- R180, once the gate has passed and `t` is in hand. -/
def codeTickBody (t : Nat) : List Line := [.tickChannel t 0, .tickChannel t 1, .tickEnd t]

/-- R187. -/
def codeSetDirection (c : Channel) (d : Direction) : List Line := [.setDirection c d]

/-- R188. -/
def codeSetPower (c : Channel) (p : Int) : List Line := [.setPower c p]

/-- R189: channel 0, then channel 1. -/
def codeStopAll : List Line := [.setDirection 0 .stopped, .setDirection 1 .stopped]

/-! ### Commands -/

/-- `CMD_POLL` (R226). -/
def codePoll : List Line := [.pollGate]

/-- `CMD_O` once its arguments are converted (R228). -/
def codeO (i : Int) (b : Bool) : List Line :=
  if i = 0 ∨ i = 1 then
    (if b then codeSetBits (mask (outputBit i)) else codeClearBits (mask (outputBit i))) ++
      [.give (.text replyOkay)]
  else [.give (.text errInvalidBit)]

/-- `CMD_RESET_ALL` (R230). -/
def codeResetAll : List Line := codeStopAll ++ [.give (.text replyOkay)]

/-- `CMD_XDOMAIN` (R232). -/
def codeCrossdomain (g : Cfg) : List Line := [.give (.text (xdomain g.listenPort.val))]

/-- `CMD_MD` once its arguments are converted (R234). -/
def codeMd (c : Int) (d : Direction) : List Line :=
  match motorChannel c with
  | some k => codeSetDirection k d ++ [.give (.text replyOkay)]
  | none => [.give (.text errInvalidMotor)]

/-- `CMD_MP` once its arguments are converted (R236). -/
def codeMp (c p : Int) : List Line :=
  match motorChannel c with
  | some k => codeSetPower k p ++ [.give (.text replyOkay)]
  | none => [.give (.text errInvalidMotor)]

/-- R238. -/
def codeUnknown (req : Bytes) : List Line := [.give (.text (errUnknown req))]

/-- The arm of `DISPATCH` a command takes (R220). -/
def codeCommand (g : Cfg) (req : Bytes) : Command → List Line
  | .poll => codePoll
  | .o i b => codeO i b
  | .resetAll => codeResetAll
  | .crossdomain => codeCrossdomain g
  | .md c d => codeMd c d
  | .mp c p => codeMp c p
  | .unknown => codeUnknown req

/-- `DISPATCH(req)` (R220): the arm, or the boundary on a `ParseError`; choosing is no step (DEDUCED,
log entry 17, safe). -/
def codeDispatch (g : Cfg) (req : Bytes) : List Line :=
  match parseCommand req with
  | .ok c => codeCommand g req c
  | .error e => takeParseError req e

/-! ### Codec -/

/-- `SERIAL_EXCHANGE(p)` (R207): the dispatch, then the reply if the text contains `poll`. -/
def codeSerialExchange (g : Cfg) (p : Bytes) : List Line := codeDispatch g p ++ [.serialReply p]

/-- R204. -/
def codeEncodeResponse (p : Bytes) : List Line := [.give (.bytes (responseFrame p))]

/-- R205. -/
def codeEncodeRequest (p : Bytes) : List Line := [.give (.bytes (requestFrame p))]

/-- R206. -/
def codeDecodeResponse (b : Byte) : List Line := [.peerByte b]

end Sys2Proof.Machine
end

