-- ==== Sys2Proof/Machine/Thread.lean ====
section
/-! DEFINITION. One step of an agent (R70), a run of such steps within a turn, and how an operation is
started on an agent. -/

namespace Sys2Proof.Machine

/-- What one step of an agent answers: its position after the step, and the state. -/
abbrev ThreadOutcome := Host.Outcome (Thread × State) Fault Refusal

/-- The agent goes on with `code`, `acc` in hand, its step taken at the state's time. -/
def proceed (code : List Line) (acc : Value) (s : State) : ThreadOutcome :=
  .next (⟨code, acc, s.time⟩, s)

/-- An `RMW`'s atomic step, and its bus write to come when the value changed (R137, R138). -/
def runRmw (f : ByteFn) (rest : List Line) (s : State) : ThreadOutcome :=
  proceed
    (if changed s.out (applyByteFn f s.out) then
      .busWrite s.cfg.regOutPort (applyByteFn f s.out) :: rest else rest)
    (.pair s.out (applyByteFn f s.out)) (s.rmwAtomic f)

/-- `MEASURE` lines 1 to 3 (R161): nothing unless Ready; refused when busy; else Triggering. -/
def runMeasureGate (rest : List Line) (acc : Value) (s : State) : ThreadOutcome :=
  if s.ready then
    if s.busy then .refused .measureWhileBusy
    else proceed (codeMeasureBody s.cfg ++ rest) acc (s.setSonar .triggering)
  else proceed rest acc s

/-- `MEASURE` line 9 (R165): at 60 ms or more the state is TimedOut and no sample is taken. -/
def runMeasureTest (rest : List Line) (acc : Value) (s : State) : ThreadOutcome :=
  if Config.echoTimeout ≤ s.time - s.sonarT0 then
    proceed (.measureEnd :: rest) acc (s.setSonar .timedOut)
  else proceed (.measureSample :: rest) acc s

/-- `MEASURE` lines 10 to 12 (R164, R166): one sample; an edge is Inactive after Active. -/
def runMeasureSample (rest : List Line) (acc : Value) (s : State) : ThreadOutcome :=
  if s.sonarPrev = .active ∧ echoLevel s.cfg (s.busRead s.cfg.regInPort).1 = .inactive then
    proceed (.measureEdge :: rest) acc (s.busRead s.cfg.regInPort).2
  else
    proceed (.measureTest :: rest) acc
      ((s.busRead s.cfg.regInPort).2.setPrev (echoLevel s.cfg (s.busRead s.cfg.regInPort).1))

/-- `MEASURE` lines 13 to 16 (R167 to R169): the distance, and the filter. -/
def runMeasureEdge (rest : List Line) (acc : Value) (s : State) : ThreadOutcome :=
  proceed
    (if distanceMm (s.time - s.sonarT0) ≤ Config.distMax then
      .publish (distanceMm (s.time - s.sonarT0)) ::
        .emit (.distance (distanceMm (s.time - s.sonarT0))) :: .measureEnd :: rest
    else .measureEnd :: rest)
    acc (s.setSonar .measured)

/-- `SERIAL_EXCHANGE`'s sending (R207, R208): the reply framed and appended whole when the text contains
`poll`, else discarded; a reply too long to frame is refused (R204, U5). -/
def runSerialReply (p : Bytes) (rest : List Line) (acc : Value) (s : State) : ThreadOutcome :=
  if answered p then
    if acc.textBytes.length ≤ 65535 then
      proceed rest .unit (s.send (responseFrame acc.textBytes))
    else .refused .responseTooLong
  else proceed rest .unit s

/-- `A_SERIAL` between frames (R200, R201): it takes the byte at the head of `RXQ`, and a delivered
payload is exchanged before the next byte (R210); with `RXQ` empty it has no step. -/
def runSerialByte (th : Thread) (s : State) : ThreadOutcome :=
  match s.rxq with
  | [] => .next (th, s)
  | b :: q =>
    match (s.dec.feed b).2 with
    | some p =>
      proceed (codeSerialExchange s.cfg p) .unit (s.decoded q (s.dec.feed b).1)
    | none => proceed [] .unit (s.decoded q (s.dec.feed b).1)

/-- The step an agent takes at a line, `rest` the lines after it. -/
def runLine (th : Thread) (l : Line) (rest : List Line) (s : State) : ThreadOutcome :=
  match l with
  | .busWrite reg v => proceed rest th.acc (s.busWrite reg v)
  | .initWrite reg v => proceed rest th.acc (s.transact reg v)
  | .busRead reg => proceed rest (.byte (s.busRead reg).1) (s.busRead reg).2
  | .initOut => proceed rest th.acc s.resetOut
  | .initChannel c => proceed rest th.acc (s.setChannel c ChannelRec.reset)
  | .initDone r => proceed rest th.acc (s.finishInit r)
  | .isReady => proceed rest (.bool s.ready) s
  | .rmw f => runRmw f rest s
  | .irqGate => if s.ready then proceed (.irqFlag :: rest) th.acc s else proceed rest th.acc s
  | .irqFlag =>
    proceed (.irqCapture (s.busRead s.cfg.regIntFlag).1 :: rest) th.acc
      (s.busRead s.cfg.regIntFlag).2
  | .irqCapture m =>
    proceed (.emit (.ioChange m (s.busRead s.cfg.regIntCapture).1) :: rest) th.acc
      (s.busRead s.cfg.regIntCapture).2
  | .emit e => proceed rest th.acc (s.emit e)
  | .measureGate => runMeasureGate rest th.acc s
  | .measureTrigger =>
    if th.stamp + s.cfg.tTrig ≤ s.time then runRmw (.orMask (mask s.cfg.trigBit)) rest s
    else .next (th, s)
  | .measureStart => proceed rest th.acc s.startTimer
  | .measureTest => runMeasureTest rest th.acc s
  | .measureSample => runMeasureSample rest th.acc s
  | .measureEdge => runMeasureEdge rest th.acc s
  | .publish d => proceed rest th.acc (s.publish d)
  | .measureEnd => proceed rest th.acc s.sonarIdle
  | .tickGate =>
    if s.ready then proceed (codeTickBody s.tick ++ rest) th.acc s else proceed rest th.acc s
  | .tickChannel t c => proceed (codeDrive s.cfg c ((s.channel c).target t) ++ rest) th.acc s
  | .tickEnd t => proceed rest th.acc (s.setTick (t + 1))
  | .setDirection c d => proceed rest th.acc (s.writeDirection c d)
  | .setPower c p => proceed rest th.acc (s.writePower c p)
  | .pollGate =>
    if s.ready then proceed (.pollInputs :: rest) th.acc s
    else proceed rest (.text errNotConnected) s
  | .pollInputs =>
    proceed (.pollLatch (s.busRead s.cfg.regInPort).1 :: rest) th.acc
      (s.busRead s.cfg.regInPort).2
  | .pollLatch i =>
    proceed (.pollReply i (s.busRead s.cfg.regOutLatch).1 :: rest) th.acc
      (s.busRead s.cfg.regOutLatch).2
  | .pollReply i l => proceed rest (.text (pollReply i l s.dist)) s
  | .give v => proceed rest v s
  | .serialReply p => runSerialReply p rest th.acc s
  | .peerByte b => proceed rest th.acc (s.feedPeer b)
  | .deliver k => proceed rest .unit (s.deliver k th.acc)

/-- One step of agent `a` at position `th` (R70). An idle agent has no step, but that `A_SERIAL` takes
bytes from `RXQ`. A line whose wait is not over leaves everything as it is. -/
def stepThread (a : AgentId) (th : Thread) (s : State) : ThreadOutcome :=
  match th.code with
  | l :: rest => runLine th l rest s
  | [] => if a = .serial then runSerialByte th s else .next (th, s)

/-- At most `n` steps of agent `a`. -/
def runThread (a : AgentId) : Nat → Thread → State → ThreadOutcome
  | 0, th, s => .next (th, s)
  | n + 1, th, s =>
    match stepThread a th s with
    | .next (th', s') => runThread a n th' s'
    | .fault e => .fault e
    | .refused r => .refused r

/-- An agent with nothing to do. -/
def Thread.idle : Thread := { code := [], acc := .unit, stamp := 0 }

/-- An agent's position is kept while it has lines still to run. -/
def State.park (s : State) (a : AgentId) (th : Thread) : State :=
  if th.code = [] then s else { s with threads := Assoc.put s.threads a.key th }

/-- The turn's steps of agent `a` from position `th`, its position kept afterwards. -/
def runTurn (a : AgentId) (th : Thread) (s : State) : Host.Outcome State Fault Refusal :=
  match runThread a s.slice th s with
  | .next (th', s') => .next (s'.park a th')
  | .fault e => .fault e
  | .refused r => .refused r

/-- Agent `a`, idle, starts an operation (R272). -/
def launch (a : AgentId) (code : List Line) (s : State) : Host.Outcome State Fault Refusal :=
  runTurn a ⟨code, .unit, s.time⟩ s

/-- A new `A_CMD[k]` runs `code`, and what it returns goes to caller `k` (R11, R41; DESIGN CHOICE, log
entry 15, safe). -/
def launchCaller (code : List Line) (s : State) : Host.Outcome State Fault Refusal :=
  launch (.cmd s.nextCmd) (code ++ [.deliver s.nextCmd]) s.newCaller

/-- Whether agent `a` is in mid-operation. -/
def State.running (s : State) (a : AgentId) : Bool := (Assoc.get s.threads a.key).isSome

/-- Where agent `a` stands. -/
def State.thread (s : State) (a : AgentId) : Thread := (Assoc.get s.threads a.key).getD Thread.idle

/-- Agent `a` goes on from where it stands with `code` to run after what it is doing: an agent that
runs its operations one after another (R210, R273). -/
def continueWith (a : AgentId) (code : List Line) (s : State) : Host.Outcome State Fault Refusal :=
  runTurn a { s.thread a with code := (s.thread a).code ++ code } (s.takeUp a)

/-- Agent `a` goes on from where it stands. -/
def resume (a : AgentId) (s : State) : Host.Outcome State Fault Refusal := continueWith a [] s

end Sys2Proof.Machine
end

