-- ==== Sys2Proof/Machine/Bus.lean ====
section
/-! DEFINITION. RegisterBus: the meanings of 40_register_bus.md. -/

namespace Sys2Proof.Machine

/-- `BUS_WRITE(reg, v)` (R121). -/
def execBusWrite (reg v : Byte) (s : State) : Host.Outcome State Fault Refusal :=
  launchCaller (codeBusWrite reg v) s

/-- `BUS_READ(reg)` (R122). -/
def execBusRead (reg : Byte) (s : State) : Host.Outcome State Fault Refusal :=
  launchCaller (codeBusRead reg) s

end Sys2Proof.Machine
end

