-- ==== Sys2Proof/Machine/Codec.lean ====
section
/-! DEFINITION. FramedSerialCodec: the meanings of 44_frame_codec.md. -/

namespace Sys2Proof.Machine

/-- `DECODE_BYTE(b)` (R201): the byte joins `RXQ` and `A_SERIAL` takes its turn; with nothing queued and
nothing in progress it is this byte that is decoded (R200, R210; DESIGN CHOICE, log entry 16, safe). -/
def execDecodeByte (b : Byte) (s : State) : Host.Outcome State Fault Refusal :=
  continueWith .serial [] (s.receive b)

/-- `ENCODE_RESPONSE(p)` (R204); more than 65535 bytes are refused (U5). -/
def execEncodeResponse (p : Bytes) (s : State) : Host.Outcome State Fault Refusal :=
  if p.length ≤ 65535 then launchCaller (codeEncodeResponse p) s else .refused .responseTooLong

/-- `ENCODE_REQUEST(p)` (R205); more than 255 bytes cannot be framed. -/
def execEncodeRequest (p : Bytes) (s : State) : Host.Outcome State Fault Refusal :=
  if p.length ≤ 255 then launchCaller (codeEncodeRequest p) s else .refused .requestTooLong

/-- `DECODE_RESPONSE` fed the byte `b` (R206). -/
def execDecodeResponse (b : Byte) (s : State) : Host.Outcome State Fault Refusal :=
  launchCaller (codeDecodeResponse b) s

/-- `SERIAL_EXCHANGE(p)` (R207): run by `A_SERIAL`, after what it is doing (R210). -/
def execSerialExchange (p : Bytes) (s : State) : Host.Outcome State Fault Refusal :=
  continueWith .serial (codeSerialExchange s.cfg p) s

end Sys2Proof.Machine
end

