-- ==== Sys2Proof/Machine/Commands.lean ====
section
/-! DEFINITION. CommandDispatcher: the meanings of 45_commands.md. -/

namespace Sys2Proof.Machine

/-- `DISPATCH(req)` (R220): run by a new `A_CMD[k]` (R221). -/
def execDispatch (req : Bytes) (s : State) : Host.Outcome State Fault Refusal :=
  launchCaller (codeDispatch s.cfg req) s

/-- `poll` (R226). -/
def execPoll (s : State) : Host.Outcome State Fault Refusal := launchCaller codePoll s

/-- `o` (R228). -/
def execO (i : Int) (b : Bool) (s : State) : Host.Outcome State Fault Refusal :=
  launchCaller (codeO i b) s

/-- `reset_all` (R230). -/
def execResetAll (s : State) : Host.Outcome State Fault Refusal := launchCaller codeResetAll s

/-- `crossdomain.xml` (R232). -/
def execCrossdomain (s : State) : Host.Outcome State Fault Refusal :=
  launchCaller (codeCrossdomain s.cfg) s

/-- `md` (R234). -/
def execMd (c : Int) (d : Direction) (s : State) : Host.Outcome State Fault Refusal :=
  launchCaller (codeMd c d) s

/-- `mp` (R236). -/
def execMp (c p : Int) (s : State) : Host.Outcome State Fault Refusal := launchCaller (codeMp c p) s

/-- Anything else (R238). -/
def execUnknown (req : Bytes) (s : State) : Host.Outcome State Fault Refusal :=
  launchCaller (codeUnknown req) s

end Sys2Proof.Machine
end

