-- ==== Sys2Proof/Machine/Expander.lean ====
section
/-! DEFINITION. IoExpanderDriver: the meanings of 41_io_expander.md. -/

namespace Sys2Proof.Machine

/-- `INIT` (R133): run by `A_INIT`; refused unless `DRV` = Uninit and no `init_start` came before
(R131, U6). -/
def execInit (r : InitResult) (s : State) : Host.Outcome State Fault Refusal :=
  if s.drv = .uninit ∧ s.initStarted = false then
    launch .init (codeInit s.cfg r) s.startInit
  else .refused .secondInit

/-- `IS_READY` (R135). -/
def execIsReady (s : State) : Host.Outcome State Fault Refusal := launchCaller codeIsReady s

/-- `READ_INPUTS` (R136). -/
def execReadInputs (s : State) : Host.Outcome State Fault Refusal :=
  launchCaller (codeReadInputs s.cfg) s

/-- `READ_OUTPUT_LATCH` (R140). -/
def execReadOutputLatch (s : State) : Host.Outcome State Fault Refusal :=
  launchCaller (codeReadOutputLatch s.cfg) s

/-- `RMW(f)` (R137, R138). -/
def execRmw (f : ByteFn) (s : State) : Host.Outcome State Fault Refusal := launchCaller (codeRmw f) s

/-- `SET_BITS(m)` (R137, R138). -/
def execSetBits (m : Byte) (s : State) : Host.Outcome State Fault Refusal :=
  launchCaller (codeSetBits m) s

/-- `CLEAR_BITS(m)` (R137, R138). -/
def execClearBits (m : Byte) (s : State) : Host.Outcome State Fault Refusal :=
  launchCaller (codeClearBits m) s

/-- `WRITE_OUTPUTS(mask)` (R139). -/
def execWriteOutputs (m : Byte) (s : State) : Host.Outcome State Fault Refusal :=
  launchCaller (codeWriteOutputs m) s

/-- The debounce has removed an edge closer than 50 ms to the last accepted one (R142). -/
def tooEarly (s : State) : Bool :=
  match s.lastIrq with
  | some t => decide (s.time < t + Config.irqSpacing)
  | none => false

/-- `IRQ_EDGE` (R141): run by `A_IRQ`, which never nests (R273): a handler still running ends first. An
edge the debounce would have removed is refused (R142, U11). -/
def execIrqEdge (s : State) : Host.Outcome State Fault Refusal :=
  if tooEarly s then .refused .irqTooEarly
  else continueWith .irq codeIrqEdge s.acceptEdge

end Sys2Proof.Machine
end

