-- ==== Sys2Proof/Machine/Pwm.lean ====
section
/-! DEFINITION. MotorPwmScheduler: the meanings of 43_motor_pwm.md. -/

namespace Sys2Proof.Machine

/-- `TICK` (R180): run by `A_TICK`; refused while one is running (R301, U2). -/
def execTick (s : State) : Host.Outcome State Fault Refusal :=
  if s.running .tick then .refused .tickOverlap else launch .tick codeTick s

/-- `DRIVE(c, target)` (R183), which has no result to hand over (log entry 15). -/
def execDrive (c : Channel) (target : Direction) (s : State) : Host.Outcome State Fault Refusal :=
  launchCaller (codeDrive s.cfg c target ++ codeNoResult) s

/-- `SAFE_SET_CLEAR(set, clear)` (R184), which has no result to hand over (log entry 15). -/
def execSafeSetClear (set clear : Byte) (s : State) : Host.Outcome State Fault Refusal :=
  launchCaller (codeSafeSetClear set clear ++ codeNoResult) s

/-- `SET_DIRECTION(c, s)` (R187). -/
def execSetDirection (c : Channel) (d : Direction) (s : State) :
    Host.Outcome State Fault Refusal :=
  launchCaller (codeSetDirection c d) s

/-- `SET_POWER(c, p)` (R188). -/
def execSetPower (c : Channel) (p : Int) (s : State) : Host.Outcome State Fault Refusal :=
  launchCaller (codeSetPower c p) s

/-- `STOP_ALL` (R189). -/
def execStopAll (s : State) : Host.Outcome State Fault Refusal := launchCaller codeStopAll s

end Sys2Proof.Machine
end

