-- ==== Sys2Proof/Machine/Sonar.lean ====
section
/-! DEFINITION. PulseRangeSensor: the meaning of 42_sonar.md. -/

namespace Sys2Proof.Machine

/-- `MEASURE` (R160): run by `A_SONAR`; refused while one is outstanding (R161, U1). -/
def execMeasure (s : State) : Host.Outcome State Fault Refusal :=
  if s.running .sonar then .refused .measureWhileBusy else launch .sonar codeMeasure s

end Sys2Proof.Machine
end

