-- ==== Sys2Proof/Machine/Dispatch.lean ====
section
/-! DEFINITION. The meaning of each operation of R10, by constructor. -/

namespace Sys2Proof.Machine

def exec (i : Instr) (s : State) : Host.Outcome State Fault Refusal :=
  match i with
  | .busWrite reg v => Sys2Proof.Machine.execBusWrite reg v s
  | .busRead reg => Sys2Proof.Machine.execBusRead reg s
  | .init r => Sys2Proof.Machine.execInit r s
  | .isReady => Sys2Proof.Machine.execIsReady s
  | .readInputs => Sys2Proof.Machine.execReadInputs s
  | .readOutputLatch => Sys2Proof.Machine.execReadOutputLatch s
  | .rmw f => Sys2Proof.Machine.execRmw f s
  | .setBits m => Sys2Proof.Machine.execSetBits m s
  | .clearBits m => Sys2Proof.Machine.execClearBits m s
  | .writeOutputs m => Sys2Proof.Machine.execWriteOutputs m s
  | .irqEdge => Sys2Proof.Machine.execIrqEdge s
  | .measure => Sys2Proof.Machine.execMeasure s
  | .tick => Sys2Proof.Machine.execTick s
  | .drive c target => Sys2Proof.Machine.execDrive c target s
  | .safeSetClear set clear => Sys2Proof.Machine.execSafeSetClear set clear s
  | .setDirection c d => Sys2Proof.Machine.execSetDirection c d s
  | .setPower c p => Sys2Proof.Machine.execSetPower c p s
  | .stopAll => Sys2Proof.Machine.execStopAll s
  | .decodeByte b => Sys2Proof.Machine.execDecodeByte b s
  | .encodeResponse p => Sys2Proof.Machine.execEncodeResponse p s
  | .encodeRequest p => Sys2Proof.Machine.execEncodeRequest p s
  | .decodeResponse b => Sys2Proof.Machine.execDecodeResponse b s
  | .serialExchange p => Sys2Proof.Machine.execSerialExchange p s
  | .dispatch req => Sys2Proof.Machine.execDispatch req s
  | .poll => Sys2Proof.Machine.execPoll s
  | .o idx b => Sys2Proof.Machine.execO idx b s
  | .resetAll => Sys2Proof.Machine.execResetAll s
  | .crossdomain => Sys2Proof.Machine.execCrossdomain s
  | .md c d => Sys2Proof.Machine.execMd c d s
  | .mp c p => Sys2Proof.Machine.execMp c p s
  | .unknown req => Sys2Proof.Machine.execUnknown req s

end Sys2Proof.Machine
end

