-- ==== Sys2Proof/Machine/Schedule.lean ====
section
/-! DEFINITION. What stands for the fetch (R21): the next turn of the environment's schedule. -/

namespace Sys2Proof.Machine

/-- The state as a turn begins: the turn taken off the schedule, its time and its number of steps in
force. -/
def State.beginTurn (s : State) (t : Turn) (rest : List Turn) : State :=
  { s with turns := rest, time := t.time, slice := t.slice }

/-- Whether a turn would make `now()` go backwards (R39, U12). -/
def State.backwards (s : State) (t : Turn) : Bool := decide (t.time < s.time)

/-- As many steps as any operation takes that does not wait; what `withFetchWord` allows. -/
def fullSlice : Nat := 64

/-- The turns that deliver the words of a table entry at the present time. -/
def State.fetchTurns (s : State) (nbits w : Nat) : List Turn :=
  (tableWords (tableBytes nbits w)).map fun word => ⟨s.time, fullSlice, .start word⟩

end Sys2Proof.Machine
end

