-- ==== Sys2Proof/Machine/Step.lean ====
section
/-! DEFINITION. One step of the machine: one turn of the environment's schedule. -/

namespace Sys2Proof.Machine

/-- One turn (R70): the environment delivers an event, whose operation starts on its agent, or lets an
agent go on; with no turn scheduled nothing happens. Refused: a configuration that is not
well-formed (U7), time going backwards (U12), and a word that is no event. -/
def step (s : State) : Host.Outcome State Fault Refusal :=
  if s.cfg.wf = false then .refused .illFormedConfig
  else
    match s.turns with
    | [] => .next s
    | t :: rest =>
      if s.backwards t then .refused .timeBackwards
      else
        match t.act with
        | .resume a => resume a (s.beginTurn t rest)
        | .start word =>
          match decode s.cfg word with
          | .ok i => exec i (s.beginTurn t rest)
          | .error e => .refused (.undecodable e)

/-- `s` with a word of the opcode table as the event its next step delivers. -/
def State.withFetchWord (s : State) (nbits w : Nat) : State :=
  { s with turns := s.fetchTurns nbits w ++ s.turns }

end Sys2Proof.Machine
end

