-- ==== Sys2Proof/WellFormed.lean ====
section
/-! DEFINITION. Which terms of `Instr` the spec admits: the ranges of operands that the types of
Syntax.lean leave open. -/

namespace Sys2Proof

/-- The operands the spec admits: integer arguments that `parseInt` can give (R101), payload lengths
that the frame formats can carry (R94, R96, R207), and for `unknown` a request that no command
accepts (R238). -/
def Instr.wellFormed : Instr → Bool
  | .busWrite _ _ => true
  | .busRead _ => true
  | .init _ => true
  | .isReady => true
  | .readInputs => true
  | .readOutputLatch => true
  | .rmw _ => true
  | .setBits _ => true
  | .clearBits _ => true
  | .writeOutputs _ => true
  | .irqEdge => true
  | .measure => true
  | .tick => true
  | .drive _ _ => true
  | .safeSetClear _ _ => true
  | .setDirection _ _ => true
  | .setPower _ _ => true
  | .stopAll => true
  | .decodeByte _ => true
  | .encodeResponse p => decide (p.length ≤ 65535)
  | .encodeRequest p => decide (p.length ≤ 255)
  | .decodeResponse _ => true
  | .serialExchange p => decide (p.length ≤ 255)
  | .dispatch _ => true
  | .poll => true
  | .o i _ => decide (inInt32 i)
  | .resetAll => true
  | .crossdomain => true
  | .md c _ => decide (inInt32 c)
  | .mp c p => decide (inInt32 c ∧ inInt32 p)
  | .unknown req => decide (decodeText req = .unknown req)

end Sys2Proof
end

