-- ==== Sys2Proof/Safety.lean ====
section
/-! DEFINITION. What counts as a safe state of a run, in the terms the statements use, and what the
environment owes the block (R295). -/

namespace Sys2Proof.Machine

/-! ### Canonical form -/

/-- The sparse data of the state is in its canonical form: agents in mid-operation by rising key, none
of them idle; the expander's bytes by rising address, none that of an unlisted one. -/
structure State.Canonical (s : State) : Prop where
  threads : Assoc.wf s.threads
  busy : ∀ p ∈ s.threads, p.2.code ≠ []
  cells : s.chip.cells.wf

/-- No agent in mid-operation has a number that the next `A_CMD[k]` or a later one will get (R11). -/
def State.FreshCallers (s : State) : Prop := ∀ p ∈ s.threads, p.1 < (AgentId.cmd s.nextCmd).key

/-! ### Registers -/

/-- A channel holds one of the seven pairs of the duty-cycle table (R24, R186). -/
def ChannelRec.DutyOk (r : ChannelRec) : Prop := (r.onTicks, r.offTicks) ∈ dutyTable

/-- Both channels do (R45). -/
def State.DutyOk (s : State) : Prop := s.ch0.DutyOk ∧ s.ch1.DutyOk

/-- A line gives `DIST`, or a notification, at most 1000 mm (R169). -/
def Line.DistOk : Line → Prop
  | .publish d => d ≤ Config.distMax
  | .emit (.distance d) => d ≤ Config.distMax
  | _ => True

/-- `DIST` is in 0..1000 (R26), and so is every distance about to be published (R169). -/
def State.DistOk (s : State) : Prop :=
  s.dist ≤ Config.distMax ∧ ∀ p ∈ s.threads, ∀ l ∈ p.2.code, l.DistOk

/-- In state Payload fewer bytes are held than wanted; else none are held (R29, R201). -/
def DecRegs.Ok (d : DecRegs) : Prop :=
  match d.phase with
  | .payload => d.buf.length < d.len.toNat
  | _ => d.buf = []

/-- A line of `INIT` that touches the bus or `DRV`. -/
def Line.isInit : Line → Bool
  | .initWrite _ _ => true
  | .initDone _ => true
  | _ => false

/-- No agent has such a line still to run: no `INIT` is in progress (R133). -/
def State.InitQuiet (s : State) : Prop := ∀ p ∈ s.threads, ∀ l ∈ p.2.code, l.isInit = false

/-- A line of `MEASURE` that writes `DIST` or `SONAR.*` (R160). -/
def Line.isSonar : Line → Bool
  | .measureGate => true
  | .measureStart => true
  | .measureTest => true
  | .measureSample => true
  | .measureEdge => true
  | .measureEnd => true
  | .measureTrigger => true
  | .publish _ => true
  | _ => false

/-- Only `A_SONAR` has lines of `MEASURE` to run: `SONAR.*` and the writing of `DIST` are its own
(R173, R278). -/
def State.SonarOwned (s : State) : Prop :=
  ∀ p ∈ s.threads, p.1 ≠ AgentId.sonar.key → ∀ l ∈ p.2.code, l.isSonar = false

/-- The conforming expander's latch: the byte last written to the output port (R34, R63). -/
def State.latch (s : State) : Byte := s.chip.cells.read s.cfg.regOutPort.toNat

/-! ### The motors' pins -/

/-- Of each motor's two output bits at most one is 1 (R45, C2). -/
abbrev Exclusive (g : Cfg) (v : Byte) : Prop :=
  ∀ c : Channel, ¬ (bitOf v (g.fwdBit c) = true ∧ bitOf v (g.backBit c) = true)

/-- A mask that holds no motor bit. -/
abbrev SparesMotors (g : Cfg) (m : Byte) : Prop :=
  ∀ c : Channel, bitOf m (g.fwdBit c) = false ∧ bitOf m (g.backBit c) = false

/-- A byte function that sets no motor bit, judged by its form. -/
def SetsNoMotor (g : Cfg) : ByteFn → Prop
  | .orMask m => SparesMotors g m
  | .andNotMask _ => True
  | .const _ => False
  | .table _ => False

/-- A line, of an agent other than `A_TICK`, that cannot set a motor bit nor write a byte to the output
port in which both bits of a motor are 1. -/
def Line.Gentle (g : Cfg) : Line → Prop
  | .busWrite reg v => reg = g.regOutPort → Exclusive g v
  | .initWrite reg v => reg = g.regOutPort → Exclusive g v
  | .rmw f => SetsNoMotor g f
  | .tickGate => False
  | .tickChannel _ _ => False
  | _ => True

/-- A line between the drivings of a `TICK`. -/
def Line.isTick : Line → Bool
  | .tickGate => true
  | .tickChannel _ _ => true
  | .tickEnd _ => true
  | _ => false

/-- Where `A_TICK` can stand while `OUT` holds `out` (R180, R183, R184): between drivings; before a
driving; after its clear, when the bits it clears are 0 in `OUT`, the clear's bus write perhaps
pending; or after its set, with the set's bus write pending. -/
def TickPosition (g : Cfg) (out : Byte) (code : List Line) : Prop :=
  (∀ l ∈ code, l.isTick = true) ∨
  ∃ (c : Channel) (d : Direction) (rest : List Line), (∀ l ∈ rest, l.isTick = true) ∧
    (code = codeDrive g c d ++ rest ∨
     (out &&& driveClear g c d = 0 ∧
       (code = codeSetBits (driveSet g c d) ++ rest ∨
        ∃ v, Exclusive g v ∧
          code = .busWrite g.regOutPort v :: (codeSetBits (driveSet g c d) ++ rest))) ∨
     ∃ v, Exclusive g v ∧ code = .busWrite g.regOutPort v :: rest)

/-- An operation that no caller outside the block can use to set a motor bit or to write both bits of a
motor to the output port: all but `WRITE_OUTPUTS` (R139, R307), `DRIVE` and `SAFE_SET_CLEAR` beside
the tick's own, and `RMW`, `SET_BITS` and `BUS_WRITE` with operands that would. -/
def GentleInstr (g : Cfg) : Instr → Prop
  | .busWrite reg v => reg = g.regOutPort → Exclusive g v
  | .rmw f => SetsNoMotor g f
  | .setBits m => SparesMotors g m
  | .writeOutputs _ => False
  | .drive _ _ => False
  | .safeSetClear _ _ => False
  | _ => True

/-- A turn that delivers no other operation. -/
def Turn.Gentle (g : Cfg) (t : Turn) : Prop :=
  match t.act with
  | .resume _ => True
  | .start w => ∀ i, decode g w = .ok i → GentleInstr g i

/-- The mutual exclusion of R45 and R191, with what makes it last: `OUT`, and every byte written to the
output port so far, has at most one bit of each motor set; `A_TICK` stands at a place of a tick,
every other agent has gentle lines only, and every event still to come is gentle. -/
structure State.MotorSafe (s : State) : Prop where
  cfg : s.cfg.wf = true
  out : Exclusive s.cfg s.out
  written : ∀ v, Txn.write s.cfg.regOutPort v ∈ s.busTrace → Exclusive s.cfg v
  agents : ∀ p ∈ s.threads,
    if p.1 = AgentId.tick.key then TickPosition s.cfg s.out p.2.code
    else ∀ l ∈ p.2.code, l.Gentle s.cfg
  events : ∀ t ∈ s.turns, t.Gentle s.cfg

/-! ### What the environment owes (R295) -/

/-- The continuation bytes of a UTF-8 sequence. -/
def utf8Rest : Nat → Bytes → Option Bytes
  | 0, bs => some bs
  | _ + 1, [] => none
  | n + 1, b :: bs => if 0x80 ≤ b.toNat ∧ b.toNat ≤ 0xBF then utf8Rest n bs else none

/-- The first character of well-formed UTF-8 text, by its lead byte and the range of its second byte;
what follows it. -/
def utf8Char : Bytes → Option Bytes
  | [] => none
  | a :: bs =>
    if a.toNat ≤ 0x7F then some bs
    else if 0xC2 ≤ a.toNat ∧ a.toNat ≤ 0xDF then utf8Rest 1 bs
    else
      match bs with
      | [] => none
      | b :: _ =>
        if 0xE0 ≤ a.toNat ∧ a.toNat ≤ 0xEF ∧ (a = 0xE0 → 0xA0 ≤ b.toNat) ∧
            (a = 0xED → b.toNat ≤ 0x9F) then utf8Rest 2 bs
        else if 0xF0 ≤ a.toNat ∧ a.toNat ≤ 0xF4 ∧ (a = 0xF0 → 0x90 ≤ b.toNat) ∧
            (a = 0xF4 → b.toNat ≤ 0x8F) then utf8Rest 3 bs
        else none

/-- At most `fuel` characters of well-formed UTF-8 text, and nothing after them. -/
def utf8Chars : Nat → Bytes → Bool
  | _, [] => true
  | 0, _ :: _ => false
  | fuel + 1, b :: bs =>
    match utf8Char (b :: bs) with
    | some rest => utf8Chars fuel rest
    | none => false

/-- Well-formed UTF-8, which request strings and serial payloads are (R203, R295). The machine admits
other byte strings as R203 allows (log entry 6); a claim that needs the premise names this. -/
def wellFormedText (p : Bytes) : Bool := utf8Chars p.length p

/-- The run assumes the conforming expander (R62 to R66). -/
def State.Conforming (s : State) : Prop := s.chip.conforming = true

end Sys2Proof.Machine
end

