-- ==== Sys2Proof/Certificates/Slice0/Obligations.lean ====
section
/-! DEFINITION. The statements about the machine. A state is any state, its configuration any
configuration, its schedule and inputs any schedule and inputs; `s.slice` is how many steps of
R70 the turn allows, and a statement of an operation's whole effect asks for as many as the
operation takes. Every result is given as the whole next state, so what a statement does not
list is unchanged. -/

namespace Sys2Proof.Machine

/-! ### Words the statements use -/

/-- A caller outside the block, numbered as the next `A_CMD[k]`, has called an operation that left the
state `t` and returned the value `v`, no reply string. -/
def State.returned (t : State) (k : Nat) (v : Value) : State :=
  { t with nextCmd := k + 1, results := t.results ++ [(k, v)] }

/-- Request number `k` has been handled, leaving the state `t`, and answered with `reply`. -/
def State.replied (t : State) (k : Nat) (reply : Bytes) : State :=
  { t with nextCmd := k + 1, replies := t.replies ++ [(k, reply)] }

/-- A write transaction when Ready, and nothing otherwise (R120, R121). -/
def State.written (s : State) (reg v : Byte) : State :=
  if s.drv = .ready then
    { s with busTrace := s.busTrace ++ [.write reg v], chip := s.chip.take s.cfg reg v }
  else s

/-- `OUT` changed to `new` and the output port written, or nothing when `new` is what `OUT` holds
(R137, R138). -/
def State.outBecomes (s : State) (new : Byte) : State :=
  if new = s.out then s else ({ s with out := new } : State).written s.cfg.regOutPort new

/-- The output change of `DRIVE(c, target)` run with no other agent between its steps: the bits of the
clear-mask cleared, then those of the set-mask set (R183, R184). -/
def State.driven (s : State) (c : Channel) (target : Direction) : State :=
  (s.outBecomes (s.out &&& ~~~ driveClear s.cfg c target)).outBecomes
    ((s.out &&& ~~~ driveClear s.cfg c target) ||| driveSet s.cfg c target)

/-- Feeding bytes to the inbound decoder one by one: the registers after, and the payloads delivered
(R209). -/
def feedAll (d : DecRegs) : Bytes → DecRegs × List Bytes
  | [] => (d, [])
  | b :: bs =>
    ((feedAll (d.feed b).1 bs).1, (d.feed b).2.toList ++ (feedAll (d.feed b).1 bs).2)

/-- A line of a poll reply about a pin, byte for byte (R108): its kind (`i` or `o`), its index digit, its
level. -/
def rtLine (kind index : Byte) (b : Bool) : Bytes :=
  [kind, 0x2F, index, 0x20] ++
    (if b then [0x74, 0x72, 0x75, 0x65] else [0x66, 0x61, 0x6C, 0x73, 0x65]) ++ [0x0A]

/-- The number a text of decimal digits stands for. -/
def decimalValue (t : Bytes) : Nat := t.foldl (fun n b => n * 10 + (b.toNat - 0x30)) 0

/-- The configuration writes performed by an `INIT` with outcome `r` (R133). -/
def initDone (g : Cfg) (r : InitResult) : List (Byte × Byte) := (initWrites g).take (initCount r)

end Sys2Proof.Machine

open Sys2Proof Sys2Proof.Machine

/-! ### Reset -/

/-- R291: what reset leaves, for every configuration. Of the values R291 calls unspecified, `SONAR.t0`
and `DEC.len` are not claimed; that the expander's registers hold 0x00, its two direction
registers 0xFF, is the model's choice (log entry 23). -/
def Obligations.ResetLeavesTheListedValues : Prop :=
  ∀ g : Cfg,
    (State.resetWith g).drv = .uninit ∧ (State.resetWith g).out = 0x00 ∧
    (State.resetWith g).ch0 = ⟨.stopped, 0, 5⟩ ∧ (State.resetWith g).ch1 = ⟨.stopped, 0, 5⟩ ∧
    (State.resetWith g).tick = 0 ∧ (State.resetWith g).dist = 0 ∧
    (State.resetWith g).sonarState = .idle ∧ (State.resetWith g).sonarPrev = .none ∧
    (State.resetWith g).dec.phase = .hunt ∧ (State.resetWith g).dec.buf = [] ∧
    (State.resetWith g).rxq = [] ∧ (State.resetWith g).serialOut = [] ∧
    (State.resetWith g).busTrace = [] ∧ (State.resetWith g).threads = [] ∧
    ∀ a, (State.resetWith g).chip.cells.read a =
      if a = g.regDirOut.toNat ∨ a = g.regDirIn.toNat then 0xFF else 0x00

/-! ### RegisterBus -/

/-- R121: a write when Ready is one transaction on the trace and into the expander, and otherwise
nothing; a write of `INIT` is the transaction whatever `DRV` is; its bytes are `DEVADDR_W`, `reg`,
`v`. The value unit handed to a numbered caller is the model's choice (log entry 15). -/
def Obligations.BusWriteIsOneGatedTransaction : Prop :=
  ∀ (reg v : Byte) (s : State),
    (2 ≤ s.slice →
      exec (.busWrite reg v) s =
        .next (if s.drv = .ready then
            ({ s with
                busTrace := s.busTrace ++ [.write reg v]
                chip := s.chip.take s.cfg reg v } : State).returned s.nextCmd .unit
          else s.returned s.nextCmd .unit)) ∧
    (∀ (rest : List Line) (x : Value) (t : Rat),
      stepThread .init ⟨.initWrite reg v :: rest, x, t⟩ s =
        .next (⟨rest, x, s.time⟩,
          { s with
            busTrace := s.busTrace ++ [.write reg v]
            chip := s.chip.take s.cfg reg v })) ∧
    (Txn.write reg v).bytesOut s.cfg = [s.cfg.devaddrW, reg, v]

/-- R62: a write to one of the ten registers is what that register then holds, and leaves every other
register as it was; a write to another address changes no register. The ten are those of R61. -/
def Obligations.ExpanderKeepsEveryOtherRegister : Prop :=
  ∀ (h : Chip) (g : Cfg) (reg v : Byte),
    (reg ∈ g.regs → (h.take g reg v).cells.read reg.toNat = v) ∧
    (reg ∉ g.regs → h.take g reg v = h) ∧
    (∀ a, a ≠ reg.toNat → (h.take g reg v).cells.read a = h.cells.read a) ∧
    (h.take g reg v).conforming = h.conforming ∧
    (reg ∈ g.regs ↔ reg = g.regCfg ∨ reg = g.regDirOut ∨ reg = g.regDirIn ∨ reg = g.regPullupIn ∨
      reg = g.regIntenIn ∨ reg = g.regOutPort ∨ reg = g.regOutLatch ∨ reg = g.regInPort ∨
      reg = g.regIntFlag ∨ reg = g.regIntCapture)

/-- R122: a read when Ready is one transaction that returns the expander's byte; otherwise 0x00 and no
transaction. Its outgoing bytes are `DEVADDR_R`, `reg`. That the byte is handed to a numbered
caller is the model's choice (log entry 15). -/
def Obligations.BusReadIsOneGatedTransaction : Prop :=
  ∀ (reg : Byte) (s : State), 2 ≤ s.slice →
    exec (.busRead reg) s =
      .next (if s.drv = .ready then
          ({ (s.expanderByte reg).2 with
              busTrace := s.busTrace ++ [.read reg (s.expanderByte reg).1] } : State).returned
            s.nextCmd (.byte (s.expanderByte reg).1)
        else s.returned s.nextCmd (.byte 0x00)) ∧
    ∀ b, (Txn.read reg b).bytesOut s.cfg = [s.cfg.devaddrR, reg]

/-- R66, R64, R65: the byte a read returns is the environment's: the next of its script, or a free byte
when the script is empty. On the conforming expander this is so of the input port and the two
status registers, and of an address outside the ten; when it is not assumed, of every register.
Any other register of the conforming expander gives the byte it holds and draws none (R62). -/
def Obligations.ReadsDrawFromTheEnvironment : Prop :=
  ∀ (s : State) (reg : Byte),
    (s.chip.conforming = false ∨
      (reg ≠ s.cfg.regOutLatch ∧
        (reg = s.cfg.regInPort ∨ reg = s.cfg.regIntFlag ∨ reg = s.cfg.regIntCapture)) ∨
      reg ∉ s.cfg.regs →
      (∀ b bs, s.busIn = b :: bs → s.expanderByte reg = (b, { s with busIn := bs })) ∧
      (s.busIn = [] →
        s.expanderByte reg = (Config.freeByte s.draws, { s with draws := s.draws + 1 }))) ∧
    (s.chip.conforming = true → reg ∈ s.cfg.regs → reg ≠ s.cfg.regOutLatch →
      reg ≠ s.cfg.regInPort → reg ≠ s.cfg.regIntFlag → reg ≠ s.cfg.regIntCapture →
      s.expanderByte reg = (s.chip.cells.read reg.toNat, s))

/-- R63: on the conforming expander a read of `REG_OUT_LATCH` returns the byte most recently written to
`REG_OUT_PORT`, which no later write to another register changes. -/
def Obligations.LatchReadReturnsLastPortWrite : Prop :=
  ∀ (s : State) (v : Byte) (ws : List (Byte × Byte)),
    s.cfg.wf = true → s.chip.conforming = true → (∀ w ∈ ws, w.1 ≠ s.cfg.regOutPort) →
    (ws.foldl (fun t w => t.transact w.1 w.2) (s.transact s.cfg.regOutPort v)).expanderByte
        s.cfg.regOutLatch =
      (v, ws.foldl (fun t w => t.transact w.1 w.2) (s.transact s.cfg.regOutPort v))

/-! ### IoExpanderDriver -/

/-- R133: a successful `INIT` from Uninit resets `OUT` and the channels, performs the six configuration
writes in order whatever the gate, and leaves `DRV` Ready. -/
def Obligations.InitSuccessConfiguresAndBecomesReady : Prop :=
  ∀ s : State, s.drv = .uninit → s.initStarted = false → 10 ≤ s.slice →
    exec (.init .ok) s = .next { s with
      initStarted := true
      drv := .ready
      out := 0x00
      ch0 := ⟨.stopped, 0, 5⟩
      ch1 := ⟨.stopped, 0, 5⟩
      busTrace := s.busTrace ++
        [.write s.cfg.regCfg s.cfg.valCfgAddrmode, .write s.cfg.regOutPort 0x00,
         .write s.cfg.regDirOut s.cfg.valDirAllOut, .write s.cfg.regDirIn s.cfg.valDirAllIn,
         .write s.cfg.regPullupIn s.cfg.valPullupAll, .write s.cfg.regIntenIn s.cfg.valIntenNone]
      chip := (initWrites s.cfg).foldl (fun h w => h.take s.cfg w.1 w.2) s.chip }

/-- R134: an `INIT` that fails after `k` writes has those `k` on the trace and no more, and leaves `DRV`
Unavailable, `OUT` and the channels at their reset values. -/
def Obligations.InitFailureStopsAfterItsWrites : Prop :=
  ∀ (s : State) (k : Fin 6), s.drv = .uninit → s.initStarted = false → 10 ≤ s.slice →
    exec (.init (.fail k)) s = .next { s with
      initStarted := true
      drv := .unavailable
      out := 0x00
      ch0 := ⟨.stopped, 0, 5⟩
      ch1 := ⟨.stopped, 0, 5⟩
      busTrace := s.busTrace ++
        ((initWrites s.cfg).take k.val).map (fun w => Txn.write w.1 w.2)
      chip := ((initWrites s.cfg).take k.val).foldl (fun h w => h.take s.cfg w.1 w.2) s.chip }

/-- R135, R136, R140: `IS_READY` returns whether `DRV` = Ready with no transaction; `READ_INPUTS` and
`READ_OUTPUT_LATCH` are one gated read of their register each, and 0x00 without a transaction
unless Ready. That the value is handed to a numbered caller is the model's choice (log entry 15). -/
def Obligations.StatusAndPortReadsReturnTheirValue : Prop :=
  ∀ s : State, 2 ≤ s.slice →
    exec .isReady s = .next (s.returned s.nextCmd (.bool (decide (s.drv = .ready)))) ∧
    (s.drv = .ready →
      exec .readInputs s = .next
        (({ (s.expanderByte s.cfg.regInPort).2 with
            busTrace := s.busTrace ++
              [.read s.cfg.regInPort (s.expanderByte s.cfg.regInPort).1] } : State).returned
          s.nextCmd (.byte (s.expanderByte s.cfg.regInPort).1)) ∧
      exec .readOutputLatch s = .next
        (({ (s.expanderByte s.cfg.regOutLatch).2 with
            busTrace := s.busTrace ++
              [.read s.cfg.regOutLatch (s.expanderByte s.cfg.regOutLatch).1] } : State).returned
          s.nextCmd (.byte (s.expanderByte s.cfg.regOutLatch).1))) ∧
    (s.drv ≠ .ready →
      exec .readInputs s = .next (s.returned s.nextCmd (.byte 0x00)) ∧
      exec .readOutputLatch s = .next (s.returned s.nextCmd (.byte 0x00)))

/-- R137, R138: `RMW(f)` puts `f(OUT)` in `OUT`, writes it to the output port only if it changed (and
the driver is Ready), and returns the old and the new value. The operand `f` is any function from
bytes to bytes: one of three forms, or its table (log entry 18), and every function has an
operand. That the pair is handed to a numbered caller is the model's choice (log entry 15). -/
def Obligations.RmwWritesOnlyAChange : Prop :=
  (∀ (f : ByteFn) (s : State), 3 ≤ s.slice →
    exec (.rmw f) s = .next
      ((s.outBecomes (applyByteFn f s.out)).returned s.nextCmd
        (.pair s.out (applyByteFn f s.out)))) ∧
  (∀ m v : Byte, applyByteFn (.orMask m) v = v ||| m ∧
    applyByteFn (.andNotMask m) v = v &&& ~~~ m ∧ applyByteFn (.const m) v = m) ∧
  (∀ (t : Vector Byte 256) (v : Byte), applyByteFn (.table t) v = t[v.toNat]'v.isLt) ∧
  ∀ f : Byte → Byte, ∃ c, ∀ v, applyByteFn c v = f v

/-- R137, R139: `SET_BITS`, `CLEAR_BITS` and `WRITE_OUTPUTS` are the `RMW` of their function. That the
pair is handed to a numbered caller, of `WRITE_OUTPUTS` too, is the model's choice (log entry
15). -/
def Obligations.OutputOperationsAreRmws : Prop :=
  ∀ (m : Byte) (s : State), 3 ≤ s.slice →
    exec (.setBits m) s = .next
      ((s.outBecomes (s.out ||| m)).returned s.nextCmd (.pair s.out (s.out ||| m))) ∧
    exec (.clearBits m) s = .next
      ((s.outBecomes (s.out &&& ~~~ m)).returned s.nextCmd (.pair s.out (s.out &&& ~~~ m))) ∧
    exec (.writeOutputs m) s = .next
      ((s.outBecomes m).returned s.nextCmd (.pair s.out m))

/-- R72, R73: with one step allowed, an `RMW` that changes `OUT` has done its atomic step, and no other
step; its bus write, of the value computed in that step, is pending as a step of its own. That it
runs as a newly numbered caller, the handing over of its pair pending too, is the model's choice
(log entry 15). -/
def Obligations.RmwBusWriteIsASeparateStep : Prop :=
  ∀ (f : ByteFn) (s : State), s.slice = 1 → applyByteFn f s.out ≠ s.out →
    exec (.rmw f) s = .next { s with
      out := applyByteFn f s.out
      nextCmd := s.nextCmd + 1
      threads := Assoc.put s.threads (AgentId.cmd s.nextCmd).key
        ⟨[.busWrite s.cfg.regOutPort (applyByteFn f s.out), .deliver s.nextCmd],
          .pair s.out (applyByteFn f s.out), s.time⟩ }

/-- R73, R303: any two different agents with bus writes of the output port pending, `A_TICK` and a caller
for example, can perform them in either order; `OUT` is the same afterwards and the conforming
expander's latch holds the byte written last, so in one of the two orders it holds the older
value. -/
def Obligations.PendingWritesLandInEitherOrder : Prop :=
  ∀ (s : State) (j k : AgentId) (vj vk : Byte) (cj ck : List Line) (aj ak : Value) (tj tk : Rat),
    s.drv = .ready → s.slice = 1 → j ≠ k →
    Assoc.get s.threads j.key = some ⟨.busWrite s.cfg.regOutPort vj :: cj, aj, tj⟩ →
    Assoc.get s.threads k.key = some ⟨.busWrite s.cfg.regOutPort vk :: ck, ak, tk⟩ →
    ∃ s1 s2, resume j s = .next s1 ∧ resume k s1 = .next s2 ∧
      s2.out = s.out ∧ s2.latch = vk ∧
      s2.busTrace =
        s.busTrace ++ [.write s.cfg.regOutPort vj, .write s.cfg.regOutPort vk]

/-- R82(c): with no other agent between an `RMW`'s steps, a Ready driver and the conforming expander, a
latch that agrees with `OUT` agrees with it afterwards. -/
def Obligations.LatchFollowsShadowOfOneAgent : Prop :=
  ∀ (f : ByteFn) (s t : State), 3 ≤ s.slice → s.drv = .ready → s.cfg.wf = true →
    s.latch = s.out → exec (.rmw f) s = .next t → t.latch = t.out

/-- R141, R142: an edge is accepted if it is the first, or 50 ms or more after the last accepted one. An
accepted edge, with `A_IRQ` idle, reads the two status registers in order and emits one event of
what they gave; when the driver is not Ready it does nothing but be accepted. That the time of
the last accepted edge is kept is log entry 9. -/
def Obligations.IrqEdgeReportsTheStatusRegisters : Prop :=
  ∀ s : State, (s.lastIrq = none ∨ ∃ t, s.lastIrq = some t ∧ t + 50 ≤ s.time) →
    s.running .irq = false → 4 ≤ s.slice →
    (s.drv = .ready →
      exec .irqEdge s = .next
        ((((({ s with lastIrq := some s.time } : State).busRead s.cfg.regIntFlag).2.busRead
            s.cfg.regIntCapture).2).emit
          (.ioChange (({ s with lastIrq := some s.time } : State).busRead s.cfg.regIntFlag).1
            ((({ s with lastIrq := some s.time } : State).busRead s.cfg.regIntFlag).2.busRead
              s.cfg.regIntCapture).1))) ∧
    (s.drv ≠ .ready → exec .irqEdge s = .next { s with lastIrq := some s.time })

/-! ### Events -/

/-- U1, U2, U6, U11: the events the spec's environment does not deliver are refused: a second
`init_start` (R131), an interrupt edge less than 50 ms after the last accepted one (R142), a
`measure` while a measurement is outstanding (R161), a `tick` while a tick is running (R301). The
rules name the measurement by `SONAR.state` not Idle: that a `measure` or `tick` is refused also
before the first step of the earlier one, whenever its agent is in mid-operation, is log entry
19, and that the time of the last accepted edge is kept is log entry 9. -/
def Obligations.ForbiddenEventsAreRefused : Prop :=
  ∀ (s : State) (r : InitResult) (t : Rat),
    (s.drv ≠ .uninit ∨ s.initStarted = true → exec (.init r) s = .refused .secondInit) ∧
    (s.lastIrq = some t → s.time < t + 50 → exec .irqEdge s = .refused .irqTooEarly) ∧
    (s.running .sonar = true → exec .measure s = .refused .measureWhileBusy) ∧
    (s.drv = .ready → s.sonarState ≠ .idle → 1 ≤ s.slice →
      exec .measure s = .refused .measureWhileBusy) ∧
    (s.running .tick = true → exec .tick s = .refused .tickOverlap)

/-- R161(a), R180: a `measure` or `tick` event when the driver is not Ready changes nothing, `TICK`
included. -/
def Obligations.PeriodicEventsDoNothingUnlessReady : Prop :=
  ∀ s : State, s.drv ≠ .ready → 1 ≤ s.slice →
    (s.running .sonar = false → exec .measure s = .next s) ∧
    (s.running .tick = false → exec .tick s = .next s)

/-! ### PulseRangeSensor -/

/-- R160 lines 1 to 5, R162, R163: a `measure` event when Ready and Idle enters Triggering, clears the
trigger bit (writing only a change), and waits: within the same turn, at the same time, the wait
`T_TRIG` is not over. -/
def Obligations.MeasureClearsTheTriggerAndWaits : Prop :=
  ∀ s : State, s.drv = .ready → s.sonarState = .idle → s.running .sonar = false →
    0 < s.cfg.tTrig → 3 ≤ s.slice →
    exec .measure s = .next
      { ({ s with sonarState := .triggering } : State).outBecomes
          (s.out &&& ~~~ mask s.cfg.trigBit) with
        threads := Assoc.put s.threads AgentId.sonar.key
          ⟨[.measureTrigger, .measureStart, .measureTest],
            .pair s.out (s.out &&& ~~~ mask s.cfg.trigBit), s.time⟩ }

/-- R163, R164: before `T_TRIG` has passed since its last step `A_SONAR` has no step; once it has, it
sets the trigger bit (writing only a change), then takes `SONAR.t0` and enters Waiting. -/
def Obligations.TriggerIsSetAfterTheDelay : Prop :=
  ∀ (s : State) (rest : List Line) (v : Value) (t : Rat) (n : Nat),
    (s.time < t + s.cfg.tTrig →
      runThread .sonar n ⟨.measureTrigger :: .measureStart :: rest, v, t⟩ s =
        .next (⟨.measureTrigger :: .measureStart :: rest, v, t⟩, s)) ∧
    (t + s.cfg.tTrig ≤ s.time →
      runThread .sonar
          (if s.out ||| mask s.cfg.trigBit = s.out then 2 else 3)
          ⟨.measureTrigger :: .measureStart :: rest, v, t⟩ s =
        .next (⟨rest, .pair s.out (s.out ||| mask s.cfg.trigBit), s.time⟩,
          { s.outBecomes (s.out ||| mask s.cfg.trigBit) with
            sonarT0 := s.time
            sonarPrev := .none
            sonarState := .waiting }))

/-- R165, R170: at 60 ms or more before a sample the measurement times out: no sample is taken, nothing
is emitted, `DIST` is as it was, and the state goes through TimedOut to Idle. -/
def Obligations.EchoTimeoutEndsSilently : Prop :=
  ∀ (s : State) (v : Value) (t : Rat), 60 ≤ s.time - s.sonarT0 →
    stepThread .sonar ⟨[.measureTest], v, t⟩ s =
      .next (⟨[.measureEnd], v, s.time⟩, { s with sonarState := .timedOut }) ∧
    runThread .sonar 2 ⟨[.measureTest], v, t⟩ s =
      .next (⟨[], v, s.time⟩, { s with sonarState := .idle, sonarPrev := .none })

/-- R164, R166: below 60 ms one sample of the input port is taken; if it is not Inactive after Active,
its level is kept and the loop goes on. -/
def Obligations.SampleWithoutEdgeIsRemembered : Prop :=
  ∀ (s : State) (v : Value) (t : Rat), s.time - s.sonarT0 < 60 →
    ¬ (s.sonarPrev = .active ∧
        bitOf (s.busRead s.cfg.regInPort).1 s.cfg.echoBit = false) →
    runThread .sonar 2 ⟨[.measureTest], v, t⟩ s =
      .next (⟨[.measureTest], v, s.time⟩,
        { (s.busRead s.cfg.regInPort).2 with
          sonarPrev :=
            if bitOf (s.busRead s.cfg.regInPort).1 s.cfg.echoBit = true then .active
            else .inactive })

/-- R166 to R170: the first Inactive sample after an Active one ends the measurement; the distance of
the elapsed time is published and notified if at most 1000 mm, else discarded; the state returns
to Idle and the trigger bit is not touched. -/
def Obligations.FallingEdgePublishesTheDistance : Prop :=
  ∀ (s : State) (v : Value) (t : Rat), s.time - s.sonarT0 < 60 → s.sonarPrev = .active →
    bitOf (s.busRead s.cfg.regInPort).1 s.cfg.echoBit = false →
    runThread .sonar 6 ⟨[.measureTest], v, t⟩ s =
      .next (⟨[], v, s.time⟩,
        if distanceMm (s.time - s.sonarT0) ≤ 1000 then
          { (s.busRead s.cfg.regInPort).2 with
            sonarState := .idle
            sonarPrev := .none
            dist := distanceMm (s.time - s.sonarT0)
            events := s.events ++ [.distance (distanceMm (s.time - s.sonarT0))] }
        else
          { (s.busRead s.cfg.regInPort).2 with
            sonarState := .idle
            sonarPrev := .none })

/-- R160: a whole measurement, `A_SONAR` let go on at three later times. The first, at least `T_TRIG`
after the event, sets the trigger and starts the timer; the second takes an Active sample, the
third an Inactive one, and a distance of at most 1000 mm is published. Nothing of the measurement
is left over. -/
def Obligations.MeasurementRunsToItsEnd : Prop :=
  ∀ (s : State) (b1 b2 : Byte) (bs : Bytes) (t1 t2 t3 : Rat),
    s.drv = .ready → s.sonarState = .idle → s.running .sonar = false → 0 < s.cfg.tTrig →
    3 ≤ s.slice → s.chip.conforming = false → s.busIn = b1 :: b2 :: bs →
    bitOf b1 s.cfg.echoBit = true → bitOf b2 s.cfg.echoBit = false →
    s.time + s.cfg.tTrig ≤ t1 → t1 ≤ t2 → t2 ≤ t3 → t3 - t1 < 60 →
    distanceMm (t3 - t1) ≤ 1000 →
    ∃ s1 s2 s3 s4,
      exec .measure s = .next s1 ∧
      resume .sonar { s1 with time := t1, slice := 3 } = .next s2 ∧
      resume .sonar { s2 with time := t2, slice := 2 } = .next s3 ∧
      resume .sonar { s3 with time := t3, slice := 6 } = .next s4 ∧
      s4.dist = distanceMm (t3 - t1) ∧
      s4.events = s.events ++ [.distance (distanceMm (t3 - t1))] ∧
      s4.sonarState = .idle ∧ s4.sonarPrev = .none ∧ s4.sonarT0 = t1 ∧
      s4.threads = s.threads ∧ s4.busIn = bs ∧
      s4.out = (s.out &&& ~~~ mask s.cfg.trigBit) ||| mask s.cfg.trigBit ∧
      s4.tick = s.tick ∧ s4.ch0 = s.ch0 ∧ s4.ch1 = s.ch1 ∧ s4.drv = s.drv

/-- R167: with the elapsed time a whole number `u` of microseconds the distance is `round(17u/100)`, a
tie going up. -/
def Obligations.DistanceOfMicroseconds : Prop :=
  ∀ u : Nat, distanceMm ((u : Rat) / 1000) = (17 * u + 50) / 100

/-- R168: `round(q)` is the integer `n` with `n - 1/2 ≤ q < n + 1/2`. -/
def Obligations.RoundIsNearestTiesUp : Prop :=
  ∀ (q : Rat) (n : Int), 0 ≤ q →
    (roundHalfUp q = n ↔ (n : Rat) - 1 / 2 ≤ q ∧ q < (n : Rat) + 1 / 2)

/-! ### MotorPwmScheduler -/

/-- R180 to R183: a tick when Ready drives channel 0 and then channel 1, each to Stopped in the off
ticks of its phase and else to its logical direction, both by the same counter value, and then
counts. -/
def Obligations.TickDrivesBothChannels : Prop :=
  ∀ s : State, s.drv = .ready → s.running .tick = false → 12 ≤ s.slice →
    exec .tick s = .next
      { (s.driven 0
            (if s.tick % (s.ch0.onTicks.toNat + s.ch0.offTicks.toNat) < s.ch0.offTicks.toNat then
              .stopped else s.ch0.state)).driven 1
            (if s.tick % (s.ch1.onTicks.toNat + s.ch1.offTicks.toNat) < s.ch1.offTicks.toNat then
              .stopped else s.ch1.state) with
        tick := s.tick + 1 }

/-- R183: what a driving leaves in `OUT`, under a well-formed configuration: the channel's two bits as
the drive table's last column, every other bit as it was. -/
def Obligations.DriveSetsThePinPair : Prop :=
  ∀ (s : State) (c : Channel) (d : Direction), s.cfg.wf = true →
    bitOf (s.driven c d).out (s.cfg.fwdBit c) = decide (d = .forward) ∧
    bitOf (s.driven c d).out (s.cfg.backBit c) = decide (d = .reverse) ∧
    ∀ i, i ≠ s.cfg.fwdBit c → i ≠ s.cfg.backBit c →
      bitOf (s.driven c d).out i = bitOf s.out i

/-- R184: `SAFE_SET_CLEAR(set, clear)` clears first and sets second, each writing only a change; and
`DRIVE(c, target)` is that with the masks of R183's table. Neither rule gives a result; the unit an
outside caller is handed is the model's choice (log entry 15). -/
def Obligations.SafeSetClearClearsBeforeItSets : Prop :=
  ∀ (s : State) (set clear : Byte) (c : Channel) (d : Direction), 6 ≤ s.slice →
    exec (.safeSetClear set clear) s = .next
      (((s.outBecomes (s.out &&& ~~~ clear)).outBecomes ((s.out &&& ~~~ clear) ||| set)).returned
        s.nextCmd .unit) ∧
    exec (.drive c d) s = .next ((s.driven c d).returned s.nextCmd .unit)

/-- R187, R188, R189: the setters change the channel records only: the direction alone; the duty pair
alone, from the table at the clamped power; both directions to Stopped. The unit a numbered caller
is handed is the model's choice (log entry 15). -/
def Obligations.SettersChangeTheChannelOnly : Prop :=
  ∀ (s : State) (d : Direction) (p : Int), 3 ≤ s.slice →
    exec (.setDirection 0 d) s =
      .next (({ s with ch0 := { s.ch0 with state := d } } : State).returned s.nextCmd .unit) ∧
    exec (.setDirection 1 d) s =
      .next (({ s with ch1 := { s.ch1 with state := d } } : State).returned s.nextCmd .unit) ∧
    exec (.setPower 0 p) s =
      .next (({ s with ch0 := ⟨s.ch0.state, (dutyPair p).1, (dutyPair p).2⟩ } : State).returned
        s.nextCmd .unit) ∧
    exec (.setPower 1 p) s =
      .next (({ s with ch1 := ⟨s.ch1.state, (dutyPair p).1, (dutyPair p).2⟩ } : State).returned
        s.nextCmd .unit) ∧
    exec .stopAll s =
      .next (({ s with
          ch0 := { s.ch0 with state := .stopped }
          ch1 := { s.ch1 with state := .stopped } } : State).returned s.nextCmd .unit)

/-- R185, R186: a power is clamped to 0..6, and its duty pair is the table's there; so any two powers
with one clamp set one pair, as -5 and 0 do, and 99 and 6. -/
def Obligations.PowerIsClampedIntoTheTable : Prop :=
  ∀ p : Int,
    (p ≤ 0 → clampPower p = 0) ∧ (0 ≤ p → p ≤ 6 → (clampPower p : Int) = p) ∧
    (6 ≤ p → clampPower p = 6) ∧
    (∀ (c : Channel) (s : State), 3 ≤ s.slice →
      exec (.mp c.val (-5)) s = exec (.mp c.val 0) s ∧
      exec (.mp c.val 99) s = exec (.mp c.val 6) s) ∧
    (p ≤ 0 → dutyPair p = (0, 5)) ∧ (p = 1 → dutyPair p = (1, 3)) ∧
    (p = 2 → dutyPair p = (1, 2)) ∧ (p = 3 → dutyPair p = (1, 1)) ∧
    (p = 4 → dutyPair p = (2, 1)) ∧ (p = 5 → dutyPair p = (3, 1)) ∧
    (6 ≤ p → dutyPair p = (5, 0))

/-- R182, R186: over any period of a power's pair the channel is driven to its direction in exactly
`onTicks` ticks, which come after the `offTicks` ticks of Stopped. -/
def Obligations.DutyPatternIsOffThenOn : Prop :=
  ∀ (p : Int) (d : Direction) (q : Nat) (k : Nat),
    k < (dutyPair p).1.toNat + (dutyPair p).2.toNat →
    (⟨d, (dutyPair p).1, (dutyPair p).2⟩ : ChannelRec).target
        (q * ((dutyPair p).1.toNat + (dutyPair p).2.toNat) + k) =
      if k < (dutyPair p).2.toNat then .stopped else d

/-- R192: with channel 0 at Forward and full power, every tick ends with its forward bit set and its
back bit clear; and a tick that finds them so leaves them so after every number `n` of its steps,
channel 1's driving included, the driving of channel 0 changing and writing nothing. -/
def Obligations.FullPowerKeepsTheForwardBit : Prop :=
  ∀ s : State, s.cfg.wf = true → s.drv = .ready → s.running .tick = false → 12 ≤ s.slice →
    s.ch0 = ⟨.forward, 5, 0⟩ →
    (∃ t, exec .tick s = .next t ∧ bitOf t.out s.cfg.fwdBit0 = true ∧
      bitOf t.out s.cfg.backBit0 = false) ∧
    (bitOf s.out s.cfg.fwdBit0 = true → bitOf s.out s.cfg.backBit0 = false →
      s.driven 0 .forward = s ∧
      ∀ n, ∃ th u, runThread .tick n ⟨codeTick, .unit, s.time⟩ s = .next (th, u) ∧
        bitOf u.out s.cfg.fwdBit0 = true ∧ bitOf u.out s.cfg.backBit0 = false)

/-! ### FramedSerialCodec -/

/-- R201: a byte that delivers no payload, `A_SERIAL` idle and nothing queued, changes `DEC.*` only: in
Hunt 0xAA leads to Len and any other byte is discarded; in Len a length not 0 leads to Payload; in
Payload the byte is appended while more are wanted. -/
def Obligations.DecodeByteWithoutDelivery : Prop :=
  ∀ (b : Byte) (s : State), s.running .serial = false → s.rxq = [] → 1 ≤ s.slice →
    (s.dec.phase = .hunt → b = 0xAA →
      exec (.decodeByte b) s = .next { s with dec := { s.dec with phase := .len } }) ∧
    (s.dec.phase = .hunt → b ≠ 0xAA → exec (.decodeByte b) s = .next s) ∧
    (s.dec.phase = .len → b ≠ 0 →
      exec (.decodeByte b) s = .next { s with dec := ⟨.payload, b, []⟩ }) ∧
    (s.dec.phase = .payload → s.dec.buf.length + 1 ≠ s.dec.len.toNat →
      exec (.decodeByte b) s =
        .next { s with dec := { s.dec with buf := s.dec.buf ++ [b] } })

/-- R201, R207, R208: the byte that completes a payload (the length byte 0 completes the empty one)
puts the decoder back in Hunt and has the payload exchanged before the next byte: the byte's turn
is one step for the byte and then the turn of the exchange, which ends. For example a `poll` when
the driver is not Ready is answered, framed, with `ERR_NOT_CONNECTED`, and a text that is no command
with `ERR_UNKNOWN` if it contains `poll` and not at all otherwise. -/
def Obligations.CompletedFrameIsExchanged : Prop :=
  ∀ (b : Byte) (s : State), s.running .serial = false → s.rxq = [] →
    (s.dec.phase = .len → b = 0 → ∀ n, 6 ≤ n → s.dist ≤ 1000 →
      ∃ t, exec (.serialExchange [])
          { s with dec := ⟨.hunt, 0, []⟩, slice := n } = .next t ∧
        exec (.decodeByte b) { s with slice := n + 1 } = .next { t with slice := n + 1 }) ∧
    (s.dec.phase = .payload → s.dec.buf.length + 1 = s.dec.len.toNat →
      (∀ n, 6 ≤ n → s.dist ≤ 1000 →
        ∃ t, exec (.serialExchange (s.dec.buf ++ [b]))
            { s with dec := ⟨.hunt, s.dec.len, []⟩, slice := n } = .next t ∧
          exec (.decodeByte b) { s with slice := n + 1 } = .next { t with slice := n + 1 }) ∧
      (3 ≤ s.slice → parseCommand (s.dec.buf ++ [b]) = .ok .poll →
        answered (s.dec.buf ++ [b]) = true → s.drv ≠ .ready →
        exec (.decodeByte b) s = .next { s with
          dec := { s.dec with phase := .hunt, buf := [] }
          serialOut := s.serialOut ++ responseFrame errNotConnected }) ∧
      (3 ≤ s.slice → decodeText (s.dec.buf ++ [b]) = .unknown (s.dec.buf ++ [b]) →
        exec (.decodeByte b) s = .next { s with
          dec := { s.dec with phase := .hunt, buf := [] }
          serialOut :=
            if answered (s.dec.buf ++ [b]) = true then
              s.serialOut ++ responseFrame (errUnknown (s.dec.buf ++ [b]))
            else s.serialOut }))

/-- R209, R202: from Hunt, the frame of any payload of 0..255 bytes, garbage free of 0xAA before it,
delivers exactly that payload and ends in Hunt; and the frame of any payload of 0..65535 bytes
fed to the peer's decoder does the same. -/
def Obligations.FramesRoundTrip : Prop :=
  (∀ (d : DecRegs) (garbage p : Bytes), d.phase = .hunt → d.buf = [] → 0xAA ∉ garbage →
    p.length ≤ 255 →
    (feedAll d (garbage ++ requestFrame p)).2 = [p] ∧
    (feedAll d (garbage ++ requestFrame p)).1.phase = .hunt ∧
    (feedAll d (garbage ++ requestFrame p)).1.buf = []) ∧
  (∀ (d : PeerRegs) (p : Bytes), d.phase = .hunt → p.length ≤ 65535 →
    ((responseFrame p).foldl PeerRegs.feed d).delivered = d.delivered ++ [p] ∧
    ((responseFrame p).foldl PeerRegs.feed d).phase = .hunt)

/-- R200, R210: a byte that arrives while `A_SERIAL` takes no step waits at the end of `RXQ`; one that
arrives in mid-exchange waits there while `A_SERIAL` runs its next line; and, in a turn of any
number of steps that leaves `A_SERIAL` in mid-exchange, all else is as if the byte had not
arrived. `A_SERIAL`, idle, takes the byte at the head of `RXQ` and not the one that has just
arrived. -/
def Obligations.SerialBytesAreTakenInOrder : Prop :=
  ∀ (b c : Byte) (q : Bytes) (s : State),
    (s.Canonical → s.slice = 0 →
      exec (.decodeByte b) s = .next { s with rxq := s.rxq ++ [b] }) ∧
    (s.running .serial = false → s.slice = 1 → s.rxq = c :: q → (s.dec.feed c).2 = none →
      exec (.decodeByte b) s = .next { s with rxq := q ++ [b], dec := (s.dec.feed c).1 }) ∧
    (∀ (l : Line) (rest : List Line) (v : Value) (t : Rat) (th : Thread) (u : State),
      s.slice = 1 → Assoc.get s.threads AgentId.serial.key = some ⟨l :: rest, v, t⟩ →
      runLine ⟨l :: rest, v, t⟩ l rest (s.takeUp .serial) = .next (th, u) →
      exec (.decodeByte b) s = .next (({ u with rxq := s.rxq ++ [b] } : State).park .serial th)) ∧
    (∀ u, resume .serial s = .next u → u.running .serial = true →
      exec (.decodeByte b) s = .next { u with rxq := u.rxq ++ [b] })

/-- R204, R205, R206: the encoders return their frame and change no register, a payload too long for
the length field being refused; a byte to the peer's decoder changes no register but the peer's,
and those as R206 says: 0xAA awaited, two length bytes, the payload, delivery. That a caller is
numbered and handed the frame, or unit, is the model's choice (log entry 15), and so is what of
the peer's decoder is held (log entry 13). -/
def Obligations.CodecFunctionsReturnTheirFrame : Prop :=
  (∀ (d : PeerRegs) (b : Byte),
    (d.phase = .hunt → d.feed b = if b = 0xAA then { d with phase := .lenHigh } else d) ∧
    (d.phase = .lenHigh → d.feed b = { d with phase := .lenLow, high := b }) ∧
    (d.phase = .lenLow → d.high.toNat * 256 + b.toNat = 0 →
      (d.feed b).phase = .hunt ∧ (d.feed b).delivered = d.delivered ++ [[]]) ∧
    (d.phase = .lenLow → d.high.toNat * 256 + b.toNat ≠ 0 →
      d.feed b = { d with phase := .payload, len := d.high.toNat * 256 + b.toNat, buf := [] }) ∧
    (d.phase = .payload → d.buf.length + 1 ≠ d.len →
      d.feed b = { d with buf := d.buf ++ [b] }) ∧
    (d.phase = .payload → d.buf.length + 1 = d.len →
      (d.feed b).phase = .hunt ∧ (d.feed b).delivered = d.delivered ++ [d.buf ++ [b]])) ∧
  ∀ (p : Bytes) (b : Byte) (s : State), 2 ≤ s.slice →
    (p.length ≤ 65535 →
      exec (.encodeResponse p) s = .next (s.returned s.nextCmd
        (.bytes ([0xAA, BitVec.ofNat 8 (p.length / 256), BitVec.ofNat 8 (p.length % 256)] ++ p)))) ∧
    (65535 < p.length → exec (.encodeResponse p) s = .refused .responseTooLong) ∧
    (p.length ≤ 255 →
      exec (.encodeRequest p) s = .next (s.returned s.nextCmd
        (.bytes ([0xAA, BitVec.ofNat 8 p.length] ++ p)))) ∧
    (255 < p.length → exec (.encodeRequest p) s = .refused .requestTooLong) ∧
    exec (.decodeResponse b) s =
      .next (({ s with peer := s.peer.feed b } : State).returned s.nextCmd .unit)

/-- R207, R208: an exchange of any payload always dispatches its text and leaves what the dispatch of
that text leaves, whatever the command; but the reply, instead of being given to a caller, is
framed and appended to `serial_out` if the text contains `poll`, the four bytes adjacent anywhere
in it, and discarded otherwise.
`A_SERIAL` is idle, nothing is queued and `DIST` is in its range (R26). Written out for the motor
direction command and for a text that is no command. -/
def Obligations.ExchangeSendsOnlyPollTexts : Prop :=
  (∀ p : Bytes, answered p = true ↔ ∃ a b, p = a ++ [0x70, 0x6F, 0x6C, 0x6C] ++ b) ∧
  ∀ (p : Bytes) (s : State), s.running .serial = false → s.rxq = [] → p.length ≤ 255 →
    (6 ≤ s.slice → s.dist ≤ 1000 →
      ∃ u reply, exec (.dispatch p) s = .next u ∧
        u.replies = s.replies ++ [(s.nextCmd, reply)] ∧
        exec (.serialExchange p) s = .next { u with
          nextCmd := s.nextCmd
          replies := s.replies
          serialOut :=
            if answered p = true then s.serialOut ++ responseFrame reply else s.serialOut }) ∧
    (3 ≤ s.slice →
      (∀ d, parseCommand p = .ok (.md 0 d) →
        exec (.serialExchange p) s = .next { s with
          ch0 := { s.ch0 with state := d }
          serialOut :=
            if answered p = true then s.serialOut ++ responseFrame replyOkay
            else s.serialOut }) ∧
      (decodeText p = .unknown p →
        exec (.serialExchange p) s = .next { s with
          serialOut :=
            if answered p = true then s.serialOut ++ responseFrame (errUnknown p)
            else s.serialOut }))

/-! ### CommandDispatcher -/

/-- R220, R222: dispatching a request is performing the command its text decodes to; and whatever the
request, `DISPATCH` ends and answers exactly one reply string, to its own caller, whose number is
the model's choice (log entry 15). R99 to R105, R238: which command that is, for every request:
segment 1 alone chooses it among the six names, byte for byte; `o`, `md` and `mp` take segments 2
and 3, converted, a direction being Stopped unless it is spelled `Forward` or `Reverse`; any other
name, no segment 1, and whatever raises a `ParseError` is `unknown`, with the request as received. -/
def Obligations.DispatchAnswersTheDecodedCommand : Prop :=
  (∀ (req : Bytes) (s : State),
    exec (.dispatch req) s = exec (decodeText req) s ∧
    (6 ≤ s.slice → ∃ t reply, exec (.dispatch req) s = .next t ∧
      t.replies = s.replies ++ [(s.nextCmd, reply)] ∧ t.threads = s.threads ∧
      t.nextCmd = s.nextCmd + 1)) ∧
  (∀ req name : Bytes, (splitSlash req)[1]? = some name →
    (name = [0x70, 0x6F, 0x6C, 0x6C] → decodeText req = .poll) ∧
    (name = [0x72, 0x65, 0x73, 0x65, 0x74, 0x5F, 0x61, 0x6C, 0x6C] →
      decodeText req = .resetAll) ∧
    (name = [0x63, 0x72, 0x6F, 0x73, 0x73, 0x64, 0x6F, 0x6D, 0x61, 0x69, 0x6E, 0x2E, 0x78, 0x6D,
        0x6C] →
      decodeText req = .crossdomain) ∧
    (∀ x y, (splitSlash req)[2]? = some x → (splitSlash req)[3]? = some y →
      (∀ i b, name = [0x6F] → parseInt x = .ok i → parseBool y = .ok b →
        decodeText req = .o i b) ∧
      (∀ i, name = [0x6D, 0x64] → parseInt x = .ok i →
        decodeText req = .md i
          (if y = [0x46, 0x6F, 0x72, 0x77, 0x61, 0x72, 0x64] then .forward
          else if y = [0x52, 0x65, 0x76, 0x65, 0x72, 0x73, 0x65] then .reverse
          else .stopped)) ∧
      (∀ i p, name = [0x6D, 0x70] → parseInt x = .ok i → parseInt y = .ok p →
        decodeText req = .mp i p)) ∧
    (name ≠ [0x70, 0x6F, 0x6C, 0x6C] → name ≠ [0x6F] →
      name ≠ [0x72, 0x65, 0x73, 0x65, 0x74, 0x5F, 0x61, 0x6C, 0x6C] →
      name ≠ [0x63, 0x72, 0x6F, 0x73, 0x73, 0x64, 0x6F, 0x6D, 0x61, 0x69, 0x6E, 0x2E, 0x78, 0x6D,
        0x6C] →
      name ≠ [0x6D, 0x64] → name ≠ [0x6D, 0x70] → decodeText req = .unknown req)) ∧
  ∀ req : Bytes, ((splitSlash req)[1]? = none → decodeText req = .unknown req) ∧
    ∀ e, parseCommand req = .error e → decodeText req = .unknown req

/-- R222, R271: a `ParseError` changes nothing but that the generic reply is given; the caller's number
is log entry 15. R100, R223: it is raised exactly when segment 1 is absent, or an argument that
`o`, `md` or `mp` uses is absent or does not convert. R9: the segments hold no `/` and, joined by
`/`, are the request. R101: `parseInt` converts an optional `-` and one or more digits whose number
is a 32-bit integer, and nothing else; R102: `parseBool` converts `true` and `false`, and nothing
else. -/
def Obligations.ParseErrorAnswersUnknown : Prop :=
  (∀ (req : Bytes) (e : ParseError) (s : State), parseCommand req = .error e → 2 ≤ s.slice →
    exec (.dispatch req) s = .next (s.replied s.nextCmd (errUnknown req))) ∧
  (∀ req : Bytes, (∃ e, parseCommand req = .error e) ↔
    ¬ ∃ name, (splitSlash req)[1]? = some name ∧
      (name = [0x6F] → ∃ x y i b, (splitSlash req)[2]? = some x ∧ (splitSlash req)[3]? = some y ∧
        parseInt x = .ok i ∧ parseBool y = .ok b) ∧
      (name = [0x6D, 0x64] → ∃ x y i, (splitSlash req)[2]? = some x ∧
        (splitSlash req)[3]? = some y ∧ parseInt x = .ok i) ∧
      (name = [0x6D, 0x70] → ∃ x y i p, (splitSlash req)[2]? = some x ∧
        (splitSlash req)[3]? = some y ∧ parseInt x = .ok i ∧ parseInt y = .ok p)) ∧
  (∀ req : Bytes, splitSlash req ≠ [] ∧ List.intercalate [0x2F] (splitSlash req) = req ∧
    ∀ t ∈ splitSlash req, 0x2F ∉ t) ∧
  (∀ (t : Bytes) (i : Int), parseInt t = .ok i ↔
    (-2147483648 ≤ i ∧ i ≤ 2147483647) ∧
    ∃ ds : Bytes, ds ≠ [] ∧ (∀ b ∈ ds, 0x30 ≤ b.toNat ∧ b.toNat ≤ 0x39) ∧
      ((t = ds ∧ i = (decimalValue ds : Int)) ∨ (t = 0x2D :: ds ∧ i = -(decimalValue ds : Int)))) ∧
  ∀ (t : Bytes) (b : Bool), parseBool t = .ok b ↔
    t = if b then [0x74, 0x72, 0x75, 0x65] else [0x66, 0x61, 0x6C, 0x73, 0x65]

/-- R226: `poll` reads the inputs, the latch and `DIST` in that order and changes no register; unless
Ready it answers `ERR_NOT_CONNECTED` with no transaction. The bytes of both replies are those of
R107 and R108, with the distance as the decimal numeral of R9: digits of its value, the first not
0 but for 0 itself. The numbering of the reply's caller is log entry 15. -/
def Obligations.PollReportsInputsLatchAndDistance : Prop :=
  (∀ s : State, 5 ≤ s.slice →
    (s.drv = .ready →
      exec .poll s = .next
        (((s.busRead s.cfg.regInPort).2.busRead s.cfg.regOutLatch).2.replied s.nextCmd
          (pollReply (s.busRead s.cfg.regInPort).1
            ((s.busRead s.cfg.regInPort).2.busRead s.cfg.regOutLatch).1 s.dist))) ∧
    (s.drv ≠ .ready → exec .poll s = .next (s.replied s.nextCmd errNotConnected))) ∧
  (∀ (i l : Byte) (d : Nat),
    pollReply i l d =
      rtLine 0x69 0x30 (bitOf i 0) ++ rtLine 0x69 0x31 (bitOf i 1) ++
      rtLine 0x6F 0x30 (bitOf l 1) ++ rtLine 0x69 0x32 (bitOf i 2) ++
      rtLine 0x6F 0x31 (bitOf l 2) ++ rtLine 0x69 0x33 (bitOf i 3) ++
      rtLine 0x69 0x34 (bitOf i 4) ++ rtLine 0x69 0x35 (bitOf i 5) ++
      rtLine 0x69 0x36 (bitOf i 6) ++ [0x64, 0x20] ++ dec d ++ [0x0A]) ∧
  (∀ d : Nat, (∀ b ∈ dec d, 0x30 ≤ b.toNat ∧ b.toNat ≤ 0x39) ∧ decimalValue (dec d) = d ∧
    ((dec d).head? = some 0x30 → dec d = [0x30])) ∧
  errNotConnected =
      [0x5F, 0x70, 0x72, 0x6F, 0x62, 0x6C, 0x65, 0x6D, 0x20, 0x54, 0x68, 0x65, 0x20, 0x44,
        0x69, 0x67, 0x69, 0x74, 0x61, 0x6C, 0x20, 0x32, 0x20, 0x50, 0x69, 0x66, 0x61, 0x63,
        0x65, 0x20, 0x69, 0x73, 0x20, 0x6E, 0x6F, 0x74, 0x20, 0x63, 0x6F, 0x6E, 0x6E, 0x65,
        0x63, 0x74, 0x65, 0x64, 0x2E, 0x0A]

/-- R228: `o` with bit index 0 drives output bit 1 and with 1 output bit 2, one `RMW`, and answers okay;
with any other index nothing changes and `ERR_INVALID_BIT` is answered. Both replies byte for byte
(R107). The command run as an event of its own, by a numbered caller, is log entry 15. -/
def Obligations.OutputCommandDrivesItsBit : Prop :=
  ∀ (i : Int) (b : Bool) (s : State), 4 ≤ s.slice →
    (i = 0 → exec (.o i b) s = .next
      ((s.outBecomes (if b then s.out ||| 0x02 else s.out &&& ~~~ 0x02)).replied s.nextCmd
        replyOkay)) ∧
    (i = 1 → exec (.o i b) s = .next
      ((s.outBecomes (if b then s.out ||| 0x04 else s.out &&& ~~~ 0x04)).replied s.nextCmd
        replyOkay)) ∧
    (i ≠ 0 → i ≠ 1 → exec (.o i b) s = .next (s.replied s.nextCmd errInvalidBit)) ∧
    replyOkay = [0x6F, 0x6B, 0x61, 0x79, 0x0A] ∧
    errInvalidBit =
      [0x5F, 0x70, 0x72, 0x6F, 0x62, 0x6C, 0x65, 0x6D, 0x20, 0x69, 0x6E, 0x76, 0x61, 0x6C,
        0x69, 0x64, 0x20, 0x62, 0x69, 0x74]

/-- R230, R232, R238: `reset_all` stops both channels' directions and nothing else; `crossdomain.xml`
and an unknown request change nothing; each gives its reply, byte for byte (R107, R109). The
numbering of the reply's caller is log entry 15. -/
def Obligations.PlainCommandsGiveTheirReply : Prop :=
  ∀ (req : Bytes) (s : State), 4 ≤ s.slice →
    exec .resetAll s = .next
      (({ s with
          ch0 := { s.ch0 with state := .stopped }
          ch1 := { s.ch1 with state := .stopped } } : State).replied s.nextCmd replyOkay) ∧
    exec .crossdomain s = .next (s.replied s.nextCmd (xdomain s.cfg.listenPort.val)) ∧
    exec (.unknown req) s = .next (s.replied s.nextCmd (errUnknown req)) ∧
    replyOkay = [0x6F, 0x6B, 0x61, 0x79, 0x0A] ∧
    (∀ port, xdomain port =
      [0x3C, 0x63, 0x72, 0x6F, 0x73, 0x73, 0x2D, 0x64, 0x6F, 0x6D, 0x61, 0x69, 0x6E, 0x2D,
        0x70, 0x6F, 0x6C, 0x69, 0x63, 0x79, 0x3E, 0x3C, 0x61, 0x6C, 0x6C, 0x6F, 0x77, 0x2D,
        0x61, 0x63, 0x63, 0x65, 0x73, 0x73, 0x2D, 0x66, 0x72, 0x6F, 0x6D, 0x20, 0x64, 0x6F,
        0x6D, 0x61, 0x69, 0x6E, 0x3D, 0x22, 0x2A, 0x22, 0x20, 0x74, 0x6F, 0x2D, 0x70, 0x6F,
        0x72, 0x74, 0x73, 0x3D, 0x22] ++ dec port ++
      [0x22, 0x2F, 0x3E, 0x3C, 0x2F, 0x63, 0x72, 0x6F, 0x73, 0x73, 0x2D, 0x64, 0x6F, 0x6D,
        0x61, 0x69, 0x6E, 0x2D, 0x70, 0x6F, 0x6C, 0x69, 0x63, 0x79, 0x3E, 0x0A]) ∧
    errUnknown req =
      [0x5F, 0x70, 0x72, 0x6F, 0x62, 0x6C, 0x65, 0x6D, 0x20, 0x75, 0x6E, 0x6B, 0x6E, 0x6F,
        0x77, 0x6E, 0x20, 0x63, 0x6F, 0x6D, 0x6D, 0x61, 0x6E, 0x64, 0x3A, 0x20] ++ req ++ [0x0A]

/-- R234, R236: `md` sets a channel's direction and `mp` its duty pair, answering okay; with a motor id
other than 0 and 1 nothing changes and `ERR_INVALID_MOTOR` is answered. Both replies byte for byte
(R107). The command run as an event of its own, by a numbered caller, is log entry 15. -/
def Obligations.MotorCommandsSetTheirChannel : Prop :=
  ∀ (c p : Int) (d : Direction) (s : State), 3 ≤ s.slice →
    (c = 0 →
      exec (.md c d) s =
        .next (({ s with ch0 := { s.ch0 with state := d } } : State).replied s.nextCmd replyOkay) ∧
      exec (.mp c p) s =
        .next (({ s with ch0 := ⟨s.ch0.state, (dutyPair p).1, (dutyPair p).2⟩ } : State).replied
          s.nextCmd replyOkay)) ∧
    (c = 1 →
      exec (.md c d) s =
        .next (({ s with ch1 := { s.ch1 with state := d } } : State).replied s.nextCmd replyOkay) ∧
      exec (.mp c p) s =
        .next (({ s with ch1 := ⟨s.ch1.state, (dutyPair p).1, (dutyPair p).2⟩ } : State).replied
          s.nextCmd replyOkay)) ∧
    (c ≠ 0 → c ≠ 1 →
      exec (.md c d) s = .next (s.replied s.nextCmd errInvalidMotor) ∧
      exec (.mp c p) s = .next (s.replied s.nextCmd errInvalidMotor)) ∧
    replyOkay = [0x6F, 0x6B, 0x61, 0x79, 0x0A] ∧
    errInvalidMotor =
      [0x5F, 0x70, 0x72, 0x6F, 0x62, 0x6C, 0x65, 0x6D, 0x3A, 0x20, 0x69, 0x6E, 0x76, 0x61,
        0x6C, 0x69, 0x64, 0x20, 0x6D, 0x6F, 0x74, 0x6F, 0x72, 0x20, 0x69, 0x64, 0x0A]

/-! ### Encodings -/

/-- Decode and encode agree: every well-formed operation's event word decodes to it, under every
configuration, with every operand. -/
def Obligations.DecodeOfEncodeIsTheOperation : Prop :=
  ∀ (g : Cfg) (i : Instr), i.wellFormed = true → decode g (encode g i) = .ok i

/-- The decoder answers well-formed operations only. -/
def Obligations.DecodeAnswersWellFormedOnly : Prop :=
  ∀ (g : Cfg) (w : Bytes) (i : Instr), decode g w = .ok i → i.wellFormed = true

/-- R99 to R105, R238: some requests of the command map, byte for byte, decode to their command; and to
`unknown` one of another name, `/foo`, those that raise a `ParseError`, `/o/x/true`, `/o/0/yes`, `/o/0`, `/o/5/maybe`, `/md/0`,
`/mp/0/3.5`, `/mp/0/2147483648`, and a text with no segment 1. -/
def Obligations.CommandTextsDecodeAsTheMapSays : Prop :=
  decodeText [0x2F, 0x70, 0x6F, 0x6C, 0x6C] = .poll ∧
  decodeText [0x2F, 0x6F, 0x2F, 0x30, 0x2F, 0x74, 0x72, 0x75, 0x65] = .o 0 true ∧
  decodeText [0x2F, 0x6D, 0x70, 0x2F, 0x31, 0x2F, 0x2D, 0x35] = .mp 1 (-5) ∧
  decodeText [0x2F, 0x6D, 0x64, 0x2F, 0x30, 0x2F] = .md 0 .stopped ∧
  decodeText [0x70, 0x6F, 0x6C, 0x6C] = .unknown [0x70, 0x6F, 0x6C, 0x6C] ∧
  ∀ t ∈ ([[0x2F, 0x66, 0x6F, 0x6F],
      [0x2F, 0x6F, 0x2F, 0x78, 0x2F, 0x74, 0x72, 0x75, 0x65],
      [0x2F, 0x6F, 0x2F, 0x30, 0x2F, 0x79, 0x65, 0x73],
      [0x2F, 0x6F, 0x2F, 0x30],
      [0x2F, 0x6F, 0x2F, 0x35, 0x2F, 0x6D, 0x61, 0x79, 0x62, 0x65],
      [0x2F, 0x6D, 0x64, 0x2F, 0x30],
      [0x2F, 0x6D, 0x70, 0x2F, 0x30, 0x2F, 0x33, 0x2E, 0x35],
      [0x2F, 0x6D, 0x70, 0x2F, 0x30, 0x2F, 0x32, 0x31, 0x34, 0x37, 0x34, 0x38, 0x33, 0x36, 0x34,
        0x38]] : List Bytes), decodeText t = .unknown t

/-! ### The step -/

/-- R70: a turn that delivers an event runs its operation at the turn's time with the turn's number of
steps; one that lets an agent go on resumes it; with no turn nothing happens. -/
def Obligations.StepRunsTheScheduledTurn : Prop :=
  ∀ (s : State) (t : Turn) (rest : List Turn), s.cfg.wf = true →
    (s.turns = [] → step s = .next s) ∧
    (s.turns = t :: rest → s.time ≤ t.time →
      (∀ w i, t.act = .start w → decode s.cfg w = .ok i →
        step s = exec i { s with turns := rest, time := t.time, slice := t.slice }) ∧
      (∀ a, t.act = .resume a →
        step s = resume a { s with turns := rest, time := t.time, slice := t.slice }))

/-- R70: a turn of `n` steps of an agent and a turn of `m` more of the same agent, with no other turn
between, are one turn of `n + m` steps. So what is stated of an operation run in one turn holds of
it run in several at one time. -/
def Obligations.TurnsOfOneAgentCompose : Prop :=
  ∀ (a : AgentId) (th : Thread) (s t u : State) (n m : Nat), s.running a = false →
    runTurn a th { s with slice := n } = .next t →
    resume a { t with slice := m } = .next u →
    runTurn a th { s with slice := n + m } = .next { u with slice := n + m }

/-- U7, U12: a configuration that is not well-formed, and a turn earlier than the present time, are
refused. R44: what well-formed is: the five output bits pairwise different, none of them 1 or 2;
the two device bytes different; the ten register addresses pairwise different, but that
`REG_OUT_LATCH` may equal `REG_OUT_PORT`; `T_TRIG > 0`. -/
def Obligations.BrokenRunsAreRefused : Prop :=
  (∀ (s : State) (t : Turn) (rest : List Turn),
    (s.cfg.wf = false → step s = .refused .illFormedConfig) ∧
    (s.cfg.wf = true → s.turns = t :: rest → t.time < s.time →
      step s = .refused .timeBackwards)) ∧
  ∀ g : Cfg, g.wf = true ↔
    [g.trigBit, g.fwdBit0, g.backBit0, g.fwdBit1, g.backBit1].Pairwise (· ≠ ·) ∧
    (∀ b ∈ [g.trigBit, g.fwdBit0, g.backBit0, g.fwdBit1, g.backBit1], b ≠ 1 ∧ b ≠ 2) ∧
    g.devaddrW ≠ g.devaddrR ∧
    [g.regCfg, g.regDirOut, g.regDirIn, g.regPullupIn, g.regIntenIn, g.regOutPort, g.regInPort,
      g.regIntFlag, g.regIntCapture].Pairwise (· ≠ ·) ∧
    (∀ r ∈ [g.regCfg, g.regDirOut, g.regDirIn, g.regPullupIn, g.regIntenIn, g.regInPort,
      g.regIntFlag, g.regIntCapture], g.regOutLatch ≠ r) ∧
    0 < g.tTrig

/-! ### What every step keeps -/

/-- R45, R191: mutual exclusion of each motor's pins, an invariant of every interleaving of gentle
events. -/
def Obligations.EveryStepKeepsMotorsExclusive : Prop :=
  ∀ s t : State, s.MotorSafe → step s = .next t → t.MotorSafe

/-- The premises of the invariants hold after reset, with any well-formed configuration and any gentle
schedule. -/
def Obligations.ResetSatisfiesTheInvariants : Prop :=
  ∀ (g : Cfg) (turns : List Turn), g.wf = true → (∀ t ∈ turns, t.Gentle g) →
    ({ State.resetWith g with turns := turns } : State).MotorSafe ∧
    (State.resetWith g).DutyOk ∧ (State.resetWith g).DistOk ∧ (State.resetWith g).dec.Ok ∧
    (State.resetWith g).Canonical ∧ (State.resetWith g).FreshCallers ∧
    (State.resetWith g).InitQuiet ∧ (State.resetWith g).SonarOwned

/-- R45: both channels always hold a pair of the duty-cycle table. -/
def Obligations.EveryStepKeepsTheDutyPairs : Prop :=
  ∀ s t : State, s.DutyOk → step s = .next t → t.DutyOk

/-- R26, R169: `DIST` and every distance about to be published stay in 0..1000. -/
def Obligations.EveryStepKeepsDistanceInRange : Prop :=
  ∀ s t : State, s.DistOk → step s = .next t → t.DistOk

/-- R29: the decoder never holds as many bytes as it wants, nor any outside Payload. -/
def Obligations.EveryStepKeepsTheDecoderConsistent : Prop :=
  ∀ s t : State, s.dec.Ok → step s = .next t → t.dec.Ok

/-- The sparse data keep their canonical form and the numbers of callers stay fresh. -/
def Obligations.EveryStepKeepsTheCanonicalForm : Prop :=
  ∀ s t : State, s.Canonical → s.FreshCallers → step s = .next t → t.Canonical ∧ t.FreshCallers

/-- R22, R47: once `INIT` has ended, `DRV` never changes again. -/
def Obligations.DriverStatusIsPermanent : Prop :=
  ∀ s t : State, s.drv ≠ .uninit → s.InitQuiet → step s = .next t →
    t.drv = s.drv ∧ t.InitQuiet

/-- R120: while `DRV` is not Ready and no `INIT` is in progress, no event but `init_start` puts a
transaction on the bus. -/
def Obligations.NoTransactionUnlessReady : Prop :=
  ∀ s t : State, s.drv ≠ .ready → s.InitQuiet → step s = .next t →
    (∀ u rest w r, s.turns = u :: rest → u.act = .start w → decode s.cfg w ≠ .ok (.init r)) →
    t.busTrace = s.busTrace ∧ t.chip = s.chip

/-- R173: `DIST` changes only in a step of `A_SONAR`: a `measure` event or its being let go on. -/
def Obligations.OnlyTheSonarChangesDistance : Prop :=
  ∀ s t : State, s.SonarOwned → step s = .next t →
    t.SonarOwned ∧
    ((∀ u rest w, s.turns = u :: rest → u.act = .start w → decode s.cfg w ≠ .ok .measure) →
     (∀ u rest, s.turns = u :: rest → u.act ≠ .resume .sonar) →
      t.dist = s.dist ∧ t.sonarState = s.sonarState ∧ t.sonarT0 = s.sonarT0 ∧
        t.sonarPrev = s.sonarPrev)

/-- R39, R41: time never decreases, the configuration never changes, and what has gone out on the bus,
the serial line, the reply port and the event port stays as it went. -/
def Obligations.OutputsOnlyGrow : Prop :=
  ∀ s t : State, step s = .next t →
    s.time ≤ t.time ∧ t.cfg = s.cfg ∧ s.busTrace <+: t.busTrace ∧ s.serialOut <+: t.serialOut ∧
    s.replies <+: t.replies ∧ s.results <+: t.results ∧ s.events <+: t.events
end

