-- ==== Sys2Proof/Laws/State.lean ====
section
/-! SUPPORT. One lemma per field per update of `State`: what each named operation leaves as it was,
and what it writes. -/

namespace Sys2Proof.Machine

/-! ### `transact` -/

@[simp] theorem transact_cfg (s : State) (reg v : Byte) : (s.transact reg v).cfg = s.cfg := rfl
@[simp] theorem transact_drv (s : State) (reg v : Byte) : (s.transact reg v).drv = s.drv := rfl
@[simp] theorem transact_out (s : State) (reg v : Byte) : (s.transact reg v).out = s.out := rfl
@[simp] theorem transact_ch0 (s : State) (reg v : Byte) : (s.transact reg v).ch0 = s.ch0 := rfl
@[simp] theorem transact_ch1 (s : State) (reg v : Byte) : (s.transact reg v).ch1 = s.ch1 := rfl
@[simp] theorem transact_tick (s : State) (reg v : Byte) : (s.transact reg v).tick = s.tick := rfl
@[simp] theorem transact_dist (s : State) (reg v : Byte) : (s.transact reg v).dist = s.dist := rfl
@[simp] theorem transact_sonarState (s : State) (reg v : Byte) : (s.transact reg v).sonarState = s.sonarState := rfl
@[simp] theorem transact_sonarT0 (s : State) (reg v : Byte) : (s.transact reg v).sonarT0 = s.sonarT0 := rfl
@[simp] theorem transact_sonarPrev (s : State) (reg v : Byte) : (s.transact reg v).sonarPrev = s.sonarPrev := rfl
@[simp] theorem transact_dec (s : State) (reg v : Byte) : (s.transact reg v).dec = s.dec := rfl
@[simp] theorem transact_rxq (s : State) (reg v : Byte) : (s.transact reg v).rxq = s.rxq := rfl
@[simp] theorem transact_chip (s : State) (reg v : Byte) : (s.transact reg v).chip = s.chip.take s.cfg reg v := rfl
@[simp] theorem transact_busTrace (s : State) (reg v : Byte) : (s.transact reg v).busTrace = s.busTrace ++ [.write reg v] := rfl
@[simp] theorem transact_serialOut (s : State) (reg v : Byte) : (s.transact reg v).serialOut = s.serialOut := rfl
@[simp] theorem transact_replies (s : State) (reg v : Byte) : (s.transact reg v).replies = s.replies := rfl
@[simp] theorem transact_results (s : State) (reg v : Byte) : (s.transact reg v).results = s.results := rfl
@[simp] theorem transact_events (s : State) (reg v : Byte) : (s.transact reg v).events = s.events := rfl
@[simp] theorem transact_peer (s : State) (reg v : Byte) : (s.transact reg v).peer = s.peer := rfl
@[simp] theorem transact_threads (s : State) (reg v : Byte) : (s.transact reg v).threads = s.threads := rfl
@[simp] theorem transact_nextCmd (s : State) (reg v : Byte) : (s.transact reg v).nextCmd = s.nextCmd := rfl
@[simp] theorem transact_initStarted (s : State) (reg v : Byte) : (s.transact reg v).initStarted = s.initStarted := rfl
@[simp] theorem transact_lastIrq (s : State) (reg v : Byte) : (s.transact reg v).lastIrq = s.lastIrq := rfl
@[simp] theorem transact_time (s : State) (reg v : Byte) : (s.transact reg v).time = s.time := rfl
@[simp] theorem transact_busIn (s : State) (reg v : Byte) : (s.transact reg v).busIn = s.busIn := rfl
@[simp] theorem transact_draws (s : State) (reg v : Byte) : (s.transact reg v).draws = s.draws := rfl
@[simp] theorem transact_slice (s : State) (reg v : Byte) : (s.transact reg v).slice = s.slice := rfl
@[simp] theorem transact_turns (s : State) (reg v : Byte) : (s.transact reg v).turns = s.turns := rfl

/-! ### `rmwAtomic` -/

@[simp] theorem rmwAtomic_cfg (s : State) (f : ByteFn) : (s.rmwAtomic f).cfg = s.cfg := rfl
@[simp] theorem rmwAtomic_drv (s : State) (f : ByteFn) : (s.rmwAtomic f).drv = s.drv := rfl
@[simp] theorem rmwAtomic_out (s : State) (f : ByteFn) : (s.rmwAtomic f).out = applyByteFn f s.out := rfl
@[simp] theorem rmwAtomic_ch0 (s : State) (f : ByteFn) : (s.rmwAtomic f).ch0 = s.ch0 := rfl
@[simp] theorem rmwAtomic_ch1 (s : State) (f : ByteFn) : (s.rmwAtomic f).ch1 = s.ch1 := rfl
@[simp] theorem rmwAtomic_tick (s : State) (f : ByteFn) : (s.rmwAtomic f).tick = s.tick := rfl
@[simp] theorem rmwAtomic_dist (s : State) (f : ByteFn) : (s.rmwAtomic f).dist = s.dist := rfl
@[simp] theorem rmwAtomic_sonarState (s : State) (f : ByteFn) : (s.rmwAtomic f).sonarState = s.sonarState := rfl
@[simp] theorem rmwAtomic_sonarT0 (s : State) (f : ByteFn) : (s.rmwAtomic f).sonarT0 = s.sonarT0 := rfl
@[simp] theorem rmwAtomic_sonarPrev (s : State) (f : ByteFn) : (s.rmwAtomic f).sonarPrev = s.sonarPrev := rfl
@[simp] theorem rmwAtomic_dec (s : State) (f : ByteFn) : (s.rmwAtomic f).dec = s.dec := rfl
@[simp] theorem rmwAtomic_rxq (s : State) (f : ByteFn) : (s.rmwAtomic f).rxq = s.rxq := rfl
@[simp] theorem rmwAtomic_chip (s : State) (f : ByteFn) : (s.rmwAtomic f).chip = s.chip := rfl
@[simp] theorem rmwAtomic_busTrace (s : State) (f : ByteFn) : (s.rmwAtomic f).busTrace = s.busTrace := rfl
@[simp] theorem rmwAtomic_serialOut (s : State) (f : ByteFn) : (s.rmwAtomic f).serialOut = s.serialOut := rfl
@[simp] theorem rmwAtomic_replies (s : State) (f : ByteFn) : (s.rmwAtomic f).replies = s.replies := rfl
@[simp] theorem rmwAtomic_results (s : State) (f : ByteFn) : (s.rmwAtomic f).results = s.results := rfl
@[simp] theorem rmwAtomic_events (s : State) (f : ByteFn) : (s.rmwAtomic f).events = s.events := rfl
@[simp] theorem rmwAtomic_peer (s : State) (f : ByteFn) : (s.rmwAtomic f).peer = s.peer := rfl
@[simp] theorem rmwAtomic_threads (s : State) (f : ByteFn) : (s.rmwAtomic f).threads = s.threads := rfl
@[simp] theorem rmwAtomic_nextCmd (s : State) (f : ByteFn) : (s.rmwAtomic f).nextCmd = s.nextCmd := rfl
@[simp] theorem rmwAtomic_initStarted (s : State) (f : ByteFn) : (s.rmwAtomic f).initStarted = s.initStarted := rfl
@[simp] theorem rmwAtomic_lastIrq (s : State) (f : ByteFn) : (s.rmwAtomic f).lastIrq = s.lastIrq := rfl
@[simp] theorem rmwAtomic_time (s : State) (f : ByteFn) : (s.rmwAtomic f).time = s.time := rfl
@[simp] theorem rmwAtomic_busIn (s : State) (f : ByteFn) : (s.rmwAtomic f).busIn = s.busIn := rfl
@[simp] theorem rmwAtomic_draws (s : State) (f : ByteFn) : (s.rmwAtomic f).draws = s.draws := rfl
@[simp] theorem rmwAtomic_slice (s : State) (f : ByteFn) : (s.rmwAtomic f).slice = s.slice := rfl
@[simp] theorem rmwAtomic_turns (s : State) (f : ByteFn) : (s.rmwAtomic f).turns = s.turns := rfl

/-! ### `resetOut` -/

@[simp] theorem resetOut_cfg (s : State) : (s.resetOut).cfg = s.cfg := rfl
@[simp] theorem resetOut_drv (s : State) : (s.resetOut).drv = s.drv := rfl
@[simp] theorem resetOut_out (s : State) : (s.resetOut).out = 0 := rfl
@[simp] theorem resetOut_ch0 (s : State) : (s.resetOut).ch0 = s.ch0 := rfl
@[simp] theorem resetOut_ch1 (s : State) : (s.resetOut).ch1 = s.ch1 := rfl
@[simp] theorem resetOut_tick (s : State) : (s.resetOut).tick = s.tick := rfl
@[simp] theorem resetOut_dist (s : State) : (s.resetOut).dist = s.dist := rfl
@[simp] theorem resetOut_sonarState (s : State) : (s.resetOut).sonarState = s.sonarState := rfl
@[simp] theorem resetOut_sonarT0 (s : State) : (s.resetOut).sonarT0 = s.sonarT0 := rfl
@[simp] theorem resetOut_sonarPrev (s : State) : (s.resetOut).sonarPrev = s.sonarPrev := rfl
@[simp] theorem resetOut_dec (s : State) : (s.resetOut).dec = s.dec := rfl
@[simp] theorem resetOut_rxq (s : State) : (s.resetOut).rxq = s.rxq := rfl
@[simp] theorem resetOut_chip (s : State) : (s.resetOut).chip = s.chip := rfl
@[simp] theorem resetOut_busTrace (s : State) : (s.resetOut).busTrace = s.busTrace := rfl
@[simp] theorem resetOut_serialOut (s : State) : (s.resetOut).serialOut = s.serialOut := rfl
@[simp] theorem resetOut_replies (s : State) : (s.resetOut).replies = s.replies := rfl
@[simp] theorem resetOut_results (s : State) : (s.resetOut).results = s.results := rfl
@[simp] theorem resetOut_events (s : State) : (s.resetOut).events = s.events := rfl
@[simp] theorem resetOut_peer (s : State) : (s.resetOut).peer = s.peer := rfl
@[simp] theorem resetOut_threads (s : State) : (s.resetOut).threads = s.threads := rfl
@[simp] theorem resetOut_nextCmd (s : State) : (s.resetOut).nextCmd = s.nextCmd := rfl
@[simp] theorem resetOut_initStarted (s : State) : (s.resetOut).initStarted = s.initStarted := rfl
@[simp] theorem resetOut_lastIrq (s : State) : (s.resetOut).lastIrq = s.lastIrq := rfl
@[simp] theorem resetOut_time (s : State) : (s.resetOut).time = s.time := rfl
@[simp] theorem resetOut_busIn (s : State) : (s.resetOut).busIn = s.busIn := rfl
@[simp] theorem resetOut_draws (s : State) : (s.resetOut).draws = s.draws := rfl
@[simp] theorem resetOut_slice (s : State) : (s.resetOut).slice = s.slice := rfl
@[simp] theorem resetOut_turns (s : State) : (s.resetOut).turns = s.turns := rfl

/-! ### `setSonar` -/

@[simp] theorem setSonar_cfg (s : State) (st : SonarState) : (s.setSonar st).cfg = s.cfg := rfl
@[simp] theorem setSonar_drv (s : State) (st : SonarState) : (s.setSonar st).drv = s.drv := rfl
@[simp] theorem setSonar_out (s : State) (st : SonarState) : (s.setSonar st).out = s.out := rfl
@[simp] theorem setSonar_ch0 (s : State) (st : SonarState) : (s.setSonar st).ch0 = s.ch0 := rfl
@[simp] theorem setSonar_ch1 (s : State) (st : SonarState) : (s.setSonar st).ch1 = s.ch1 := rfl
@[simp] theorem setSonar_tick (s : State) (st : SonarState) : (s.setSonar st).tick = s.tick := rfl
@[simp] theorem setSonar_dist (s : State) (st : SonarState) : (s.setSonar st).dist = s.dist := rfl
@[simp] theorem setSonar_sonarState (s : State) (st : SonarState) : (s.setSonar st).sonarState = st := rfl
@[simp] theorem setSonar_sonarT0 (s : State) (st : SonarState) : (s.setSonar st).sonarT0 = s.sonarT0 := rfl
@[simp] theorem setSonar_sonarPrev (s : State) (st : SonarState) : (s.setSonar st).sonarPrev = s.sonarPrev := rfl
@[simp] theorem setSonar_dec (s : State) (st : SonarState) : (s.setSonar st).dec = s.dec := rfl
@[simp] theorem setSonar_rxq (s : State) (st : SonarState) : (s.setSonar st).rxq = s.rxq := rfl
@[simp] theorem setSonar_chip (s : State) (st : SonarState) : (s.setSonar st).chip = s.chip := rfl
@[simp] theorem setSonar_busTrace (s : State) (st : SonarState) : (s.setSonar st).busTrace = s.busTrace := rfl
@[simp] theorem setSonar_serialOut (s : State) (st : SonarState) : (s.setSonar st).serialOut = s.serialOut := rfl
@[simp] theorem setSonar_replies (s : State) (st : SonarState) : (s.setSonar st).replies = s.replies := rfl
@[simp] theorem setSonar_results (s : State) (st : SonarState) : (s.setSonar st).results = s.results := rfl
@[simp] theorem setSonar_events (s : State) (st : SonarState) : (s.setSonar st).events = s.events := rfl
@[simp] theorem setSonar_peer (s : State) (st : SonarState) : (s.setSonar st).peer = s.peer := rfl
@[simp] theorem setSonar_threads (s : State) (st : SonarState) : (s.setSonar st).threads = s.threads := rfl
@[simp] theorem setSonar_nextCmd (s : State) (st : SonarState) : (s.setSonar st).nextCmd = s.nextCmd := rfl
@[simp] theorem setSonar_initStarted (s : State) (st : SonarState) : (s.setSonar st).initStarted = s.initStarted := rfl
@[simp] theorem setSonar_lastIrq (s : State) (st : SonarState) : (s.setSonar st).lastIrq = s.lastIrq := rfl
@[simp] theorem setSonar_time (s : State) (st : SonarState) : (s.setSonar st).time = s.time := rfl
@[simp] theorem setSonar_busIn (s : State) (st : SonarState) : (s.setSonar st).busIn = s.busIn := rfl
@[simp] theorem setSonar_draws (s : State) (st : SonarState) : (s.setSonar st).draws = s.draws := rfl
@[simp] theorem setSonar_slice (s : State) (st : SonarState) : (s.setSonar st).slice = s.slice := rfl
@[simp] theorem setSonar_turns (s : State) (st : SonarState) : (s.setSonar st).turns = s.turns := rfl

/-! ### `setPrev` -/

@[simp] theorem setPrev_cfg (s : State) (lvl : EchoLevel) : (s.setPrev lvl).cfg = s.cfg := rfl
@[simp] theorem setPrev_drv (s : State) (lvl : EchoLevel) : (s.setPrev lvl).drv = s.drv := rfl
@[simp] theorem setPrev_out (s : State) (lvl : EchoLevel) : (s.setPrev lvl).out = s.out := rfl
@[simp] theorem setPrev_ch0 (s : State) (lvl : EchoLevel) : (s.setPrev lvl).ch0 = s.ch0 := rfl
@[simp] theorem setPrev_ch1 (s : State) (lvl : EchoLevel) : (s.setPrev lvl).ch1 = s.ch1 := rfl
@[simp] theorem setPrev_tick (s : State) (lvl : EchoLevel) : (s.setPrev lvl).tick = s.tick := rfl
@[simp] theorem setPrev_dist (s : State) (lvl : EchoLevel) : (s.setPrev lvl).dist = s.dist := rfl
@[simp] theorem setPrev_sonarState (s : State) (lvl : EchoLevel) : (s.setPrev lvl).sonarState = s.sonarState := rfl
@[simp] theorem setPrev_sonarT0 (s : State) (lvl : EchoLevel) : (s.setPrev lvl).sonarT0 = s.sonarT0 := rfl
@[simp] theorem setPrev_sonarPrev (s : State) (lvl : EchoLevel) : (s.setPrev lvl).sonarPrev = lvl := rfl
@[simp] theorem setPrev_dec (s : State) (lvl : EchoLevel) : (s.setPrev lvl).dec = s.dec := rfl
@[simp] theorem setPrev_rxq (s : State) (lvl : EchoLevel) : (s.setPrev lvl).rxq = s.rxq := rfl
@[simp] theorem setPrev_chip (s : State) (lvl : EchoLevel) : (s.setPrev lvl).chip = s.chip := rfl
@[simp] theorem setPrev_busTrace (s : State) (lvl : EchoLevel) : (s.setPrev lvl).busTrace = s.busTrace := rfl
@[simp] theorem setPrev_serialOut (s : State) (lvl : EchoLevel) : (s.setPrev lvl).serialOut = s.serialOut := rfl
@[simp] theorem setPrev_replies (s : State) (lvl : EchoLevel) : (s.setPrev lvl).replies = s.replies := rfl
@[simp] theorem setPrev_results (s : State) (lvl : EchoLevel) : (s.setPrev lvl).results = s.results := rfl
@[simp] theorem setPrev_events (s : State) (lvl : EchoLevel) : (s.setPrev lvl).events = s.events := rfl
@[simp] theorem setPrev_peer (s : State) (lvl : EchoLevel) : (s.setPrev lvl).peer = s.peer := rfl
@[simp] theorem setPrev_threads (s : State) (lvl : EchoLevel) : (s.setPrev lvl).threads = s.threads := rfl
@[simp] theorem setPrev_nextCmd (s : State) (lvl : EchoLevel) : (s.setPrev lvl).nextCmd = s.nextCmd := rfl
@[simp] theorem setPrev_initStarted (s : State) (lvl : EchoLevel) : (s.setPrev lvl).initStarted = s.initStarted := rfl
@[simp] theorem setPrev_lastIrq (s : State) (lvl : EchoLevel) : (s.setPrev lvl).lastIrq = s.lastIrq := rfl
@[simp] theorem setPrev_time (s : State) (lvl : EchoLevel) : (s.setPrev lvl).time = s.time := rfl
@[simp] theorem setPrev_busIn (s : State) (lvl : EchoLevel) : (s.setPrev lvl).busIn = s.busIn := rfl
@[simp] theorem setPrev_draws (s : State) (lvl : EchoLevel) : (s.setPrev lvl).draws = s.draws := rfl
@[simp] theorem setPrev_slice (s : State) (lvl : EchoLevel) : (s.setPrev lvl).slice = s.slice := rfl
@[simp] theorem setPrev_turns (s : State) (lvl : EchoLevel) : (s.setPrev lvl).turns = s.turns := rfl

/-! ### `startTimer` -/

@[simp] theorem startTimer_cfg (s : State) : (s.startTimer).cfg = s.cfg := rfl
@[simp] theorem startTimer_drv (s : State) : (s.startTimer).drv = s.drv := rfl
@[simp] theorem startTimer_out (s : State) : (s.startTimer).out = s.out := rfl
@[simp] theorem startTimer_ch0 (s : State) : (s.startTimer).ch0 = s.ch0 := rfl
@[simp] theorem startTimer_ch1 (s : State) : (s.startTimer).ch1 = s.ch1 := rfl
@[simp] theorem startTimer_tick (s : State) : (s.startTimer).tick = s.tick := rfl
@[simp] theorem startTimer_dist (s : State) : (s.startTimer).dist = s.dist := rfl
@[simp] theorem startTimer_sonarState (s : State) : (s.startTimer).sonarState = .waiting := rfl
@[simp] theorem startTimer_sonarT0 (s : State) : (s.startTimer).sonarT0 = s.time := rfl
@[simp] theorem startTimer_sonarPrev (s : State) : (s.startTimer).sonarPrev = .none := rfl
@[simp] theorem startTimer_dec (s : State) : (s.startTimer).dec = s.dec := rfl
@[simp] theorem startTimer_rxq (s : State) : (s.startTimer).rxq = s.rxq := rfl
@[simp] theorem startTimer_chip (s : State) : (s.startTimer).chip = s.chip := rfl
@[simp] theorem startTimer_busTrace (s : State) : (s.startTimer).busTrace = s.busTrace := rfl
@[simp] theorem startTimer_serialOut (s : State) : (s.startTimer).serialOut = s.serialOut := rfl
@[simp] theorem startTimer_replies (s : State) : (s.startTimer).replies = s.replies := rfl
@[simp] theorem startTimer_results (s : State) : (s.startTimer).results = s.results := rfl
@[simp] theorem startTimer_events (s : State) : (s.startTimer).events = s.events := rfl
@[simp] theorem startTimer_peer (s : State) : (s.startTimer).peer = s.peer := rfl
@[simp] theorem startTimer_threads (s : State) : (s.startTimer).threads = s.threads := rfl
@[simp] theorem startTimer_nextCmd (s : State) : (s.startTimer).nextCmd = s.nextCmd := rfl
@[simp] theorem startTimer_initStarted (s : State) : (s.startTimer).initStarted = s.initStarted := rfl
@[simp] theorem startTimer_lastIrq (s : State) : (s.startTimer).lastIrq = s.lastIrq := rfl
@[simp] theorem startTimer_time (s : State) : (s.startTimer).time = s.time := rfl
@[simp] theorem startTimer_busIn (s : State) : (s.startTimer).busIn = s.busIn := rfl
@[simp] theorem startTimer_draws (s : State) : (s.startTimer).draws = s.draws := rfl
@[simp] theorem startTimer_slice (s : State) : (s.startTimer).slice = s.slice := rfl
@[simp] theorem startTimer_turns (s : State) : (s.startTimer).turns = s.turns := rfl

/-! ### `publish` -/

@[simp] theorem publish_cfg (s : State) (d : Nat) : (s.publish d).cfg = s.cfg := rfl
@[simp] theorem publish_drv (s : State) (d : Nat) : (s.publish d).drv = s.drv := rfl
@[simp] theorem publish_out (s : State) (d : Nat) : (s.publish d).out = s.out := rfl
@[simp] theorem publish_ch0 (s : State) (d : Nat) : (s.publish d).ch0 = s.ch0 := rfl
@[simp] theorem publish_ch1 (s : State) (d : Nat) : (s.publish d).ch1 = s.ch1 := rfl
@[simp] theorem publish_tick (s : State) (d : Nat) : (s.publish d).tick = s.tick := rfl
@[simp] theorem publish_dist (s : State) (d : Nat) : (s.publish d).dist = d := rfl
@[simp] theorem publish_sonarState (s : State) (d : Nat) : (s.publish d).sonarState = s.sonarState := rfl
@[simp] theorem publish_sonarT0 (s : State) (d : Nat) : (s.publish d).sonarT0 = s.sonarT0 := rfl
@[simp] theorem publish_sonarPrev (s : State) (d : Nat) : (s.publish d).sonarPrev = s.sonarPrev := rfl
@[simp] theorem publish_dec (s : State) (d : Nat) : (s.publish d).dec = s.dec := rfl
@[simp] theorem publish_rxq (s : State) (d : Nat) : (s.publish d).rxq = s.rxq := rfl
@[simp] theorem publish_chip (s : State) (d : Nat) : (s.publish d).chip = s.chip := rfl
@[simp] theorem publish_busTrace (s : State) (d : Nat) : (s.publish d).busTrace = s.busTrace := rfl
@[simp] theorem publish_serialOut (s : State) (d : Nat) : (s.publish d).serialOut = s.serialOut := rfl
@[simp] theorem publish_replies (s : State) (d : Nat) : (s.publish d).replies = s.replies := rfl
@[simp] theorem publish_results (s : State) (d : Nat) : (s.publish d).results = s.results := rfl
@[simp] theorem publish_events (s : State) (d : Nat) : (s.publish d).events = s.events := rfl
@[simp] theorem publish_peer (s : State) (d : Nat) : (s.publish d).peer = s.peer := rfl
@[simp] theorem publish_threads (s : State) (d : Nat) : (s.publish d).threads = s.threads := rfl
@[simp] theorem publish_nextCmd (s : State) (d : Nat) : (s.publish d).nextCmd = s.nextCmd := rfl
@[simp] theorem publish_initStarted (s : State) (d : Nat) : (s.publish d).initStarted = s.initStarted := rfl
@[simp] theorem publish_lastIrq (s : State) (d : Nat) : (s.publish d).lastIrq = s.lastIrq := rfl
@[simp] theorem publish_time (s : State) (d : Nat) : (s.publish d).time = s.time := rfl
@[simp] theorem publish_busIn (s : State) (d : Nat) : (s.publish d).busIn = s.busIn := rfl
@[simp] theorem publish_draws (s : State) (d : Nat) : (s.publish d).draws = s.draws := rfl
@[simp] theorem publish_slice (s : State) (d : Nat) : (s.publish d).slice = s.slice := rfl
@[simp] theorem publish_turns (s : State) (d : Nat) : (s.publish d).turns = s.turns := rfl

/-! ### `sonarIdle` -/

@[simp] theorem sonarIdle_cfg (s : State) : (s.sonarIdle).cfg = s.cfg := rfl
@[simp] theorem sonarIdle_drv (s : State) : (s.sonarIdle).drv = s.drv := rfl
@[simp] theorem sonarIdle_out (s : State) : (s.sonarIdle).out = s.out := rfl
@[simp] theorem sonarIdle_ch0 (s : State) : (s.sonarIdle).ch0 = s.ch0 := rfl
@[simp] theorem sonarIdle_ch1 (s : State) : (s.sonarIdle).ch1 = s.ch1 := rfl
@[simp] theorem sonarIdle_tick (s : State) : (s.sonarIdle).tick = s.tick := rfl
@[simp] theorem sonarIdle_dist (s : State) : (s.sonarIdle).dist = s.dist := rfl
@[simp] theorem sonarIdle_sonarState (s : State) : (s.sonarIdle).sonarState = .idle := rfl
@[simp] theorem sonarIdle_sonarT0 (s : State) : (s.sonarIdle).sonarT0 = s.sonarT0 := rfl
@[simp] theorem sonarIdle_sonarPrev (s : State) : (s.sonarIdle).sonarPrev = .none := rfl
@[simp] theorem sonarIdle_dec (s : State) : (s.sonarIdle).dec = s.dec := rfl
@[simp] theorem sonarIdle_rxq (s : State) : (s.sonarIdle).rxq = s.rxq := rfl
@[simp] theorem sonarIdle_chip (s : State) : (s.sonarIdle).chip = s.chip := rfl
@[simp] theorem sonarIdle_busTrace (s : State) : (s.sonarIdle).busTrace = s.busTrace := rfl
@[simp] theorem sonarIdle_serialOut (s : State) : (s.sonarIdle).serialOut = s.serialOut := rfl
@[simp] theorem sonarIdle_replies (s : State) : (s.sonarIdle).replies = s.replies := rfl
@[simp] theorem sonarIdle_results (s : State) : (s.sonarIdle).results = s.results := rfl
@[simp] theorem sonarIdle_events (s : State) : (s.sonarIdle).events = s.events := rfl
@[simp] theorem sonarIdle_peer (s : State) : (s.sonarIdle).peer = s.peer := rfl
@[simp] theorem sonarIdle_threads (s : State) : (s.sonarIdle).threads = s.threads := rfl
@[simp] theorem sonarIdle_nextCmd (s : State) : (s.sonarIdle).nextCmd = s.nextCmd := rfl
@[simp] theorem sonarIdle_initStarted (s : State) : (s.sonarIdle).initStarted = s.initStarted := rfl
@[simp] theorem sonarIdle_lastIrq (s : State) : (s.sonarIdle).lastIrq = s.lastIrq := rfl
@[simp] theorem sonarIdle_time (s : State) : (s.sonarIdle).time = s.time := rfl
@[simp] theorem sonarIdle_busIn (s : State) : (s.sonarIdle).busIn = s.busIn := rfl
@[simp] theorem sonarIdle_draws (s : State) : (s.sonarIdle).draws = s.draws := rfl
@[simp] theorem sonarIdle_slice (s : State) : (s.sonarIdle).slice = s.slice := rfl
@[simp] theorem sonarIdle_turns (s : State) : (s.sonarIdle).turns = s.turns := rfl

/-! ### `setTick` -/

@[simp] theorem setTick_cfg (s : State) (t : Nat) : (s.setTick t).cfg = s.cfg := rfl
@[simp] theorem setTick_drv (s : State) (t : Nat) : (s.setTick t).drv = s.drv := rfl
@[simp] theorem setTick_out (s : State) (t : Nat) : (s.setTick t).out = s.out := rfl
@[simp] theorem setTick_ch0 (s : State) (t : Nat) : (s.setTick t).ch0 = s.ch0 := rfl
@[simp] theorem setTick_ch1 (s : State) (t : Nat) : (s.setTick t).ch1 = s.ch1 := rfl
@[simp] theorem setTick_tick (s : State) (t : Nat) : (s.setTick t).tick = t := rfl
@[simp] theorem setTick_dist (s : State) (t : Nat) : (s.setTick t).dist = s.dist := rfl
@[simp] theorem setTick_sonarState (s : State) (t : Nat) : (s.setTick t).sonarState = s.sonarState := rfl
@[simp] theorem setTick_sonarT0 (s : State) (t : Nat) : (s.setTick t).sonarT0 = s.sonarT0 := rfl
@[simp] theorem setTick_sonarPrev (s : State) (t : Nat) : (s.setTick t).sonarPrev = s.sonarPrev := rfl
@[simp] theorem setTick_dec (s : State) (t : Nat) : (s.setTick t).dec = s.dec := rfl
@[simp] theorem setTick_rxq (s : State) (t : Nat) : (s.setTick t).rxq = s.rxq := rfl
@[simp] theorem setTick_chip (s : State) (t : Nat) : (s.setTick t).chip = s.chip := rfl
@[simp] theorem setTick_busTrace (s : State) (t : Nat) : (s.setTick t).busTrace = s.busTrace := rfl
@[simp] theorem setTick_serialOut (s : State) (t : Nat) : (s.setTick t).serialOut = s.serialOut := rfl
@[simp] theorem setTick_replies (s : State) (t : Nat) : (s.setTick t).replies = s.replies := rfl
@[simp] theorem setTick_results (s : State) (t : Nat) : (s.setTick t).results = s.results := rfl
@[simp] theorem setTick_events (s : State) (t : Nat) : (s.setTick t).events = s.events := rfl
@[simp] theorem setTick_peer (s : State) (t : Nat) : (s.setTick t).peer = s.peer := rfl
@[simp] theorem setTick_threads (s : State) (t : Nat) : (s.setTick t).threads = s.threads := rfl
@[simp] theorem setTick_nextCmd (s : State) (t : Nat) : (s.setTick t).nextCmd = s.nextCmd := rfl
@[simp] theorem setTick_initStarted (s : State) (t : Nat) : (s.setTick t).initStarted = s.initStarted := rfl
@[simp] theorem setTick_lastIrq (s : State) (t : Nat) : (s.setTick t).lastIrq = s.lastIrq := rfl
@[simp] theorem setTick_time (s : State) (t : Nat) : (s.setTick t).time = s.time := rfl
@[simp] theorem setTick_busIn (s : State) (t : Nat) : (s.setTick t).busIn = s.busIn := rfl
@[simp] theorem setTick_draws (s : State) (t : Nat) : (s.setTick t).draws = s.draws := rfl
@[simp] theorem setTick_slice (s : State) (t : Nat) : (s.setTick t).slice = s.slice := rfl
@[simp] theorem setTick_turns (s : State) (t : Nat) : (s.setTick t).turns = s.turns := rfl

/-! ### `decoded` -/

@[simp] theorem decoded_cfg (s : State) (q : Bytes) (d : DecRegs) : (s.decoded q d).cfg = s.cfg := rfl
@[simp] theorem decoded_drv (s : State) (q : Bytes) (d : DecRegs) : (s.decoded q d).drv = s.drv := rfl
@[simp] theorem decoded_out (s : State) (q : Bytes) (d : DecRegs) : (s.decoded q d).out = s.out := rfl
@[simp] theorem decoded_ch0 (s : State) (q : Bytes) (d : DecRegs) : (s.decoded q d).ch0 = s.ch0 := rfl
@[simp] theorem decoded_ch1 (s : State) (q : Bytes) (d : DecRegs) : (s.decoded q d).ch1 = s.ch1 := rfl
@[simp] theorem decoded_tick (s : State) (q : Bytes) (d : DecRegs) : (s.decoded q d).tick = s.tick := rfl
@[simp] theorem decoded_dist (s : State) (q : Bytes) (d : DecRegs) : (s.decoded q d).dist = s.dist := rfl
@[simp] theorem decoded_sonarState (s : State) (q : Bytes) (d : DecRegs) : (s.decoded q d).sonarState = s.sonarState := rfl
@[simp] theorem decoded_sonarT0 (s : State) (q : Bytes) (d : DecRegs) : (s.decoded q d).sonarT0 = s.sonarT0 := rfl
@[simp] theorem decoded_sonarPrev (s : State) (q : Bytes) (d : DecRegs) : (s.decoded q d).sonarPrev = s.sonarPrev := rfl
@[simp] theorem decoded_dec (s : State) (q : Bytes) (d : DecRegs) : (s.decoded q d).dec = d := rfl
@[simp] theorem decoded_rxq (s : State) (q : Bytes) (d : DecRegs) : (s.decoded q d).rxq = q := rfl
@[simp] theorem decoded_chip (s : State) (q : Bytes) (d : DecRegs) : (s.decoded q d).chip = s.chip := rfl
@[simp] theorem decoded_busTrace (s : State) (q : Bytes) (d : DecRegs) : (s.decoded q d).busTrace = s.busTrace := rfl
@[simp] theorem decoded_serialOut (s : State) (q : Bytes) (d : DecRegs) : (s.decoded q d).serialOut = s.serialOut := rfl
@[simp] theorem decoded_replies (s : State) (q : Bytes) (d : DecRegs) : (s.decoded q d).replies = s.replies := rfl
@[simp] theorem decoded_results (s : State) (q : Bytes) (d : DecRegs) : (s.decoded q d).results = s.results := rfl
@[simp] theorem decoded_events (s : State) (q : Bytes) (d : DecRegs) : (s.decoded q d).events = s.events := rfl
@[simp] theorem decoded_peer (s : State) (q : Bytes) (d : DecRegs) : (s.decoded q d).peer = s.peer := rfl
@[simp] theorem decoded_threads (s : State) (q : Bytes) (d : DecRegs) : (s.decoded q d).threads = s.threads := rfl
@[simp] theorem decoded_nextCmd (s : State) (q : Bytes) (d : DecRegs) : (s.decoded q d).nextCmd = s.nextCmd := rfl
@[simp] theorem decoded_initStarted (s : State) (q : Bytes) (d : DecRegs) : (s.decoded q d).initStarted = s.initStarted := rfl
@[simp] theorem decoded_lastIrq (s : State) (q : Bytes) (d : DecRegs) : (s.decoded q d).lastIrq = s.lastIrq := rfl
@[simp] theorem decoded_time (s : State) (q : Bytes) (d : DecRegs) : (s.decoded q d).time = s.time := rfl
@[simp] theorem decoded_busIn (s : State) (q : Bytes) (d : DecRegs) : (s.decoded q d).busIn = s.busIn := rfl
@[simp] theorem decoded_draws (s : State) (q : Bytes) (d : DecRegs) : (s.decoded q d).draws = s.draws := rfl
@[simp] theorem decoded_slice (s : State) (q : Bytes) (d : DecRegs) : (s.decoded q d).slice = s.slice := rfl
@[simp] theorem decoded_turns (s : State) (q : Bytes) (d : DecRegs) : (s.decoded q d).turns = s.turns := rfl

/-! ### `feedPeer` -/

@[simp] theorem feedPeer_cfg (s : State) (b : Byte) : (s.feedPeer b).cfg = s.cfg := rfl
@[simp] theorem feedPeer_drv (s : State) (b : Byte) : (s.feedPeer b).drv = s.drv := rfl
@[simp] theorem feedPeer_out (s : State) (b : Byte) : (s.feedPeer b).out = s.out := rfl
@[simp] theorem feedPeer_ch0 (s : State) (b : Byte) : (s.feedPeer b).ch0 = s.ch0 := rfl
@[simp] theorem feedPeer_ch1 (s : State) (b : Byte) : (s.feedPeer b).ch1 = s.ch1 := rfl
@[simp] theorem feedPeer_tick (s : State) (b : Byte) : (s.feedPeer b).tick = s.tick := rfl
@[simp] theorem feedPeer_dist (s : State) (b : Byte) : (s.feedPeer b).dist = s.dist := rfl
@[simp] theorem feedPeer_sonarState (s : State) (b : Byte) : (s.feedPeer b).sonarState = s.sonarState := rfl
@[simp] theorem feedPeer_sonarT0 (s : State) (b : Byte) : (s.feedPeer b).sonarT0 = s.sonarT0 := rfl
@[simp] theorem feedPeer_sonarPrev (s : State) (b : Byte) : (s.feedPeer b).sonarPrev = s.sonarPrev := rfl
@[simp] theorem feedPeer_dec (s : State) (b : Byte) : (s.feedPeer b).dec = s.dec := rfl
@[simp] theorem feedPeer_rxq (s : State) (b : Byte) : (s.feedPeer b).rxq = s.rxq := rfl
@[simp] theorem feedPeer_chip (s : State) (b : Byte) : (s.feedPeer b).chip = s.chip := rfl
@[simp] theorem feedPeer_busTrace (s : State) (b : Byte) : (s.feedPeer b).busTrace = s.busTrace := rfl
@[simp] theorem feedPeer_serialOut (s : State) (b : Byte) : (s.feedPeer b).serialOut = s.serialOut := rfl
@[simp] theorem feedPeer_replies (s : State) (b : Byte) : (s.feedPeer b).replies = s.replies := rfl
@[simp] theorem feedPeer_results (s : State) (b : Byte) : (s.feedPeer b).results = s.results := rfl
@[simp] theorem feedPeer_events (s : State) (b : Byte) : (s.feedPeer b).events = s.events := rfl
@[simp] theorem feedPeer_peer (s : State) (b : Byte) : (s.feedPeer b).peer = s.peer.feed b := rfl
@[simp] theorem feedPeer_threads (s : State) (b : Byte) : (s.feedPeer b).threads = s.threads := rfl
@[simp] theorem feedPeer_nextCmd (s : State) (b : Byte) : (s.feedPeer b).nextCmd = s.nextCmd := rfl
@[simp] theorem feedPeer_initStarted (s : State) (b : Byte) : (s.feedPeer b).initStarted = s.initStarted := rfl
@[simp] theorem feedPeer_lastIrq (s : State) (b : Byte) : (s.feedPeer b).lastIrq = s.lastIrq := rfl
@[simp] theorem feedPeer_time (s : State) (b : Byte) : (s.feedPeer b).time = s.time := rfl
@[simp] theorem feedPeer_busIn (s : State) (b : Byte) : (s.feedPeer b).busIn = s.busIn := rfl
@[simp] theorem feedPeer_draws (s : State) (b : Byte) : (s.feedPeer b).draws = s.draws := rfl
@[simp] theorem feedPeer_slice (s : State) (b : Byte) : (s.feedPeer b).slice = s.slice := rfl
@[simp] theorem feedPeer_turns (s : State) (b : Byte) : (s.feedPeer b).turns = s.turns := rfl

/-! ### `receive` -/

@[simp] theorem receive_cfg (s : State) (b : Byte) : (s.receive b).cfg = s.cfg := rfl
@[simp] theorem receive_drv (s : State) (b : Byte) : (s.receive b).drv = s.drv := rfl
@[simp] theorem receive_out (s : State) (b : Byte) : (s.receive b).out = s.out := rfl
@[simp] theorem receive_ch0 (s : State) (b : Byte) : (s.receive b).ch0 = s.ch0 := rfl
@[simp] theorem receive_ch1 (s : State) (b : Byte) : (s.receive b).ch1 = s.ch1 := rfl
@[simp] theorem receive_tick (s : State) (b : Byte) : (s.receive b).tick = s.tick := rfl
@[simp] theorem receive_dist (s : State) (b : Byte) : (s.receive b).dist = s.dist := rfl
@[simp] theorem receive_sonarState (s : State) (b : Byte) : (s.receive b).sonarState = s.sonarState := rfl
@[simp] theorem receive_sonarT0 (s : State) (b : Byte) : (s.receive b).sonarT0 = s.sonarT0 := rfl
@[simp] theorem receive_sonarPrev (s : State) (b : Byte) : (s.receive b).sonarPrev = s.sonarPrev := rfl
@[simp] theorem receive_dec (s : State) (b : Byte) : (s.receive b).dec = s.dec := rfl
@[simp] theorem receive_rxq (s : State) (b : Byte) : (s.receive b).rxq = s.rxq ++ [b] := rfl
@[simp] theorem receive_chip (s : State) (b : Byte) : (s.receive b).chip = s.chip := rfl
@[simp] theorem receive_busTrace (s : State) (b : Byte) : (s.receive b).busTrace = s.busTrace := rfl
@[simp] theorem receive_serialOut (s : State) (b : Byte) : (s.receive b).serialOut = s.serialOut := rfl
@[simp] theorem receive_replies (s : State) (b : Byte) : (s.receive b).replies = s.replies := rfl
@[simp] theorem receive_results (s : State) (b : Byte) : (s.receive b).results = s.results := rfl
@[simp] theorem receive_events (s : State) (b : Byte) : (s.receive b).events = s.events := rfl
@[simp] theorem receive_peer (s : State) (b : Byte) : (s.receive b).peer = s.peer := rfl
@[simp] theorem receive_threads (s : State) (b : Byte) : (s.receive b).threads = s.threads := rfl
@[simp] theorem receive_nextCmd (s : State) (b : Byte) : (s.receive b).nextCmd = s.nextCmd := rfl
@[simp] theorem receive_initStarted (s : State) (b : Byte) : (s.receive b).initStarted = s.initStarted := rfl
@[simp] theorem receive_lastIrq (s : State) (b : Byte) : (s.receive b).lastIrq = s.lastIrq := rfl
@[simp] theorem receive_time (s : State) (b : Byte) : (s.receive b).time = s.time := rfl
@[simp] theorem receive_busIn (s : State) (b : Byte) : (s.receive b).busIn = s.busIn := rfl
@[simp] theorem receive_draws (s : State) (b : Byte) : (s.receive b).draws = s.draws := rfl
@[simp] theorem receive_slice (s : State) (b : Byte) : (s.receive b).slice = s.slice := rfl
@[simp] theorem receive_turns (s : State) (b : Byte) : (s.receive b).turns = s.turns := rfl

/-! ### `startInit` -/

@[simp] theorem startInit_cfg (s : State) : (s.startInit).cfg = s.cfg := rfl
@[simp] theorem startInit_drv (s : State) : (s.startInit).drv = s.drv := rfl
@[simp] theorem startInit_out (s : State) : (s.startInit).out = s.out := rfl
@[simp] theorem startInit_ch0 (s : State) : (s.startInit).ch0 = s.ch0 := rfl
@[simp] theorem startInit_ch1 (s : State) : (s.startInit).ch1 = s.ch1 := rfl
@[simp] theorem startInit_tick (s : State) : (s.startInit).tick = s.tick := rfl
@[simp] theorem startInit_dist (s : State) : (s.startInit).dist = s.dist := rfl
@[simp] theorem startInit_sonarState (s : State) : (s.startInit).sonarState = s.sonarState := rfl
@[simp] theorem startInit_sonarT0 (s : State) : (s.startInit).sonarT0 = s.sonarT0 := rfl
@[simp] theorem startInit_sonarPrev (s : State) : (s.startInit).sonarPrev = s.sonarPrev := rfl
@[simp] theorem startInit_dec (s : State) : (s.startInit).dec = s.dec := rfl
@[simp] theorem startInit_rxq (s : State) : (s.startInit).rxq = s.rxq := rfl
@[simp] theorem startInit_chip (s : State) : (s.startInit).chip = s.chip := rfl
@[simp] theorem startInit_busTrace (s : State) : (s.startInit).busTrace = s.busTrace := rfl
@[simp] theorem startInit_serialOut (s : State) : (s.startInit).serialOut = s.serialOut := rfl
@[simp] theorem startInit_replies (s : State) : (s.startInit).replies = s.replies := rfl
@[simp] theorem startInit_results (s : State) : (s.startInit).results = s.results := rfl
@[simp] theorem startInit_events (s : State) : (s.startInit).events = s.events := rfl
@[simp] theorem startInit_peer (s : State) : (s.startInit).peer = s.peer := rfl
@[simp] theorem startInit_threads (s : State) : (s.startInit).threads = s.threads := rfl
@[simp] theorem startInit_nextCmd (s : State) : (s.startInit).nextCmd = s.nextCmd := rfl
@[simp] theorem startInit_initStarted (s : State) : (s.startInit).initStarted = true := rfl
@[simp] theorem startInit_lastIrq (s : State) : (s.startInit).lastIrq = s.lastIrq := rfl
@[simp] theorem startInit_time (s : State) : (s.startInit).time = s.time := rfl
@[simp] theorem startInit_busIn (s : State) : (s.startInit).busIn = s.busIn := rfl
@[simp] theorem startInit_draws (s : State) : (s.startInit).draws = s.draws := rfl
@[simp] theorem startInit_slice (s : State) : (s.startInit).slice = s.slice := rfl
@[simp] theorem startInit_turns (s : State) : (s.startInit).turns = s.turns := rfl

/-! ### `acceptEdge` -/

@[simp] theorem acceptEdge_cfg (s : State) : (s.acceptEdge).cfg = s.cfg := rfl
@[simp] theorem acceptEdge_drv (s : State) : (s.acceptEdge).drv = s.drv := rfl
@[simp] theorem acceptEdge_out (s : State) : (s.acceptEdge).out = s.out := rfl
@[simp] theorem acceptEdge_ch0 (s : State) : (s.acceptEdge).ch0 = s.ch0 := rfl
@[simp] theorem acceptEdge_ch1 (s : State) : (s.acceptEdge).ch1 = s.ch1 := rfl
@[simp] theorem acceptEdge_tick (s : State) : (s.acceptEdge).tick = s.tick := rfl
@[simp] theorem acceptEdge_dist (s : State) : (s.acceptEdge).dist = s.dist := rfl
@[simp] theorem acceptEdge_sonarState (s : State) : (s.acceptEdge).sonarState = s.sonarState := rfl
@[simp] theorem acceptEdge_sonarT0 (s : State) : (s.acceptEdge).sonarT0 = s.sonarT0 := rfl
@[simp] theorem acceptEdge_sonarPrev (s : State) : (s.acceptEdge).sonarPrev = s.sonarPrev := rfl
@[simp] theorem acceptEdge_dec (s : State) : (s.acceptEdge).dec = s.dec := rfl
@[simp] theorem acceptEdge_rxq (s : State) : (s.acceptEdge).rxq = s.rxq := rfl
@[simp] theorem acceptEdge_chip (s : State) : (s.acceptEdge).chip = s.chip := rfl
@[simp] theorem acceptEdge_busTrace (s : State) : (s.acceptEdge).busTrace = s.busTrace := rfl
@[simp] theorem acceptEdge_serialOut (s : State) : (s.acceptEdge).serialOut = s.serialOut := rfl
@[simp] theorem acceptEdge_replies (s : State) : (s.acceptEdge).replies = s.replies := rfl
@[simp] theorem acceptEdge_results (s : State) : (s.acceptEdge).results = s.results := rfl
@[simp] theorem acceptEdge_events (s : State) : (s.acceptEdge).events = s.events := rfl
@[simp] theorem acceptEdge_peer (s : State) : (s.acceptEdge).peer = s.peer := rfl
@[simp] theorem acceptEdge_threads (s : State) : (s.acceptEdge).threads = s.threads := rfl
@[simp] theorem acceptEdge_nextCmd (s : State) : (s.acceptEdge).nextCmd = s.nextCmd := rfl
@[simp] theorem acceptEdge_initStarted (s : State) : (s.acceptEdge).initStarted = s.initStarted := rfl
@[simp] theorem acceptEdge_lastIrq (s : State) : (s.acceptEdge).lastIrq = some s.time := rfl
@[simp] theorem acceptEdge_time (s : State) : (s.acceptEdge).time = s.time := rfl
@[simp] theorem acceptEdge_busIn (s : State) : (s.acceptEdge).busIn = s.busIn := rfl
@[simp] theorem acceptEdge_draws (s : State) : (s.acceptEdge).draws = s.draws := rfl
@[simp] theorem acceptEdge_slice (s : State) : (s.acceptEdge).slice = s.slice := rfl
@[simp] theorem acceptEdge_turns (s : State) : (s.acceptEdge).turns = s.turns := rfl

/-! ### `newCaller` -/

@[simp] theorem newCaller_cfg (s : State) : (s.newCaller).cfg = s.cfg := rfl
@[simp] theorem newCaller_drv (s : State) : (s.newCaller).drv = s.drv := rfl
@[simp] theorem newCaller_out (s : State) : (s.newCaller).out = s.out := rfl
@[simp] theorem newCaller_ch0 (s : State) : (s.newCaller).ch0 = s.ch0 := rfl
@[simp] theorem newCaller_ch1 (s : State) : (s.newCaller).ch1 = s.ch1 := rfl
@[simp] theorem newCaller_tick (s : State) : (s.newCaller).tick = s.tick := rfl
@[simp] theorem newCaller_dist (s : State) : (s.newCaller).dist = s.dist := rfl
@[simp] theorem newCaller_sonarState (s : State) : (s.newCaller).sonarState = s.sonarState := rfl
@[simp] theorem newCaller_sonarT0 (s : State) : (s.newCaller).sonarT0 = s.sonarT0 := rfl
@[simp] theorem newCaller_sonarPrev (s : State) : (s.newCaller).sonarPrev = s.sonarPrev := rfl
@[simp] theorem newCaller_dec (s : State) : (s.newCaller).dec = s.dec := rfl
@[simp] theorem newCaller_rxq (s : State) : (s.newCaller).rxq = s.rxq := rfl
@[simp] theorem newCaller_chip (s : State) : (s.newCaller).chip = s.chip := rfl
@[simp] theorem newCaller_busTrace (s : State) : (s.newCaller).busTrace = s.busTrace := rfl
@[simp] theorem newCaller_serialOut (s : State) : (s.newCaller).serialOut = s.serialOut := rfl
@[simp] theorem newCaller_replies (s : State) : (s.newCaller).replies = s.replies := rfl
@[simp] theorem newCaller_results (s : State) : (s.newCaller).results = s.results := rfl
@[simp] theorem newCaller_events (s : State) : (s.newCaller).events = s.events := rfl
@[simp] theorem newCaller_peer (s : State) : (s.newCaller).peer = s.peer := rfl
@[simp] theorem newCaller_threads (s : State) : (s.newCaller).threads = s.threads := rfl
@[simp] theorem newCaller_nextCmd (s : State) : (s.newCaller).nextCmd = s.nextCmd + 1 := rfl
@[simp] theorem newCaller_initStarted (s : State) : (s.newCaller).initStarted = s.initStarted := rfl
@[simp] theorem newCaller_lastIrq (s : State) : (s.newCaller).lastIrq = s.lastIrq := rfl
@[simp] theorem newCaller_time (s : State) : (s.newCaller).time = s.time := rfl
@[simp] theorem newCaller_busIn (s : State) : (s.newCaller).busIn = s.busIn := rfl
@[simp] theorem newCaller_draws (s : State) : (s.newCaller).draws = s.draws := rfl
@[simp] theorem newCaller_slice (s : State) : (s.newCaller).slice = s.slice := rfl
@[simp] theorem newCaller_turns (s : State) : (s.newCaller).turns = s.turns := rfl

/-! ### `takeUp` -/

@[simp] theorem takeUp_cfg (s : State) (a : AgentId) : (s.takeUp a).cfg = s.cfg := rfl
@[simp] theorem takeUp_drv (s : State) (a : AgentId) : (s.takeUp a).drv = s.drv := rfl
@[simp] theorem takeUp_out (s : State) (a : AgentId) : (s.takeUp a).out = s.out := rfl
@[simp] theorem takeUp_ch0 (s : State) (a : AgentId) : (s.takeUp a).ch0 = s.ch0 := rfl
@[simp] theorem takeUp_ch1 (s : State) (a : AgentId) : (s.takeUp a).ch1 = s.ch1 := rfl
@[simp] theorem takeUp_tick (s : State) (a : AgentId) : (s.takeUp a).tick = s.tick := rfl
@[simp] theorem takeUp_dist (s : State) (a : AgentId) : (s.takeUp a).dist = s.dist := rfl
@[simp] theorem takeUp_sonarState (s : State) (a : AgentId) : (s.takeUp a).sonarState = s.sonarState := rfl
@[simp] theorem takeUp_sonarT0 (s : State) (a : AgentId) : (s.takeUp a).sonarT0 = s.sonarT0 := rfl
@[simp] theorem takeUp_sonarPrev (s : State) (a : AgentId) : (s.takeUp a).sonarPrev = s.sonarPrev := rfl
@[simp] theorem takeUp_dec (s : State) (a : AgentId) : (s.takeUp a).dec = s.dec := rfl
@[simp] theorem takeUp_rxq (s : State) (a : AgentId) : (s.takeUp a).rxq = s.rxq := rfl
@[simp] theorem takeUp_chip (s : State) (a : AgentId) : (s.takeUp a).chip = s.chip := rfl
@[simp] theorem takeUp_busTrace (s : State) (a : AgentId) : (s.takeUp a).busTrace = s.busTrace := rfl
@[simp] theorem takeUp_serialOut (s : State) (a : AgentId) : (s.takeUp a).serialOut = s.serialOut := rfl
@[simp] theorem takeUp_replies (s : State) (a : AgentId) : (s.takeUp a).replies = s.replies := rfl
@[simp] theorem takeUp_results (s : State) (a : AgentId) : (s.takeUp a).results = s.results := rfl
@[simp] theorem takeUp_events (s : State) (a : AgentId) : (s.takeUp a).events = s.events := rfl
@[simp] theorem takeUp_peer (s : State) (a : AgentId) : (s.takeUp a).peer = s.peer := rfl
@[simp] theorem takeUp_threads (s : State) (a : AgentId) : (s.takeUp a).threads = Assoc.erase s.threads a.key := rfl
@[simp] theorem takeUp_nextCmd (s : State) (a : AgentId) : (s.takeUp a).nextCmd = s.nextCmd := rfl
@[simp] theorem takeUp_initStarted (s : State) (a : AgentId) : (s.takeUp a).initStarted = s.initStarted := rfl
@[simp] theorem takeUp_lastIrq (s : State) (a : AgentId) : (s.takeUp a).lastIrq = s.lastIrq := rfl
@[simp] theorem takeUp_time (s : State) (a : AgentId) : (s.takeUp a).time = s.time := rfl
@[simp] theorem takeUp_busIn (s : State) (a : AgentId) : (s.takeUp a).busIn = s.busIn := rfl
@[simp] theorem takeUp_draws (s : State) (a : AgentId) : (s.takeUp a).draws = s.draws := rfl
@[simp] theorem takeUp_slice (s : State) (a : AgentId) : (s.takeUp a).slice = s.slice := rfl
@[simp] theorem takeUp_turns (s : State) (a : AgentId) : (s.takeUp a).turns = s.turns := rfl

/-! ### `send` -/

@[simp] theorem send_cfg (s : State) (b : Bytes) : (s.send b).cfg = s.cfg := rfl
@[simp] theorem send_drv (s : State) (b : Bytes) : (s.send b).drv = s.drv := rfl
@[simp] theorem send_out (s : State) (b : Bytes) : (s.send b).out = s.out := rfl
@[simp] theorem send_ch0 (s : State) (b : Bytes) : (s.send b).ch0 = s.ch0 := rfl
@[simp] theorem send_ch1 (s : State) (b : Bytes) : (s.send b).ch1 = s.ch1 := rfl
@[simp] theorem send_tick (s : State) (b : Bytes) : (s.send b).tick = s.tick := rfl
@[simp] theorem send_dist (s : State) (b : Bytes) : (s.send b).dist = s.dist := rfl
@[simp] theorem send_sonarState (s : State) (b : Bytes) : (s.send b).sonarState = s.sonarState := rfl
@[simp] theorem send_sonarT0 (s : State) (b : Bytes) : (s.send b).sonarT0 = s.sonarT0 := rfl
@[simp] theorem send_sonarPrev (s : State) (b : Bytes) : (s.send b).sonarPrev = s.sonarPrev := rfl
@[simp] theorem send_dec (s : State) (b : Bytes) : (s.send b).dec = s.dec := rfl
@[simp] theorem send_rxq (s : State) (b : Bytes) : (s.send b).rxq = s.rxq := rfl
@[simp] theorem send_chip (s : State) (b : Bytes) : (s.send b).chip = s.chip := rfl
@[simp] theorem send_busTrace (s : State) (b : Bytes) : (s.send b).busTrace = s.busTrace := rfl
@[simp] theorem send_serialOut (s : State) (b : Bytes) : (s.send b).serialOut = s.serialOut ++ b := rfl
@[simp] theorem send_replies (s : State) (b : Bytes) : (s.send b).replies = s.replies := rfl
@[simp] theorem send_results (s : State) (b : Bytes) : (s.send b).results = s.results := rfl
@[simp] theorem send_events (s : State) (b : Bytes) : (s.send b).events = s.events := rfl
@[simp] theorem send_peer (s : State) (b : Bytes) : (s.send b).peer = s.peer := rfl
@[simp] theorem send_threads (s : State) (b : Bytes) : (s.send b).threads = s.threads := rfl
@[simp] theorem send_nextCmd (s : State) (b : Bytes) : (s.send b).nextCmd = s.nextCmd := rfl
@[simp] theorem send_initStarted (s : State) (b : Bytes) : (s.send b).initStarted = s.initStarted := rfl
@[simp] theorem send_lastIrq (s : State) (b : Bytes) : (s.send b).lastIrq = s.lastIrq := rfl
@[simp] theorem send_time (s : State) (b : Bytes) : (s.send b).time = s.time := rfl
@[simp] theorem send_busIn (s : State) (b : Bytes) : (s.send b).busIn = s.busIn := rfl
@[simp] theorem send_draws (s : State) (b : Bytes) : (s.send b).draws = s.draws := rfl
@[simp] theorem send_slice (s : State) (b : Bytes) : (s.send b).slice = s.slice := rfl
@[simp] theorem send_turns (s : State) (b : Bytes) : (s.send b).turns = s.turns := rfl

/-! ### `emit` -/

@[simp] theorem emit_cfg (s : State) (e : Event) : (s.emit e).cfg = s.cfg := rfl
@[simp] theorem emit_drv (s : State) (e : Event) : (s.emit e).drv = s.drv := rfl
@[simp] theorem emit_out (s : State) (e : Event) : (s.emit e).out = s.out := rfl
@[simp] theorem emit_ch0 (s : State) (e : Event) : (s.emit e).ch0 = s.ch0 := rfl
@[simp] theorem emit_ch1 (s : State) (e : Event) : (s.emit e).ch1 = s.ch1 := rfl
@[simp] theorem emit_tick (s : State) (e : Event) : (s.emit e).tick = s.tick := rfl
@[simp] theorem emit_dist (s : State) (e : Event) : (s.emit e).dist = s.dist := rfl
@[simp] theorem emit_sonarState (s : State) (e : Event) : (s.emit e).sonarState = s.sonarState := rfl
@[simp] theorem emit_sonarT0 (s : State) (e : Event) : (s.emit e).sonarT0 = s.sonarT0 := rfl
@[simp] theorem emit_sonarPrev (s : State) (e : Event) : (s.emit e).sonarPrev = s.sonarPrev := rfl
@[simp] theorem emit_dec (s : State) (e : Event) : (s.emit e).dec = s.dec := rfl
@[simp] theorem emit_rxq (s : State) (e : Event) : (s.emit e).rxq = s.rxq := rfl
@[simp] theorem emit_chip (s : State) (e : Event) : (s.emit e).chip = s.chip := rfl
@[simp] theorem emit_busTrace (s : State) (e : Event) : (s.emit e).busTrace = s.busTrace := rfl
@[simp] theorem emit_serialOut (s : State) (e : Event) : (s.emit e).serialOut = s.serialOut := rfl
@[simp] theorem emit_replies (s : State) (e : Event) : (s.emit e).replies = s.replies := rfl
@[simp] theorem emit_results (s : State) (e : Event) : (s.emit e).results = s.results := rfl
@[simp] theorem emit_events (s : State) (e : Event) : (s.emit e).events = s.events ++ [e] := rfl
@[simp] theorem emit_peer (s : State) (e : Event) : (s.emit e).peer = s.peer := rfl
@[simp] theorem emit_threads (s : State) (e : Event) : (s.emit e).threads = s.threads := rfl
@[simp] theorem emit_nextCmd (s : State) (e : Event) : (s.emit e).nextCmd = s.nextCmd := rfl
@[simp] theorem emit_initStarted (s : State) (e : Event) : (s.emit e).initStarted = s.initStarted := rfl
@[simp] theorem emit_lastIrq (s : State) (e : Event) : (s.emit e).lastIrq = s.lastIrq := rfl
@[simp] theorem emit_time (s : State) (e : Event) : (s.emit e).time = s.time := rfl
@[simp] theorem emit_busIn (s : State) (e : Event) : (s.emit e).busIn = s.busIn := rfl
@[simp] theorem emit_draws (s : State) (e : Event) : (s.emit e).draws = s.draws := rfl
@[simp] theorem emit_slice (s : State) (e : Event) : (s.emit e).slice = s.slice := rfl
@[simp] theorem emit_turns (s : State) (e : Event) : (s.emit e).turns = s.turns := rfl

/-! ### `beginTurn` -/

@[simp] theorem beginTurn_cfg (s : State) (t : Turn) (r : List Turn) : (s.beginTurn t r).cfg = s.cfg := rfl
@[simp] theorem beginTurn_drv (s : State) (t : Turn) (r : List Turn) : (s.beginTurn t r).drv = s.drv := rfl
@[simp] theorem beginTurn_out (s : State) (t : Turn) (r : List Turn) : (s.beginTurn t r).out = s.out := rfl
@[simp] theorem beginTurn_ch0 (s : State) (t : Turn) (r : List Turn) : (s.beginTurn t r).ch0 = s.ch0 := rfl
@[simp] theorem beginTurn_ch1 (s : State) (t : Turn) (r : List Turn) : (s.beginTurn t r).ch1 = s.ch1 := rfl
@[simp] theorem beginTurn_tick (s : State) (t : Turn) (r : List Turn) : (s.beginTurn t r).tick = s.tick := rfl
@[simp] theorem beginTurn_dist (s : State) (t : Turn) (r : List Turn) : (s.beginTurn t r).dist = s.dist := rfl
@[simp] theorem beginTurn_sonarState (s : State) (t : Turn) (r : List Turn) : (s.beginTurn t r).sonarState = s.sonarState := rfl
@[simp] theorem beginTurn_sonarT0 (s : State) (t : Turn) (r : List Turn) : (s.beginTurn t r).sonarT0 = s.sonarT0 := rfl
@[simp] theorem beginTurn_sonarPrev (s : State) (t : Turn) (r : List Turn) : (s.beginTurn t r).sonarPrev = s.sonarPrev := rfl
@[simp] theorem beginTurn_dec (s : State) (t : Turn) (r : List Turn) : (s.beginTurn t r).dec = s.dec := rfl
@[simp] theorem beginTurn_rxq (s : State) (t : Turn) (r : List Turn) : (s.beginTurn t r).rxq = s.rxq := rfl
@[simp] theorem beginTurn_chip (s : State) (t : Turn) (r : List Turn) : (s.beginTurn t r).chip = s.chip := rfl
@[simp] theorem beginTurn_busTrace (s : State) (t : Turn) (r : List Turn) : (s.beginTurn t r).busTrace = s.busTrace := rfl
@[simp] theorem beginTurn_serialOut (s : State) (t : Turn) (r : List Turn) : (s.beginTurn t r).serialOut = s.serialOut := rfl
@[simp] theorem beginTurn_replies (s : State) (t : Turn) (r : List Turn) : (s.beginTurn t r).replies = s.replies := rfl
@[simp] theorem beginTurn_results (s : State) (t : Turn) (r : List Turn) : (s.beginTurn t r).results = s.results := rfl
@[simp] theorem beginTurn_events (s : State) (t : Turn) (r : List Turn) : (s.beginTurn t r).events = s.events := rfl
@[simp] theorem beginTurn_peer (s : State) (t : Turn) (r : List Turn) : (s.beginTurn t r).peer = s.peer := rfl
@[simp] theorem beginTurn_threads (s : State) (t : Turn) (r : List Turn) : (s.beginTurn t r).threads = s.threads := rfl
@[simp] theorem beginTurn_nextCmd (s : State) (t : Turn) (r : List Turn) : (s.beginTurn t r).nextCmd = s.nextCmd := rfl
@[simp] theorem beginTurn_initStarted (s : State) (t : Turn) (r : List Turn) : (s.beginTurn t r).initStarted = s.initStarted := rfl
@[simp] theorem beginTurn_lastIrq (s : State) (t : Turn) (r : List Turn) : (s.beginTurn t r).lastIrq = s.lastIrq := rfl
@[simp] theorem beginTurn_time (s : State) (t : Turn) (r : List Turn) : (s.beginTurn t r).time = t.time := rfl
@[simp] theorem beginTurn_busIn (s : State) (t : Turn) (r : List Turn) : (s.beginTurn t r).busIn = s.busIn := rfl
@[simp] theorem beginTurn_draws (s : State) (t : Turn) (r : List Turn) : (s.beginTurn t r).draws = s.draws := rfl
@[simp] theorem beginTurn_slice (s : State) (t : Turn) (r : List Turn) : (s.beginTurn t r).slice = t.slice := rfl
@[simp] theorem beginTurn_turns (s : State) (t : Turn) (r : List Turn) : (s.beginTurn t r).turns = r := rfl

/-! ### `busWrite` -/

@[simp] theorem busWrite_cfg (s : State) (reg v : Byte) : (s.busWrite reg v).cfg = s.cfg := by
  unfold State.busWrite; split <;> rfl
@[simp] theorem busWrite_drv (s : State) (reg v : Byte) : (s.busWrite reg v).drv = s.drv := by
  unfold State.busWrite; split <;> rfl
@[simp] theorem busWrite_out (s : State) (reg v : Byte) : (s.busWrite reg v).out = s.out := by
  unfold State.busWrite; split <;> rfl
@[simp] theorem busWrite_ch0 (s : State) (reg v : Byte) : (s.busWrite reg v).ch0 = s.ch0 := by
  unfold State.busWrite; split <;> rfl
@[simp] theorem busWrite_ch1 (s : State) (reg v : Byte) : (s.busWrite reg v).ch1 = s.ch1 := by
  unfold State.busWrite; split <;> rfl
@[simp] theorem busWrite_tick (s : State) (reg v : Byte) : (s.busWrite reg v).tick = s.tick := by
  unfold State.busWrite; split <;> rfl
@[simp] theorem busWrite_dist (s : State) (reg v : Byte) : (s.busWrite reg v).dist = s.dist := by
  unfold State.busWrite; split <;> rfl
@[simp] theorem busWrite_sonarState (s : State) (reg v : Byte) : (s.busWrite reg v).sonarState = s.sonarState := by
  unfold State.busWrite; split <;> rfl
@[simp] theorem busWrite_sonarT0 (s : State) (reg v : Byte) : (s.busWrite reg v).sonarT0 = s.sonarT0 := by
  unfold State.busWrite; split <;> rfl
@[simp] theorem busWrite_sonarPrev (s : State) (reg v : Byte) : (s.busWrite reg v).sonarPrev = s.sonarPrev := by
  unfold State.busWrite; split <;> rfl
@[simp] theorem busWrite_dec (s : State) (reg v : Byte) : (s.busWrite reg v).dec = s.dec := by
  unfold State.busWrite; split <;> rfl
@[simp] theorem busWrite_rxq (s : State) (reg v : Byte) : (s.busWrite reg v).rxq = s.rxq := by
  unfold State.busWrite; split <;> rfl
@[simp] theorem busWrite_serialOut (s : State) (reg v : Byte) : (s.busWrite reg v).serialOut = s.serialOut := by
  unfold State.busWrite; split <;> rfl
@[simp] theorem busWrite_replies (s : State) (reg v : Byte) : (s.busWrite reg v).replies = s.replies := by
  unfold State.busWrite; split <;> rfl
@[simp] theorem busWrite_results (s : State) (reg v : Byte) : (s.busWrite reg v).results = s.results := by
  unfold State.busWrite; split <;> rfl
@[simp] theorem busWrite_events (s : State) (reg v : Byte) : (s.busWrite reg v).events = s.events := by
  unfold State.busWrite; split <;> rfl
@[simp] theorem busWrite_peer (s : State) (reg v : Byte) : (s.busWrite reg v).peer = s.peer := by
  unfold State.busWrite; split <;> rfl
@[simp] theorem busWrite_threads (s : State) (reg v : Byte) : (s.busWrite reg v).threads = s.threads := by
  unfold State.busWrite; split <;> rfl
@[simp] theorem busWrite_nextCmd (s : State) (reg v : Byte) : (s.busWrite reg v).nextCmd = s.nextCmd := by
  unfold State.busWrite; split <;> rfl
@[simp] theorem busWrite_initStarted (s : State) (reg v : Byte) : (s.busWrite reg v).initStarted = s.initStarted := by
  unfold State.busWrite; split <;> rfl
@[simp] theorem busWrite_lastIrq (s : State) (reg v : Byte) : (s.busWrite reg v).lastIrq = s.lastIrq := by
  unfold State.busWrite; split <;> rfl
@[simp] theorem busWrite_time (s : State) (reg v : Byte) : (s.busWrite reg v).time = s.time := by
  unfold State.busWrite; split <;> rfl
@[simp] theorem busWrite_busIn (s : State) (reg v : Byte) : (s.busWrite reg v).busIn = s.busIn := by
  unfold State.busWrite; split <;> rfl
@[simp] theorem busWrite_draws (s : State) (reg v : Byte) : (s.busWrite reg v).draws = s.draws := by
  unfold State.busWrite; split <;> rfl
@[simp] theorem busWrite_slice (s : State) (reg v : Byte) : (s.busWrite reg v).slice = s.slice := by
  unfold State.busWrite; split <;> rfl
@[simp] theorem busWrite_turns (s : State) (reg v : Byte) : (s.busWrite reg v).turns = s.turns := by
  unfold State.busWrite; split <;> rfl

/-! ### `setChannel` -/

@[simp] theorem setChannel_cfg (s : State) (c : Channel) (r : ChannelRec) : (s.setChannel c r).cfg = s.cfg := by
  unfold State.setChannel; split <;> rfl
@[simp] theorem setChannel_drv (s : State) (c : Channel) (r : ChannelRec) : (s.setChannel c r).drv = s.drv := by
  unfold State.setChannel; split <;> rfl
@[simp] theorem setChannel_out (s : State) (c : Channel) (r : ChannelRec) : (s.setChannel c r).out = s.out := by
  unfold State.setChannel; split <;> rfl
@[simp] theorem setChannel_tick (s : State) (c : Channel) (r : ChannelRec) : (s.setChannel c r).tick = s.tick := by
  unfold State.setChannel; split <;> rfl
@[simp] theorem setChannel_dist (s : State) (c : Channel) (r : ChannelRec) : (s.setChannel c r).dist = s.dist := by
  unfold State.setChannel; split <;> rfl
@[simp] theorem setChannel_sonarState (s : State) (c : Channel) (r : ChannelRec) : (s.setChannel c r).sonarState = s.sonarState := by
  unfold State.setChannel; split <;> rfl
@[simp] theorem setChannel_sonarT0 (s : State) (c : Channel) (r : ChannelRec) : (s.setChannel c r).sonarT0 = s.sonarT0 := by
  unfold State.setChannel; split <;> rfl
@[simp] theorem setChannel_sonarPrev (s : State) (c : Channel) (r : ChannelRec) : (s.setChannel c r).sonarPrev = s.sonarPrev := by
  unfold State.setChannel; split <;> rfl
@[simp] theorem setChannel_dec (s : State) (c : Channel) (r : ChannelRec) : (s.setChannel c r).dec = s.dec := by
  unfold State.setChannel; split <;> rfl
@[simp] theorem setChannel_rxq (s : State) (c : Channel) (r : ChannelRec) : (s.setChannel c r).rxq = s.rxq := by
  unfold State.setChannel; split <;> rfl
@[simp] theorem setChannel_chip (s : State) (c : Channel) (r : ChannelRec) : (s.setChannel c r).chip = s.chip := by
  unfold State.setChannel; split <;> rfl
@[simp] theorem setChannel_busTrace (s : State) (c : Channel) (r : ChannelRec) : (s.setChannel c r).busTrace = s.busTrace := by
  unfold State.setChannel; split <;> rfl
@[simp] theorem setChannel_serialOut (s : State) (c : Channel) (r : ChannelRec) : (s.setChannel c r).serialOut = s.serialOut := by
  unfold State.setChannel; split <;> rfl
@[simp] theorem setChannel_replies (s : State) (c : Channel) (r : ChannelRec) : (s.setChannel c r).replies = s.replies := by
  unfold State.setChannel; split <;> rfl
@[simp] theorem setChannel_results (s : State) (c : Channel) (r : ChannelRec) : (s.setChannel c r).results = s.results := by
  unfold State.setChannel; split <;> rfl
@[simp] theorem setChannel_events (s : State) (c : Channel) (r : ChannelRec) : (s.setChannel c r).events = s.events := by
  unfold State.setChannel; split <;> rfl
@[simp] theorem setChannel_peer (s : State) (c : Channel) (r : ChannelRec) : (s.setChannel c r).peer = s.peer := by
  unfold State.setChannel; split <;> rfl
@[simp] theorem setChannel_threads (s : State) (c : Channel) (r : ChannelRec) : (s.setChannel c r).threads = s.threads := by
  unfold State.setChannel; split <;> rfl
@[simp] theorem setChannel_nextCmd (s : State) (c : Channel) (r : ChannelRec) : (s.setChannel c r).nextCmd = s.nextCmd := by
  unfold State.setChannel; split <;> rfl
@[simp] theorem setChannel_initStarted (s : State) (c : Channel) (r : ChannelRec) : (s.setChannel c r).initStarted = s.initStarted := by
  unfold State.setChannel; split <;> rfl
@[simp] theorem setChannel_lastIrq (s : State) (c : Channel) (r : ChannelRec) : (s.setChannel c r).lastIrq = s.lastIrq := by
  unfold State.setChannel; split <;> rfl
@[simp] theorem setChannel_time (s : State) (c : Channel) (r : ChannelRec) : (s.setChannel c r).time = s.time := by
  unfold State.setChannel; split <;> rfl
@[simp] theorem setChannel_busIn (s : State) (c : Channel) (r : ChannelRec) : (s.setChannel c r).busIn = s.busIn := by
  unfold State.setChannel; split <;> rfl
@[simp] theorem setChannel_draws (s : State) (c : Channel) (r : ChannelRec) : (s.setChannel c r).draws = s.draws := by
  unfold State.setChannel; split <;> rfl
@[simp] theorem setChannel_slice (s : State) (c : Channel) (r : ChannelRec) : (s.setChannel c r).slice = s.slice := by
  unfold State.setChannel; split <;> rfl
@[simp] theorem setChannel_turns (s : State) (c : Channel) (r : ChannelRec) : (s.setChannel c r).turns = s.turns := by
  unfold State.setChannel; split <;> rfl

/-! ### `writeDirection` -/

@[simp] theorem writeDirection_cfg (s : State) (c : Channel) (d : Direction) : (s.writeDirection c d).cfg = s.cfg := by
  simp [State.writeDirection]
@[simp] theorem writeDirection_drv (s : State) (c : Channel) (d : Direction) : (s.writeDirection c d).drv = s.drv := by
  simp [State.writeDirection]
@[simp] theorem writeDirection_out (s : State) (c : Channel) (d : Direction) : (s.writeDirection c d).out = s.out := by
  simp [State.writeDirection]
@[simp] theorem writeDirection_tick (s : State) (c : Channel) (d : Direction) : (s.writeDirection c d).tick = s.tick := by
  simp [State.writeDirection]
@[simp] theorem writeDirection_dist (s : State) (c : Channel) (d : Direction) : (s.writeDirection c d).dist = s.dist := by
  simp [State.writeDirection]
@[simp] theorem writeDirection_sonarState (s : State) (c : Channel) (d : Direction) : (s.writeDirection c d).sonarState = s.sonarState := by
  simp [State.writeDirection]
@[simp] theorem writeDirection_sonarT0 (s : State) (c : Channel) (d : Direction) : (s.writeDirection c d).sonarT0 = s.sonarT0 := by
  simp [State.writeDirection]
@[simp] theorem writeDirection_sonarPrev (s : State) (c : Channel) (d : Direction) : (s.writeDirection c d).sonarPrev = s.sonarPrev := by
  simp [State.writeDirection]
@[simp] theorem writeDirection_dec (s : State) (c : Channel) (d : Direction) : (s.writeDirection c d).dec = s.dec := by
  simp [State.writeDirection]
@[simp] theorem writeDirection_rxq (s : State) (c : Channel) (d : Direction) : (s.writeDirection c d).rxq = s.rxq := by
  simp [State.writeDirection]
@[simp] theorem writeDirection_chip (s : State) (c : Channel) (d : Direction) : (s.writeDirection c d).chip = s.chip := by
  simp [State.writeDirection]
@[simp] theorem writeDirection_busTrace (s : State) (c : Channel) (d : Direction) : (s.writeDirection c d).busTrace = s.busTrace := by
  simp [State.writeDirection]
@[simp] theorem writeDirection_serialOut (s : State) (c : Channel) (d : Direction) : (s.writeDirection c d).serialOut = s.serialOut := by
  simp [State.writeDirection]
@[simp] theorem writeDirection_replies (s : State) (c : Channel) (d : Direction) : (s.writeDirection c d).replies = s.replies := by
  simp [State.writeDirection]
@[simp] theorem writeDirection_results (s : State) (c : Channel) (d : Direction) : (s.writeDirection c d).results = s.results := by
  simp [State.writeDirection]
@[simp] theorem writeDirection_events (s : State) (c : Channel) (d : Direction) : (s.writeDirection c d).events = s.events := by
  simp [State.writeDirection]
@[simp] theorem writeDirection_peer (s : State) (c : Channel) (d : Direction) : (s.writeDirection c d).peer = s.peer := by
  simp [State.writeDirection]
@[simp] theorem writeDirection_threads (s : State) (c : Channel) (d : Direction) : (s.writeDirection c d).threads = s.threads := by
  simp [State.writeDirection]
@[simp] theorem writeDirection_nextCmd (s : State) (c : Channel) (d : Direction) : (s.writeDirection c d).nextCmd = s.nextCmd := by
  simp [State.writeDirection]
@[simp] theorem writeDirection_initStarted (s : State) (c : Channel) (d : Direction) : (s.writeDirection c d).initStarted = s.initStarted := by
  simp [State.writeDirection]
@[simp] theorem writeDirection_lastIrq (s : State) (c : Channel) (d : Direction) : (s.writeDirection c d).lastIrq = s.lastIrq := by
  simp [State.writeDirection]
@[simp] theorem writeDirection_time (s : State) (c : Channel) (d : Direction) : (s.writeDirection c d).time = s.time := by
  simp [State.writeDirection]
@[simp] theorem writeDirection_busIn (s : State) (c : Channel) (d : Direction) : (s.writeDirection c d).busIn = s.busIn := by
  simp [State.writeDirection]
@[simp] theorem writeDirection_draws (s : State) (c : Channel) (d : Direction) : (s.writeDirection c d).draws = s.draws := by
  simp [State.writeDirection]
@[simp] theorem writeDirection_slice (s : State) (c : Channel) (d : Direction) : (s.writeDirection c d).slice = s.slice := by
  simp [State.writeDirection]
@[simp] theorem writeDirection_turns (s : State) (c : Channel) (d : Direction) : (s.writeDirection c d).turns = s.turns := by
  simp [State.writeDirection]

/-! ### `writePower` -/

@[simp] theorem writePower_cfg (s : State) (c : Channel) (p : Int) : (s.writePower c p).cfg = s.cfg := by
  simp [State.writePower]
@[simp] theorem writePower_drv (s : State) (c : Channel) (p : Int) : (s.writePower c p).drv = s.drv := by
  simp [State.writePower]
@[simp] theorem writePower_out (s : State) (c : Channel) (p : Int) : (s.writePower c p).out = s.out := by
  simp [State.writePower]
@[simp] theorem writePower_tick (s : State) (c : Channel) (p : Int) : (s.writePower c p).tick = s.tick := by
  simp [State.writePower]
@[simp] theorem writePower_dist (s : State) (c : Channel) (p : Int) : (s.writePower c p).dist = s.dist := by
  simp [State.writePower]
@[simp] theorem writePower_sonarState (s : State) (c : Channel) (p : Int) : (s.writePower c p).sonarState = s.sonarState := by
  simp [State.writePower]
@[simp] theorem writePower_sonarT0 (s : State) (c : Channel) (p : Int) : (s.writePower c p).sonarT0 = s.sonarT0 := by
  simp [State.writePower]
@[simp] theorem writePower_sonarPrev (s : State) (c : Channel) (p : Int) : (s.writePower c p).sonarPrev = s.sonarPrev := by
  simp [State.writePower]
@[simp] theorem writePower_dec (s : State) (c : Channel) (p : Int) : (s.writePower c p).dec = s.dec := by
  simp [State.writePower]
@[simp] theorem writePower_rxq (s : State) (c : Channel) (p : Int) : (s.writePower c p).rxq = s.rxq := by
  simp [State.writePower]
@[simp] theorem writePower_chip (s : State) (c : Channel) (p : Int) : (s.writePower c p).chip = s.chip := by
  simp [State.writePower]
@[simp] theorem writePower_busTrace (s : State) (c : Channel) (p : Int) : (s.writePower c p).busTrace = s.busTrace := by
  simp [State.writePower]
@[simp] theorem writePower_serialOut (s : State) (c : Channel) (p : Int) : (s.writePower c p).serialOut = s.serialOut := by
  simp [State.writePower]
@[simp] theorem writePower_replies (s : State) (c : Channel) (p : Int) : (s.writePower c p).replies = s.replies := by
  simp [State.writePower]
@[simp] theorem writePower_results (s : State) (c : Channel) (p : Int) : (s.writePower c p).results = s.results := by
  simp [State.writePower]
@[simp] theorem writePower_events (s : State) (c : Channel) (p : Int) : (s.writePower c p).events = s.events := by
  simp [State.writePower]
@[simp] theorem writePower_peer (s : State) (c : Channel) (p : Int) : (s.writePower c p).peer = s.peer := by
  simp [State.writePower]
@[simp] theorem writePower_threads (s : State) (c : Channel) (p : Int) : (s.writePower c p).threads = s.threads := by
  simp [State.writePower]
@[simp] theorem writePower_nextCmd (s : State) (c : Channel) (p : Int) : (s.writePower c p).nextCmd = s.nextCmd := by
  simp [State.writePower]
@[simp] theorem writePower_initStarted (s : State) (c : Channel) (p : Int) : (s.writePower c p).initStarted = s.initStarted := by
  simp [State.writePower]
@[simp] theorem writePower_lastIrq (s : State) (c : Channel) (p : Int) : (s.writePower c p).lastIrq = s.lastIrq := by
  simp [State.writePower]
@[simp] theorem writePower_time (s : State) (c : Channel) (p : Int) : (s.writePower c p).time = s.time := by
  simp [State.writePower]
@[simp] theorem writePower_busIn (s : State) (c : Channel) (p : Int) : (s.writePower c p).busIn = s.busIn := by
  simp [State.writePower]
@[simp] theorem writePower_draws (s : State) (c : Channel) (p : Int) : (s.writePower c p).draws = s.draws := by
  simp [State.writePower]
@[simp] theorem writePower_slice (s : State) (c : Channel) (p : Int) : (s.writePower c p).slice = s.slice := by
  simp [State.writePower]
@[simp] theorem writePower_turns (s : State) (c : Channel) (p : Int) : (s.writePower c p).turns = s.turns := by
  simp [State.writePower]

/-! ### `finishInit` -/

@[simp] theorem finishInit_cfg (s : State) (r : InitResult) : (s.finishInit r).cfg = s.cfg := by
  cases r <;> rfl
@[simp] theorem finishInit_out (s : State) (r : InitResult) : (s.finishInit r).out = s.out := by
  cases r <;> rfl
@[simp] theorem finishInit_ch0 (s : State) (r : InitResult) : (s.finishInit r).ch0 = s.ch0 := by
  cases r <;> rfl
@[simp] theorem finishInit_ch1 (s : State) (r : InitResult) : (s.finishInit r).ch1 = s.ch1 := by
  cases r <;> rfl
@[simp] theorem finishInit_tick (s : State) (r : InitResult) : (s.finishInit r).tick = s.tick := by
  cases r <;> rfl
@[simp] theorem finishInit_dist (s : State) (r : InitResult) : (s.finishInit r).dist = s.dist := by
  cases r <;> rfl
@[simp] theorem finishInit_sonarState (s : State) (r : InitResult) : (s.finishInit r).sonarState = s.sonarState := by
  cases r <;> rfl
@[simp] theorem finishInit_sonarT0 (s : State) (r : InitResult) : (s.finishInit r).sonarT0 = s.sonarT0 := by
  cases r <;> rfl
@[simp] theorem finishInit_sonarPrev (s : State) (r : InitResult) : (s.finishInit r).sonarPrev = s.sonarPrev := by
  cases r <;> rfl
@[simp] theorem finishInit_dec (s : State) (r : InitResult) : (s.finishInit r).dec = s.dec := by
  cases r <;> rfl
@[simp] theorem finishInit_rxq (s : State) (r : InitResult) : (s.finishInit r).rxq = s.rxq := by
  cases r <;> rfl
@[simp] theorem finishInit_chip (s : State) (r : InitResult) : (s.finishInit r).chip = s.chip := by
  cases r <;> rfl
@[simp] theorem finishInit_busTrace (s : State) (r : InitResult) : (s.finishInit r).busTrace = s.busTrace := by
  cases r <;> rfl
@[simp] theorem finishInit_serialOut (s : State) (r : InitResult) : (s.finishInit r).serialOut = s.serialOut := by
  cases r <;> rfl
@[simp] theorem finishInit_replies (s : State) (r : InitResult) : (s.finishInit r).replies = s.replies := by
  cases r <;> rfl
@[simp] theorem finishInit_results (s : State) (r : InitResult) : (s.finishInit r).results = s.results := by
  cases r <;> rfl
@[simp] theorem finishInit_events (s : State) (r : InitResult) : (s.finishInit r).events = s.events := by
  cases r <;> rfl
@[simp] theorem finishInit_peer (s : State) (r : InitResult) : (s.finishInit r).peer = s.peer := by
  cases r <;> rfl
@[simp] theorem finishInit_threads (s : State) (r : InitResult) : (s.finishInit r).threads = s.threads := by
  cases r <;> rfl
@[simp] theorem finishInit_nextCmd (s : State) (r : InitResult) : (s.finishInit r).nextCmd = s.nextCmd := by
  cases r <;> rfl
@[simp] theorem finishInit_initStarted (s : State) (r : InitResult) : (s.finishInit r).initStarted = s.initStarted := by
  cases r <;> rfl
@[simp] theorem finishInit_lastIrq (s : State) (r : InitResult) : (s.finishInit r).lastIrq = s.lastIrq := by
  cases r <;> rfl
@[simp] theorem finishInit_time (s : State) (r : InitResult) : (s.finishInit r).time = s.time := by
  cases r <;> rfl
@[simp] theorem finishInit_busIn (s : State) (r : InitResult) : (s.finishInit r).busIn = s.busIn := by
  cases r <;> rfl
@[simp] theorem finishInit_draws (s : State) (r : InitResult) : (s.finishInit r).draws = s.draws := by
  cases r <;> rfl
@[simp] theorem finishInit_slice (s : State) (r : InitResult) : (s.finishInit r).slice = s.slice := by
  cases r <;> rfl
@[simp] theorem finishInit_turns (s : State) (r : InitResult) : (s.finishInit r).turns = s.turns := by
  cases r <;> rfl

/-! ### `deliver` -/

@[simp] theorem deliver_cfg (s : State) (k : Nat) (v : Value) : (s.deliver k v).cfg = s.cfg := by
  cases v <;> rfl
@[simp] theorem deliver_drv (s : State) (k : Nat) (v : Value) : (s.deliver k v).drv = s.drv := by
  cases v <;> rfl
@[simp] theorem deliver_out (s : State) (k : Nat) (v : Value) : (s.deliver k v).out = s.out := by
  cases v <;> rfl
@[simp] theorem deliver_ch0 (s : State) (k : Nat) (v : Value) : (s.deliver k v).ch0 = s.ch0 := by
  cases v <;> rfl
@[simp] theorem deliver_ch1 (s : State) (k : Nat) (v : Value) : (s.deliver k v).ch1 = s.ch1 := by
  cases v <;> rfl
@[simp] theorem deliver_tick (s : State) (k : Nat) (v : Value) : (s.deliver k v).tick = s.tick := by
  cases v <;> rfl
@[simp] theorem deliver_dist (s : State) (k : Nat) (v : Value) : (s.deliver k v).dist = s.dist := by
  cases v <;> rfl
@[simp] theorem deliver_sonarState (s : State) (k : Nat) (v : Value) : (s.deliver k v).sonarState = s.sonarState := by
  cases v <;> rfl
@[simp] theorem deliver_sonarT0 (s : State) (k : Nat) (v : Value) : (s.deliver k v).sonarT0 = s.sonarT0 := by
  cases v <;> rfl
@[simp] theorem deliver_sonarPrev (s : State) (k : Nat) (v : Value) : (s.deliver k v).sonarPrev = s.sonarPrev := by
  cases v <;> rfl
@[simp] theorem deliver_dec (s : State) (k : Nat) (v : Value) : (s.deliver k v).dec = s.dec := by
  cases v <;> rfl
@[simp] theorem deliver_rxq (s : State) (k : Nat) (v : Value) : (s.deliver k v).rxq = s.rxq := by
  cases v <;> rfl
@[simp] theorem deliver_chip (s : State) (k : Nat) (v : Value) : (s.deliver k v).chip = s.chip := by
  cases v <;> rfl
@[simp] theorem deliver_busTrace (s : State) (k : Nat) (v : Value) : (s.deliver k v).busTrace = s.busTrace := by
  cases v <;> rfl
@[simp] theorem deliver_serialOut (s : State) (k : Nat) (v : Value) : (s.deliver k v).serialOut = s.serialOut := by
  cases v <;> rfl
@[simp] theorem deliver_events (s : State) (k : Nat) (v : Value) : (s.deliver k v).events = s.events := by
  cases v <;> rfl
@[simp] theorem deliver_peer (s : State) (k : Nat) (v : Value) : (s.deliver k v).peer = s.peer := by
  cases v <;> rfl
@[simp] theorem deliver_threads (s : State) (k : Nat) (v : Value) : (s.deliver k v).threads = s.threads := by
  cases v <;> rfl
@[simp] theorem deliver_nextCmd (s : State) (k : Nat) (v : Value) : (s.deliver k v).nextCmd = s.nextCmd := by
  cases v <;> rfl
@[simp] theorem deliver_initStarted (s : State) (k : Nat) (v : Value) : (s.deliver k v).initStarted = s.initStarted := by
  cases v <;> rfl
@[simp] theorem deliver_lastIrq (s : State) (k : Nat) (v : Value) : (s.deliver k v).lastIrq = s.lastIrq := by
  cases v <;> rfl
@[simp] theorem deliver_time (s : State) (k : Nat) (v : Value) : (s.deliver k v).time = s.time := by
  cases v <;> rfl
@[simp] theorem deliver_busIn (s : State) (k : Nat) (v : Value) : (s.deliver k v).busIn = s.busIn := by
  cases v <;> rfl
@[simp] theorem deliver_draws (s : State) (k : Nat) (v : Value) : (s.deliver k v).draws = s.draws := by
  cases v <;> rfl
@[simp] theorem deliver_slice (s : State) (k : Nat) (v : Value) : (s.deliver k v).slice = s.slice := by
  cases v <;> rfl
@[simp] theorem deliver_turns (s : State) (k : Nat) (v : Value) : (s.deliver k v).turns = s.turns := by
  cases v <;> rfl

/-! ### `park` -/

@[simp] theorem park_cfg (s : State) (a : AgentId) (th : Thread) : (s.park a th).cfg = s.cfg := by
  unfold State.park; split <;> rfl
@[simp] theorem park_drv (s : State) (a : AgentId) (th : Thread) : (s.park a th).drv = s.drv := by
  unfold State.park; split <;> rfl
@[simp] theorem park_out (s : State) (a : AgentId) (th : Thread) : (s.park a th).out = s.out := by
  unfold State.park; split <;> rfl
@[simp] theorem park_ch0 (s : State) (a : AgentId) (th : Thread) : (s.park a th).ch0 = s.ch0 := by
  unfold State.park; split <;> rfl
@[simp] theorem park_ch1 (s : State) (a : AgentId) (th : Thread) : (s.park a th).ch1 = s.ch1 := by
  unfold State.park; split <;> rfl
@[simp] theorem park_tick (s : State) (a : AgentId) (th : Thread) : (s.park a th).tick = s.tick := by
  unfold State.park; split <;> rfl
@[simp] theorem park_dist (s : State) (a : AgentId) (th : Thread) : (s.park a th).dist = s.dist := by
  unfold State.park; split <;> rfl
@[simp] theorem park_sonarState (s : State) (a : AgentId) (th : Thread) : (s.park a th).sonarState = s.sonarState := by
  unfold State.park; split <;> rfl
@[simp] theorem park_sonarT0 (s : State) (a : AgentId) (th : Thread) : (s.park a th).sonarT0 = s.sonarT0 := by
  unfold State.park; split <;> rfl
@[simp] theorem park_sonarPrev (s : State) (a : AgentId) (th : Thread) : (s.park a th).sonarPrev = s.sonarPrev := by
  unfold State.park; split <;> rfl
@[simp] theorem park_dec (s : State) (a : AgentId) (th : Thread) : (s.park a th).dec = s.dec := by
  unfold State.park; split <;> rfl
@[simp] theorem park_rxq (s : State) (a : AgentId) (th : Thread) : (s.park a th).rxq = s.rxq := by
  unfold State.park; split <;> rfl
@[simp] theorem park_chip (s : State) (a : AgentId) (th : Thread) : (s.park a th).chip = s.chip := by
  unfold State.park; split <;> rfl
@[simp] theorem park_busTrace (s : State) (a : AgentId) (th : Thread) : (s.park a th).busTrace = s.busTrace := by
  unfold State.park; split <;> rfl
@[simp] theorem park_serialOut (s : State) (a : AgentId) (th : Thread) : (s.park a th).serialOut = s.serialOut := by
  unfold State.park; split <;> rfl
@[simp] theorem park_replies (s : State) (a : AgentId) (th : Thread) : (s.park a th).replies = s.replies := by
  unfold State.park; split <;> rfl
@[simp] theorem park_results (s : State) (a : AgentId) (th : Thread) : (s.park a th).results = s.results := by
  unfold State.park; split <;> rfl
@[simp] theorem park_events (s : State) (a : AgentId) (th : Thread) : (s.park a th).events = s.events := by
  unfold State.park; split <;> rfl
@[simp] theorem park_peer (s : State) (a : AgentId) (th : Thread) : (s.park a th).peer = s.peer := by
  unfold State.park; split <;> rfl
@[simp] theorem park_nextCmd (s : State) (a : AgentId) (th : Thread) : (s.park a th).nextCmd = s.nextCmd := by
  unfold State.park; split <;> rfl
@[simp] theorem park_initStarted (s : State) (a : AgentId) (th : Thread) : (s.park a th).initStarted = s.initStarted := by
  unfold State.park; split <;> rfl
@[simp] theorem park_lastIrq (s : State) (a : AgentId) (th : Thread) : (s.park a th).lastIrq = s.lastIrq := by
  unfold State.park; split <;> rfl
@[simp] theorem park_time (s : State) (a : AgentId) (th : Thread) : (s.park a th).time = s.time := by
  unfold State.park; split <;> rfl
@[simp] theorem park_busIn (s : State) (a : AgentId) (th : Thread) : (s.park a th).busIn = s.busIn := by
  unfold State.park; split <;> rfl
@[simp] theorem park_draws (s : State) (a : AgentId) (th : Thread) : (s.park a th).draws = s.draws := by
  unfold State.park; split <;> rfl
@[simp] theorem park_slice (s : State) (a : AgentId) (th : Thread) : (s.park a th).slice = s.slice := by
  unfold State.park; split <;> rfl
@[simp] theorem park_turns (s : State) (a : AgentId) (th : Thread) : (s.park a th).turns = s.turns := by
  unfold State.park; split <;> rfl

/-! ### `draw`, `expanderByte` and `busRead` -/

@[simp] theorem draw_cfg (s : State) : s.draw.2.cfg = s.cfg := by
  unfold State.draw; split <;> rfl
@[simp] theorem draw_drv (s : State) : s.draw.2.drv = s.drv := by
  unfold State.draw; split <;> rfl
@[simp] theorem draw_out (s : State) : s.draw.2.out = s.out := by
  unfold State.draw; split <;> rfl
@[simp] theorem draw_ch0 (s : State) : s.draw.2.ch0 = s.ch0 := by
  unfold State.draw; split <;> rfl
@[simp] theorem draw_ch1 (s : State) : s.draw.2.ch1 = s.ch1 := by
  unfold State.draw; split <;> rfl
@[simp] theorem draw_tick (s : State) : s.draw.2.tick = s.tick := by
  unfold State.draw; split <;> rfl
@[simp] theorem draw_dist (s : State) : s.draw.2.dist = s.dist := by
  unfold State.draw; split <;> rfl
@[simp] theorem draw_sonarState (s : State) : s.draw.2.sonarState = s.sonarState := by
  unfold State.draw; split <;> rfl
@[simp] theorem draw_sonarT0 (s : State) : s.draw.2.sonarT0 = s.sonarT0 := by
  unfold State.draw; split <;> rfl
@[simp] theorem draw_sonarPrev (s : State) : s.draw.2.sonarPrev = s.sonarPrev := by
  unfold State.draw; split <;> rfl
@[simp] theorem draw_dec (s : State) : s.draw.2.dec = s.dec := by
  unfold State.draw; split <;> rfl
@[simp] theorem draw_rxq (s : State) : s.draw.2.rxq = s.rxq := by
  unfold State.draw; split <;> rfl
@[simp] theorem draw_chip (s : State) : s.draw.2.chip = s.chip := by
  unfold State.draw; split <;> rfl
@[simp] theorem draw_busTrace (s : State) : s.draw.2.busTrace = s.busTrace := by
  unfold State.draw; split <;> rfl
@[simp] theorem draw_serialOut (s : State) : s.draw.2.serialOut = s.serialOut := by
  unfold State.draw; split <;> rfl
@[simp] theorem draw_replies (s : State) : s.draw.2.replies = s.replies := by
  unfold State.draw; split <;> rfl
@[simp] theorem draw_results (s : State) : s.draw.2.results = s.results := by
  unfold State.draw; split <;> rfl
@[simp] theorem draw_events (s : State) : s.draw.2.events = s.events := by
  unfold State.draw; split <;> rfl
@[simp] theorem draw_peer (s : State) : s.draw.2.peer = s.peer := by
  unfold State.draw; split <;> rfl
@[simp] theorem draw_threads (s : State) : s.draw.2.threads = s.threads := by
  unfold State.draw; split <;> rfl
@[simp] theorem draw_nextCmd (s : State) : s.draw.2.nextCmd = s.nextCmd := by
  unfold State.draw; split <;> rfl
@[simp] theorem draw_initStarted (s : State) : s.draw.2.initStarted = s.initStarted := by
  unfold State.draw; split <;> rfl
@[simp] theorem draw_lastIrq (s : State) : s.draw.2.lastIrq = s.lastIrq := by
  unfold State.draw; split <;> rfl
@[simp] theorem draw_time (s : State) : s.draw.2.time = s.time := by
  unfold State.draw; split <;> rfl
@[simp] theorem draw_slice (s : State) : s.draw.2.slice = s.slice := by
  unfold State.draw; split <;> rfl
@[simp] theorem draw_turns (s : State) : s.draw.2.turns = s.turns := by
  unfold State.draw; split <;> rfl
@[simp] theorem expanderByte_cfg (s : State) (reg : Byte) : (s.expanderByte reg).2.cfg = s.cfg := by
  unfold State.expanderByte; split <;> simp
@[simp] theorem expanderByte_drv (s : State) (reg : Byte) : (s.expanderByte reg).2.drv = s.drv := by
  unfold State.expanderByte; split <;> simp
@[simp] theorem expanderByte_out (s : State) (reg : Byte) : (s.expanderByte reg).2.out = s.out := by
  unfold State.expanderByte; split <;> simp
@[simp] theorem expanderByte_ch0 (s : State) (reg : Byte) : (s.expanderByte reg).2.ch0 = s.ch0 := by
  unfold State.expanderByte; split <;> simp
@[simp] theorem expanderByte_ch1 (s : State) (reg : Byte) : (s.expanderByte reg).2.ch1 = s.ch1 := by
  unfold State.expanderByte; split <;> simp
@[simp] theorem expanderByte_tick (s : State) (reg : Byte) : (s.expanderByte reg).2.tick = s.tick := by
  unfold State.expanderByte; split <;> simp
@[simp] theorem expanderByte_dist (s : State) (reg : Byte) : (s.expanderByte reg).2.dist = s.dist := by
  unfold State.expanderByte; split <;> simp
@[simp] theorem expanderByte_sonarState (s : State) (reg : Byte) : (s.expanderByte reg).2.sonarState = s.sonarState := by
  unfold State.expanderByte; split <;> simp
@[simp] theorem expanderByte_sonarT0 (s : State) (reg : Byte) : (s.expanderByte reg).2.sonarT0 = s.sonarT0 := by
  unfold State.expanderByte; split <;> simp
@[simp] theorem expanderByte_sonarPrev (s : State) (reg : Byte) : (s.expanderByte reg).2.sonarPrev = s.sonarPrev := by
  unfold State.expanderByte; split <;> simp
@[simp] theorem expanderByte_dec (s : State) (reg : Byte) : (s.expanderByte reg).2.dec = s.dec := by
  unfold State.expanderByte; split <;> simp
@[simp] theorem expanderByte_rxq (s : State) (reg : Byte) : (s.expanderByte reg).2.rxq = s.rxq := by
  unfold State.expanderByte; split <;> simp
@[simp] theorem expanderByte_chip (s : State) (reg : Byte) : (s.expanderByte reg).2.chip = s.chip := by
  unfold State.expanderByte; split <;> simp
@[simp] theorem expanderByte_busTrace (s : State) (reg : Byte) : (s.expanderByte reg).2.busTrace = s.busTrace := by
  unfold State.expanderByte; split <;> simp
@[simp] theorem expanderByte_serialOut (s : State) (reg : Byte) : (s.expanderByte reg).2.serialOut = s.serialOut := by
  unfold State.expanderByte; split <;> simp
@[simp] theorem expanderByte_replies (s : State) (reg : Byte) : (s.expanderByte reg).2.replies = s.replies := by
  unfold State.expanderByte; split <;> simp
@[simp] theorem expanderByte_results (s : State) (reg : Byte) : (s.expanderByte reg).2.results = s.results := by
  unfold State.expanderByte; split <;> simp
@[simp] theorem expanderByte_events (s : State) (reg : Byte) : (s.expanderByte reg).2.events = s.events := by
  unfold State.expanderByte; split <;> simp
@[simp] theorem expanderByte_peer (s : State) (reg : Byte) : (s.expanderByte reg).2.peer = s.peer := by
  unfold State.expanderByte; split <;> simp
@[simp] theorem expanderByte_threads (s : State) (reg : Byte) : (s.expanderByte reg).2.threads = s.threads := by
  unfold State.expanderByte; split <;> simp
@[simp] theorem expanderByte_nextCmd (s : State) (reg : Byte) : (s.expanderByte reg).2.nextCmd = s.nextCmd := by
  unfold State.expanderByte; split <;> simp
@[simp] theorem expanderByte_initStarted (s : State) (reg : Byte) : (s.expanderByte reg).2.initStarted = s.initStarted := by
  unfold State.expanderByte; split <;> simp
@[simp] theorem expanderByte_lastIrq (s : State) (reg : Byte) : (s.expanderByte reg).2.lastIrq = s.lastIrq := by
  unfold State.expanderByte; split <;> simp
@[simp] theorem expanderByte_time (s : State) (reg : Byte) : (s.expanderByte reg).2.time = s.time := by
  unfold State.expanderByte; split <;> simp
@[simp] theorem expanderByte_slice (s : State) (reg : Byte) : (s.expanderByte reg).2.slice = s.slice := by
  unfold State.expanderByte; split <;> simp
@[simp] theorem expanderByte_turns (s : State) (reg : Byte) : (s.expanderByte reg).2.turns = s.turns := by
  unfold State.expanderByte; split <;> simp
@[simp] theorem busRead_cfg (s : State) (reg : Byte) : (s.busRead reg).2.cfg = s.cfg := by
  unfold State.busRead; split <;> simp
@[simp] theorem busRead_drv (s : State) (reg : Byte) : (s.busRead reg).2.drv = s.drv := by
  unfold State.busRead; split <;> simp
@[simp] theorem busRead_out (s : State) (reg : Byte) : (s.busRead reg).2.out = s.out := by
  unfold State.busRead; split <;> simp
@[simp] theorem busRead_ch0 (s : State) (reg : Byte) : (s.busRead reg).2.ch0 = s.ch0 := by
  unfold State.busRead; split <;> simp
@[simp] theorem busRead_ch1 (s : State) (reg : Byte) : (s.busRead reg).2.ch1 = s.ch1 := by
  unfold State.busRead; split <;> simp
@[simp] theorem busRead_tick (s : State) (reg : Byte) : (s.busRead reg).2.tick = s.tick := by
  unfold State.busRead; split <;> simp
@[simp] theorem busRead_dist (s : State) (reg : Byte) : (s.busRead reg).2.dist = s.dist := by
  unfold State.busRead; split <;> simp
@[simp] theorem busRead_sonarState (s : State) (reg : Byte) : (s.busRead reg).2.sonarState = s.sonarState := by
  unfold State.busRead; split <;> simp
@[simp] theorem busRead_sonarT0 (s : State) (reg : Byte) : (s.busRead reg).2.sonarT0 = s.sonarT0 := by
  unfold State.busRead; split <;> simp
@[simp] theorem busRead_sonarPrev (s : State) (reg : Byte) : (s.busRead reg).2.sonarPrev = s.sonarPrev := by
  unfold State.busRead; split <;> simp
@[simp] theorem busRead_dec (s : State) (reg : Byte) : (s.busRead reg).2.dec = s.dec := by
  unfold State.busRead; split <;> simp
@[simp] theorem busRead_rxq (s : State) (reg : Byte) : (s.busRead reg).2.rxq = s.rxq := by
  unfold State.busRead; split <;> simp
@[simp] theorem busRead_chip (s : State) (reg : Byte) : (s.busRead reg).2.chip = s.chip := by
  unfold State.busRead; split <;> simp
@[simp] theorem busRead_serialOut (s : State) (reg : Byte) : (s.busRead reg).2.serialOut = s.serialOut := by
  unfold State.busRead; split <;> simp
@[simp] theorem busRead_replies (s : State) (reg : Byte) : (s.busRead reg).2.replies = s.replies := by
  unfold State.busRead; split <;> simp
@[simp] theorem busRead_results (s : State) (reg : Byte) : (s.busRead reg).2.results = s.results := by
  unfold State.busRead; split <;> simp
@[simp] theorem busRead_events (s : State) (reg : Byte) : (s.busRead reg).2.events = s.events := by
  unfold State.busRead; split <;> simp
@[simp] theorem busRead_peer (s : State) (reg : Byte) : (s.busRead reg).2.peer = s.peer := by
  unfold State.busRead; split <;> simp
@[simp] theorem busRead_threads (s : State) (reg : Byte) : (s.busRead reg).2.threads = s.threads := by
  unfold State.busRead; split <;> simp
@[simp] theorem busRead_nextCmd (s : State) (reg : Byte) : (s.busRead reg).2.nextCmd = s.nextCmd := by
  unfold State.busRead; split <;> simp
@[simp] theorem busRead_initStarted (s : State) (reg : Byte) : (s.busRead reg).2.initStarted = s.initStarted := by
  unfold State.busRead; split <;> simp
@[simp] theorem busRead_lastIrq (s : State) (reg : Byte) : (s.busRead reg).2.lastIrq = s.lastIrq := by
  unfold State.busRead; split <;> simp
@[simp] theorem busRead_time (s : State) (reg : Byte) : (s.busRead reg).2.time = s.time := by
  unfold State.busRead; split <;> simp
@[simp] theorem busRead_slice (s : State) (reg : Byte) : (s.busRead reg).2.slice = s.slice := by
  unfold State.busRead; split <;> simp
@[simp] theorem busRead_turns (s : State) (reg : Byte) : (s.busRead reg).2.turns = s.turns := by
  unfold State.busRead; split <;> simp

end Sys2Proof.Machine
end

