-- ==== Sys2Proof/Laws/Ops.lean ====
section
/-! SUPPORT. For each shared operation, what it can do, said once. -/

namespace Sys2Proof.Machine

/-! ### Flags -/

theorem ready_iff (s : State) : s.ready = true ↔ s.drv = .ready := by simp [State.ready]

theorem busy_iff (s : State) : s.busy = true ↔ s.sonarState ≠ .idle := by simp [State.busy]

@[simp] theorem changed_iff (a b : Byte) : changed a b = true ↔ b ≠ a := by simp [changed]

theorem ready_congr {s t : State} (h : s.drv = t.drv) : s.ready = t.ready := by
  simp [State.ready, h]

/-! ### The bus -/

/-- A gated write when Ready is the transaction (R121). -/
theorem busWrite_ready {s : State} (h : s.drv = .ready) (reg v : Byte) :
    s.busWrite reg v = s.transact reg v := by
  simp [State.busWrite, State.ready, h]

/-- A gated write when not Ready does nothing (R120). -/
theorem busWrite_not_ready {s : State} (h : s.drv ≠ .ready) (reg v : Byte) :
    s.busWrite reg v = s := by
  simp [State.busWrite, State.ready, h]

/-- A gated write adds its transaction to the trace, or nothing. -/
theorem busWrite_busTrace (s : State) (reg v : Byte) :
    (s.busWrite reg v).busTrace =
      if s.drv = .ready then s.busTrace ++ [.write reg v] else s.busTrace := by
  by_cases h : s.drv = .ready <;> simp [State.busWrite, State.ready, h]

/-- A gated read when Ready returns the expander's byte and shows on the trace (R122). -/
theorem busRead_ready {s : State} (h : s.drv = .ready) (reg : Byte) :
    s.busRead reg =
      ((s.expanderByte reg).1,
        { (s.expanderByte reg).2 with
          busTrace := s.busTrace ++ [.read reg (s.expanderByte reg).1] }) := by
  simp [State.busRead, State.ready, h]

/-- A gated read when not Ready returns 0x00 and does nothing (R120). -/
theorem busRead_not_ready {s : State} (h : s.drv ≠ .ready) (reg : Byte) :
    s.busRead reg = (0, s) := by
  simp [State.busRead, State.ready, h]

/-- A gated read adds one read to the trace, or nothing. -/
theorem busRead_busTrace (s : State) (reg : Byte) :
    (s.busRead reg).2.busTrace =
      if s.drv = .ready then s.busTrace ++ [.read reg (s.busRead reg).1] else s.busTrace := by
  by_cases h : s.drv = .ready
  · simp [busRead_ready h, h]
  · simp [busRead_not_ready h, h]

/-- What the expander answers depends on the chip, the configuration and the environment's script only. -/
theorem expanderByte_congr {s t : State} (hc : s.chip = t.chip) (hg : s.cfg = t.cfg)
    (hb : s.busIn = t.busIn) (hd : s.draws = t.draws) (reg : Byte) :
    (s.expanderByte reg).1 = (t.expanderByte reg).1 ∧
      (s.expanderByte reg).2.busIn = (t.expanderByte reg).2.busIn ∧
      (s.expanderByte reg).2.draws = (t.expanderByte reg).2.draws := by
  unfold State.expanderByte State.draw
  rw [hc, hg, hb, hd]
  cases t.chip.answer t.cfg reg
  · cases t.busIn with
    | nil => simp
    | cons b bs => simp
  · simp [hb, hd]

/-- The same of a gated read, which depends on `DRV` too and adds to the trace. -/
theorem busRead_congr {s t : State} (hv : s.drv = t.drv) (hc : s.chip = t.chip) (hg : s.cfg = t.cfg)
    (hb : s.busIn = t.busIn) (hd : s.draws = t.draws) (ht : s.busTrace = t.busTrace) (reg : Byte) :
    (s.busRead reg).1 = (t.busRead reg).1 ∧ (s.busRead reg).2.busIn = (t.busRead reg).2.busIn ∧
      (s.busRead reg).2.draws = (t.busRead reg).2.draws ∧
      (s.busRead reg).2.busTrace = (t.busRead reg).2.busTrace := by
  obtain ⟨h1, h2, h3⟩ := expanderByte_congr hc hg hb hd reg
  unfold State.busRead
  rw [ready_congr hv]
  split <;> simp [*]

@[simp] theorem busRead_newCaller (s : State) (reg : Byte) :
    s.newCaller.busRead reg = ((s.busRead reg).1, (s.busRead reg).2.newCaller) := by
  obtain ⟨h1, h2, h3, h4⟩ :=
    busRead_congr (s := s.newCaller) (t := s) rfl rfl rfl rfl rfl rfl reg
  refine Prod.ext h1 (State.ext ?_ ?_ ?_ ?_ ?_ ?_ ?_ ?_ ?_ ?_ ?_ ?_ ?_ ?_ ?_ ?_ ?_ ?_ ?_ ?_ ?_ ?_ ?_ ?_
    ?_ ?_ ?_ ?_) <;> simp [*]

@[simp] theorem chip_take_conforming (h : Chip) (g : Cfg) (reg v : Byte) :
    (h.take g reg v).conforming = h.conforming := by
  unfold Chip.take; split <;> rfl

/-! ### Channels -/

theorem setChannel_ch0 (s : State) (c : Channel) (r : ChannelRec) :
    (s.setChannel c r).ch0 = if c = 0 then r else s.ch0 := by
  unfold State.setChannel; split <;> rfl

theorem setChannel_ch1 (s : State) (c : Channel) (r : ChannelRec) :
    (s.setChannel c r).ch1 = if c = 0 then s.ch1 else r := by
  unfold State.setChannel; split <;> rfl

/-- Reading a channel after writing it gives what was written (R75). -/
@[simp] theorem channel_setChannel_same (s : State) (c : Channel) (r : ChannelRec) :
    (s.setChannel c r).channel c = r := by
  unfold State.setChannel State.channel; split <;> rfl

/-- Reading the other channel gives what it held. -/
theorem channel_setChannel_other (s : State) {c k : Channel} (h : k ≠ c) (r : ChannelRec) :
    (s.setChannel c r).channel k = s.channel k := by
  unfold State.setChannel State.channel
  rcases c with ⟨_ | _ | c, hc⟩ <;> rcases k with ⟨_ | _ | k, hk⟩ <;> simp_all <;> omega

/-! ### Masks -/

/-- Bit `j` of `mask(i)`. -/
theorem bitOf_mask (i j : Fin 8) : bitOf (mask i) j = decide (j = i) := by
  revert i j; decide

@[simp] theorem bitOf_or (a b : Byte) (j : Fin 8) :
    bitOf (a ||| b) j = (bitOf a j || bitOf b j) := by
  simp [bitOf]

@[simp] theorem bitOf_andNot (a b : Byte) (j : Fin 8) :
    bitOf (a &&& ~~~b) j = (bitOf a j && !bitOf b j) := by
  simp [bitOf]

@[simp] theorem bitOf_zero (j : Fin 8) : bitOf 0 j = false := by simp [bitOf]

end Sys2Proof.Machine
end

