-- ==== Sys2Proof/Laws/Memory.lean ====
section
/-! SUPPORT. The sparse maps: a read after a write, and the canonical form, which every operation
keeps. -/

namespace Sys2Proof.Machine

variable {α : Type}

@[simp] theorem assoc_get_put_same (m : List (Nat × α)) (k : Nat) (v : α) :
    Assoc.get (Assoc.put m k v) k = some v := by
  induction m with
  | nil => simp [Assoc.put, Assoc.get]
  | cons p r ih =>
    obtain ⟨k', v'⟩ := p
    simp only [Assoc.put]
    split
    · simp [Assoc.get]
    · split
      · simp [Assoc.get]
      · simp [Assoc.get, *]

theorem assoc_get_put_other (m : List (Nat × α)) {k j : Nat} (h : j ≠ k) (v : α) :
    Assoc.get (Assoc.put m k v) j = Assoc.get m j := by
  induction m with
  | nil => simp [Assoc.put, Assoc.get, h]
  | cons p r ih =>
    obtain ⟨k', v'⟩ := p
    simp only [Assoc.put]
    split
    · simp [Assoc.get, h]
    · split
      · subst k'; simp [Assoc.get, h]
      · simp [Assoc.get, ih]

@[simp] theorem assoc_get_erase_same (m : List (Nat × α)) (k : Nat) :
    Assoc.get (Assoc.erase m k) k = none := by
  induction m with
  | nil => rfl
  | cons p r ih =>
    obtain ⟨k', v'⟩ := p
    simp only [Assoc.erase]
    split
    · exact ih
    · simp [Assoc.get, *]

/-- An erasure leaves every other key as it was. -/
theorem assoc_get_erase_other (m : List (Nat × α)) {k j : Nat} (h : j ≠ k) :
    Assoc.get (Assoc.erase m k) j = Assoc.get m j := by
  induction m with
  | nil => rfl
  | cons p r ih =>
    obtain ⟨k', v'⟩ := p
    simp only [Assoc.erase]
    split
    · subst k'; simp [Assoc.get, h, ih]
    · simp [Assoc.get, ih]

/-- Erasing a key that is absent changes nothing. -/
theorem assoc_erase_absent {m : List (Nat × α)} {k : Nat} (h : Assoc.get m k = none) :
    Assoc.erase m k = m := by
  induction m with
  | nil => rfl
  | cons p r ih =>
    obtain ⟨k', v'⟩ := p
    simp only [Assoc.get] at h
    split at h
    · cases h
    · simp [Assoc.erase, *]

/-- Erasing the key just written, absent before, gives the map back. -/
theorem assoc_erase_put {m : List (Nat × α)} {k : Nat} (h : Assoc.get m k = none) (v : α) :
    Assoc.erase (Assoc.put m k v) k = m := by
  induction m with
  | nil => simp [Assoc.put, Assoc.erase]
  | cons p r ih =>
    obtain ⟨k', v'⟩ := p
    have he := assoc_erase_absent h
    simp only [Assoc.get] at h
    split at h
    · cases h
    · rename_i hk
      simp only [Assoc.put]
      split
      · simpa [Assoc.erase] using he
      · simp [hk, Assoc.erase, ih h]

/-- An entry of a map after a write is the one written or was there before. -/
theorem assoc_mem_put {m : List (Nat × α)} {k : Nat} {v : α} {p : Nat × α}
    (h : p ∈ Assoc.put m k v) : p = (k, v) ∨ p ∈ m := by
  induction m with
  | nil => simpa [Assoc.put] using h
  | cons q r ih =>
    obtain ⟨k', v'⟩ := q
    simp only [Assoc.put] at h
    split at h
    · simpa using h
    · split at h
      · rcases List.mem_cons.mp h with h | h
        · exact .inl h
        · exact .inr (List.mem_cons_of_mem _ h)
      · rcases List.mem_cons.mp h with h | h
        · exact .inr (h ▸ List.mem_cons_self)
        · exact (ih h).imp id (List.mem_cons_of_mem _)

/-- An entry of a map after an erasure was there before, under another key. -/
theorem assoc_mem_erase {m : List (Nat × α)} {k : Nat} {p : Nat × α}
    (h : p ∈ Assoc.erase m k) : p ∈ m ∧ p.1 ≠ k := by
  induction m with
  | nil => simp [Assoc.erase] at h
  | cons q r ih =>
    obtain ⟨k', v'⟩ := q
    simp only [Assoc.erase] at h
    split at h
    · exact ⟨List.mem_cons_of_mem _ (ih h).1, (ih h).2⟩
    · rcases List.mem_cons.mp h with h | h
      · subst h; exact ⟨List.mem_cons_self, fun e => by simp_all⟩
      · exact ⟨List.mem_cons_of_mem _ (ih h).1, (ih h).2⟩

/-- What a map gives at a key is an entry of it. -/
theorem assoc_mem_of_get {m : List (Nat × α)} {k : Nat} {v : α} (h : Assoc.get m k = some v) :
    (k, v) ∈ m := by
  induction m with
  | nil => simp [Assoc.get] at h
  | cons q r ih =>
    obtain ⟨k', v'⟩ := q
    simp only [Assoc.get] at h
    split at h
    · simp_all
    · exact List.mem_cons_of_mem _ (ih h)

/-- No entry has a key at which a map gives nothing. -/
theorem assoc_key_ne_of_get_none {m : List (Nat × α)} {k : Nat} (h : Assoc.get m k = none) :
    ∀ p ∈ m, p.1 ≠ k := by
  induction m with
  | nil => simp
  | cons q r ih =>
    obtain ⟨k', v'⟩ := q
    simp only [Assoc.get] at h
    split at h
    · cases h
    · rintro p hp
      rcases List.mem_cons.mp hp with hp | hp
      · subst hp; exact fun e => by simp_all
      · exact ih h p hp

/-- A write keeps the canonical form. -/
theorem assoc_wf_put {m : List (Nat × α)} (h : Assoc.wf m) (k : Nat) (v : α) :
    Assoc.wf (Assoc.put m k v) := by
  induction m with
  | nil => simp [Assoc.put, Assoc.wf]
  | cons q r ih =>
    obtain ⟨k', v'⟩ := q
    simp only [Assoc.wf, List.map_cons, List.pairwise_cons, List.mem_map, forall_exists_index,
      and_imp] at h ih
    simp only [Assoc.put]
    split
    · rename_i hk
      simp only [Assoc.wf, List.map_cons, List.pairwise_cons, List.mem_cons, List.mem_map]
      refine ⟨?_, fun a ⟨p, hp, e⟩ => h.1 a p hp e, h.2⟩
      rintro a (rfl | ⟨p, hp, rfl⟩)
      · exact hk
      · exact lt_trans hk (h.1 _ p hp rfl)
    · split
      · subst k'
        simp only [Assoc.wf, List.map_cons, List.pairwise_cons, List.mem_map]
        exact ⟨fun a ⟨p, hp, e⟩ => h.1 a p hp e, h.2⟩
      · simp only [Assoc.wf, List.map_cons, List.pairwise_cons, List.mem_map]
        refine ⟨?_, ih h.2⟩
        rintro a ⟨p, hp, rfl⟩
        rcases assoc_mem_put hp with rfl | hp
        · simp only; omega
        · exact h.1 _ p hp rfl

/-- An erasure keeps the canonical form. -/
theorem assoc_wf_erase {m : List (Nat × α)} (h : Assoc.wf m) (k : Nat) :
    Assoc.wf (Assoc.erase m k) := by
  induction m with
  | nil => exact h
  | cons q r ih =>
    obtain ⟨k', v'⟩ := q
    simp only [Assoc.wf, List.map_cons, List.pairwise_cons, List.mem_map, forall_exists_index,
      and_imp] at h ih
    simp only [Assoc.erase]
    split
    · exact ih h.2
    · simp only [Assoc.wf, List.map_cons, List.pairwise_cons, List.mem_map]
      exact ⟨fun a ⟨p, hp, e⟩ => h.1 a p (assoc_mem_erase hp).1 e, ih h.2⟩

/-! ### The expander's cells -/

/-- `X[a]` after a write is the byte written (R62). -/
@[simp] theorem memory_read_write_same (m : Memory) (a : Nat) (v : Byte) :
    (m.write a v).read a = v := by
  unfold Memory.write Memory.read
  split
  · simp [*]
  · simp

/-- Every other register holds what it held (R62). -/
theorem memory_read_write_other (m : Memory) {a b : Nat} (h : b ≠ a) (v : Byte) :
    (m.write a v).read b = m.read b := by
  unfold Memory.write Memory.read
  split
  · rw [assoc_get_erase_other m h]
  · rw [assoc_get_put_other m h]

/-- A write to a one-byte address keeps the canonical form. -/
theorem memory_wf_write {m : Memory} (h : m.wf) {a : Nat} (ha : a < 256) (v : Byte) :
    (m.write a v).wf := by
  unfold Memory.write
  split
  · exact ⟨assoc_wf_erase h.1 a, fun c hc => h.2 c (assoc_mem_erase hc).1⟩
  · rename_i hv
    refine ⟨assoc_wf_put h.1 a v, fun c hc => ?_⟩
    rcases assoc_mem_put hc with rfl | hc
    · exact ⟨ha, hv⟩
    · exact h.2 c hc

/-- The chip's taking a write keeps it too. -/
theorem chip_wf_take {h : Chip} (hw : h.cells.wf) (g : Cfg) (reg v : Byte) :
    (h.take g reg v).cells.wf := by
  unfold Chip.take
  split
  · exact memory_wf_write hw reg.isLt v
  · exact hw

/-- The registers at power-on are those two writes of 0xFF to an expander of zeros. -/
theorem powerOn_eq (g : Cfg) : Memory.powerOn g =
    (Memory.write (Memory.write [] g.regDirOut.toNat 0xFF) g.regDirIn.toNat 0xFF) := rfl

/-- They have the canonical form. -/
theorem powerOn_wf (g : Cfg) : (Memory.powerOn g).wf := by
  rw [powerOn_eq]
  exact memory_wf_write
    (memory_wf_write ⟨List.Pairwise.nil, fun _ h => by cases h⟩ g.regDirOut.isLt _) g.regDirIn.isLt _

/-- The state after reset has it. -/
theorem reset_memory_wf : State.reset.chip.cells.wf := by exact powerOn_wf Config.cfgEx

end Sys2Proof.Machine
end

