-- ==== Sys2Proof/Laws/PerInstr.lean ====
section
/-! SUPPORT. What holds of every operation as syntax, one lemma per constructor. -/

/-- The first byte of an operation's event word is its row of the opcode table, so words of two rows
are never equal. -/
def Sys2Proof.Laws.RowInTable.Statement (i : Sys2Proof.Instr) : Prop :=
  i.row < 31 ∧ ∀ g : Sys2Proof.Cfg,
    (Sys2Proof.encode g i).head?.map BitVec.toNat = some i.row

namespace Sys2Proof.Laws.RowInTable

open Sys2Proof

theorem busWrite (reg v : Byte) : Statement (.busWrite reg v) :=
  ⟨by simp [Instr.row], fun _ => by simp [encode, Instr.row]⟩

theorem busRead (reg : Byte) : Statement (.busRead reg) :=
  ⟨by simp [Instr.row], fun _ => by simp [encode, Instr.row]⟩

theorem init (r : InitResult) : Statement (.init r) :=
  ⟨by simp [Instr.row], fun _ => by simp [encode, Instr.row]⟩

theorem isReady : Statement .isReady :=
  ⟨by simp [Instr.row], fun _ => by simp [encode, Instr.row]⟩

theorem readInputs : Statement .readInputs :=
  ⟨by simp [Instr.row], fun _ => by simp [encode, Instr.row]⟩

theorem readOutputLatch : Statement .readOutputLatch :=
  ⟨by simp [Instr.row], fun _ => by simp [encode, Instr.row]⟩

theorem rmw (f : ByteFn) : Statement (.rmw f) :=
  ⟨by simp [Instr.row], fun _ => by simp [encode, Instr.row]⟩

theorem setBits (m : Byte) : Statement (.setBits m) :=
  ⟨by simp [Instr.row], fun _ => by simp [encode, Instr.row]⟩

theorem clearBits (m : Byte) : Statement (.clearBits m) :=
  ⟨by simp [Instr.row], fun _ => by simp [encode, Instr.row]⟩

theorem writeOutputs (m : Byte) : Statement (.writeOutputs m) :=
  ⟨by simp [Instr.row], fun _ => by simp [encode, Instr.row]⟩

theorem irqEdge : Statement .irqEdge :=
  ⟨by simp [Instr.row], fun _ => by simp [encode, Instr.row]⟩

theorem measure : Statement .measure :=
  ⟨by simp [Instr.row], fun _ => by simp [encode, Instr.row]⟩

theorem tick : Statement .tick :=
  ⟨by simp [Instr.row], fun _ => by simp [encode, Instr.row]⟩

theorem drive (c : Channel) (d : Direction) : Statement (.drive c d) :=
  ⟨by simp [Instr.row], fun _ => by simp [encode, Instr.row]⟩

theorem safeSetClear (set clear : Byte) : Statement (.safeSetClear set clear) :=
  ⟨by simp [Instr.row], fun _ => by simp [encode, Instr.row]⟩

theorem setDirection (c : Channel) (d : Direction) : Statement (.setDirection c d) :=
  ⟨by simp [Instr.row], fun _ => by simp [encode, Instr.row]⟩

theorem setPower (c : Channel) (p : Int) : Statement (.setPower c p) :=
  ⟨by simp [Instr.row], fun _ => by simp [encode, Instr.row]⟩

theorem stopAll : Statement .stopAll :=
  ⟨by simp [Instr.row], fun _ => by simp [encode, Instr.row]⟩

theorem decodeByte (b : Byte) : Statement (.decodeByte b) :=
  ⟨by simp [Instr.row], fun _ => by simp [encode, Instr.row]⟩

theorem encodeResponse (p : Bytes) : Statement (.encodeResponse p) :=
  ⟨by simp [Instr.row], fun _ => by simp [encode, Instr.row]⟩

theorem encodeRequest (p : Bytes) : Statement (.encodeRequest p) :=
  ⟨by simp [Instr.row], fun _ => by simp [encode, Instr.row]⟩

theorem decodeResponse (b : Byte) : Statement (.decodeResponse b) :=
  ⟨by simp [Instr.row], fun _ => by simp [encode, Instr.row]⟩

theorem serialExchange (p : Bytes) : Statement (.serialExchange p) :=
  ⟨by simp [Instr.row], fun _ => by simp [encode, Instr.row]⟩

theorem dispatch (req : Bytes) : Statement (.dispatch req) :=
  ⟨by simp [Instr.row], fun _ => by simp [encode, Instr.row]⟩

theorem poll : Statement .poll :=
  ⟨by simp [Instr.row], fun _ => by simp [encode, Instr.row]⟩

theorem o (i : Int) (b : Bool) : Statement (.o i b) :=
  ⟨by simp [Instr.row], fun _ => by simp [encode, Instr.row]⟩

theorem resetAll : Statement .resetAll :=
  ⟨by simp [Instr.row], fun _ => by simp [encode, Instr.row]⟩

theorem crossdomain : Statement .crossdomain :=
  ⟨by simp [Instr.row], fun _ => by simp [encode, Instr.row]⟩

theorem md (c : Int) (d : Direction) : Statement (.md c d) :=
  ⟨by simp [Instr.row], fun _ => by simp [encode, Instr.row]⟩

theorem mp (c p : Int) : Statement (.mp c p) :=
  ⟨by simp [Instr.row], fun _ => by simp [encode, Instr.row]⟩

theorem unknown (req : Bytes) : Statement (.unknown req) :=
  ⟨by simp [Instr.row], fun _ => by simp [encode, Instr.row]⟩

end Sys2Proof.Laws.RowInTable
end

