-- ==== Sys2Proof/Laws/Thread.lean ====
section
/-! SUPPORT. How an agent's steps compose: the equations a run of lines is taken apart with, and the
induction that carries a property from one step to a whole turn. -/

namespace Sys2Proof.Machine

@[simp] theorem stepThread_line (a : AgentId) (l : Line) (rest : List Line) (v : Value) (t : Rat)
    (s : State) : stepThread a ⟨l :: rest, v, t⟩ s = runLine ⟨l :: rest, v, t⟩ l rest s := rfl

/-- An idle agent other than `A_SERIAL` has no step. -/
theorem stepThread_idle {a : AgentId} (h : a ≠ .serial) (v : Value) (t : Rat) (s : State) :
    stepThread a ⟨[], v, t⟩ s = .next (⟨[], v, t⟩, s) := by
  simp [stepThread, h]

@[simp] theorem runThread_zero (a : AgentId) (th : Thread) (s : State) :
    runThread a 0 th s = .next (th, s) := rfl

/-- A turn's first step at a line, and the steps after it. -/
@[simp] theorem runThread_line (a : AgentId) (n : Nat) (l : Line) (rest : List Line) (v : Value)
    (t : Rat) (s : State) :
    runThread a (n + 1) ⟨l :: rest, v, t⟩ s =
      match runLine ⟨l :: rest, v, t⟩ l rest s with
      | .next (th', s') => runThread a n th' s'
      | .fault e => .fault e
      | .refused r => .refused r := rfl

/-- One more step after a step that answers. -/
theorem runThread_succ_next {a : AgentId} {n : Nat} {th th' : Thread} {s s' : State}
    (h : stepThread a th s = .next (th', s')) :
    runThread a (n + 1) th s = runThread a n th' s' := by
  simp [runThread, h]

/-- An idle agent other than `A_SERIAL` stays where it is for a whole turn. -/
@[simp] theorem runThread_idle {a : AgentId} (h : a ≠ .serial) (n : Nat) (v : Value) (t : Rat)
    (s : State) : runThread a n ⟨[], v, t⟩ s = .next (⟨[], v, t⟩, s) := by
  induction n with
  | zero => rfl
  | succ n ih => rw [runThread_succ_next (stepThread_idle h v t s), ih]

/-- `A_SERIAL` with nothing queued has no step (R200). -/
theorem runThread_serial_empty (n : Nat) (v : Value) (t : Rat) {s : State} (h : s.rxq = []) :
    runThread .serial n ⟨[], v, t⟩ s = .next (⟨[], v, t⟩, s) := by
  induction n with
  | zero => rfl
  | succ n ih =>
    rw [runThread_succ_next (th' := ⟨[], v, t⟩) (s' := s) (by simp [stepThread, runSerialByte, h]), ih]

/-- A property that every step of an agent keeps holds after a whole turn's steps. -/
theorem runThread_induct {a : AgentId} (P : Thread → State → Prop)
    (hstep : ∀ th s th' s', P th s → stepThread a th s = .next (th', s') → P th' s') :
    ∀ (n : Nat) (th : Thread) (s : State) (th' : Thread) (s' : State),
      P th s → runThread a n th s = .next (th', s') → P th' s' := by
  intro n
  induction n with
  | zero =>
    intro th s th' s' hp h
    simp only [runThread_zero, Host.Outcome.next.injEq, Prod.mk.injEq] at h
    obtain ⟨rfl, rfl⟩ := h
    exact hp
  | succ n ih =>
    intro th s th' s' hp h
    simp only [runThread] at h
    split at h
    · rename_i th1 s1 h1
      exact ih th1 s1 th' s' (hstep th s th1 s1 hp h1) h
    · cases h
    · cases h

/-- What a turn answers, by where its steps end. -/
theorem runTurn_next {a : AgentId} {th : Thread} {s t : State} (h : runTurn a th s = .next t) :
    ∃ th' s', runThread a s.slice th s = .next (th', s') ∧ t = s'.park a th' := by
  unfold runTurn at h
  split at h
  · rename_i th' s' h'
    exact ⟨th', s', h', by simpa using h.symm⟩
  · cases h
  · cases h

/-- An agent that has finished leaves no position behind. -/
@[simp] theorem park_done (s : State) (a : AgentId) (v : Value) (t : Rat) :
    s.park a ⟨[], v, t⟩ = s := rfl

/-- An agent with lines still to run is kept. -/
@[simp] theorem park_more (s : State) (a : AgentId) (l : Line) (rest : List Line) (v : Value)
    (t : Rat) : s.park a ⟨l :: rest, v, t⟩ =
      { s with threads := Assoc.put s.threads a.key ⟨l :: rest, v, t⟩ } := rfl

/-- A turn whose steps end answers the state with the agent's position kept. -/
theorem runTurn_of_runThread {a : AgentId} {th th' : Thread} {s s' : State}
    (h : runThread a s.slice th s = .next (th', s')) : runTurn a th s = .next (s'.park a th') := by
  simp [runTurn, h]

theorem running_iff (s : State) (a : AgentId) :
    s.running a = true ↔ ∃ th, Assoc.get s.threads a.key = some th := by
  simp [State.running, Option.isSome_iff_exists]

/-- Where an agent that is not running stands. -/
theorem thread_of_not_running {s : State} {a : AgentId} (h : s.running a = false) :
    s.thread a = Thread.idle := by
  simp only [State.running, Option.isSome_eq_false_iff, Option.isNone_iff_eq_none] at h
  simp [State.thread, h]

/-- Taking an agent that is not running out of the map changes nothing. -/
theorem erase_of_not_running {s : State} {a : AgentId} (h : s.running a = false) :
    Assoc.erase s.threads a.key = s.threads := by
  simp only [State.running, Option.isSome_eq_false_iff, Option.isNone_iff_eq_none] at h
  exact assoc_erase_absent h

/-- Taking up an agent that is not running changes nothing. -/
theorem takeUp_of_not_running {s : State} {a : AgentId} (h : s.running a = false) :
    s.takeUp a = s := by
  simp [State.takeUp, erase_of_not_running h]

/-! ### `RMW` whole -/

/-- How many steps an `RMW(f)` takes: its atomic step, and its bus write when the value changes (R137,
R138). -/
def rmwSteps (s : State) (f : ByteFn) : Nat := if applyByteFn f s.out = s.out then 1 else 2

theorem rmwSteps_le (s : State) (f : ByteFn) : rmwSteps s f ≤ 2 := by
  unfold rmwSteps; split <;> simp

/-- The state an `RMW(f)` leaves with no other agent between its two steps. -/
def rmwWhole (s : State) (f : ByteFn) : State :=
  if applyByteFn f s.out = s.out then s
  else (s.rmwAtomic f).busWrite s.cfg.regOutPort (applyByteFn f s.out)

/-- An `RMW` run through: an agent at `RMW(f)` stands, that many steps later, at the lines after it. -/
theorem runThread_rmw (a : AgentId) (n : Nat) (f : ByteFn) (rest : List Line) (v : Value) (t : Rat)
    (s : State) :
    runThread a (n + rmwSteps s f) ⟨.rmw f :: rest, v, t⟩ s =
      runThread a n ⟨rest, .pair s.out (applyByteFn f s.out), s.time⟩ (rmwWhole s f) := by
  by_cases h : applyByteFn f s.out = s.out
  · have hs : s.rmwAtomic f = s := by simp [State.rmwAtomic, h]
    simp [rmwSteps, rmwWhole, h, runLine, runRmw, changed, proceed, hs]
  · have hk : rmwSteps s f = 1 + 1 := by simp [rmwSteps, h]
    rw [hk, ← Nat.add_assoc]
    simp [rmwWhole, h, runLine, runRmw, changed, proceed]

end Sys2Proof.Machine
end

