-- ==== Sys2Proof/Tests/Slice0.lean ====
section
/-! SUPPORT. The model's own tests. Expected results are the vectors of 95_test_vectors.md (named V-…
as there) or worked by hand from the rule named, never the model's own answer. Bytes are those of
`CFG_EX`. -/

namespace Sys2Proof.Tests

set_option Elab.async false

open Sys2Proof Sys2Proof.Machine

/-! ### Helpers -/

/-- A field of the next state, if there is one. -/
def got {α : Type} (f : State → α) : Host.Outcome State Fault Refusal → Option α
  | .next s => some (f s)
  | .fault _ => none
  | .refused _ => none

/-- Why a step was refused, if it was. -/
def refusal : Host.Outcome State Fault Refusal → Option Refusal
  | .next _ => none
  | .fault _ => none
  | .refused r => some r

theorem next_of_got {o : Host.Outcome State Fault Refusal} (h : got (fun _ => ()) o = some ()) :
    ∃ t, o = .next t := by
  cases o with
  | next t => exact ⟨t, rfl⟩
  | fault e => cases h
  | refused r => cases h

/-- Ready, the conforming expander, turns of 16 steps. -/
def up : State := { State.reset with drv := .ready, slice := 16, chip := ⟨true, []⟩ }

/-- As `up`, but the driver Unavailable. -/
def down : State := { up with drv := .unavailable }

/-- A Ready state with some bytes scripted for the bus. -/
def reading (bs : Bytes) : State := { up with busIn := bs }

/-- What a well-formed operation's word decodes to under `CFG_EX`. -/
def read (w : Bytes) : Option Instr := (decode Config.cfgEx w).toOption

/-! ### Well-formedness: an ill-formed term for each check -/

theorem test_wf_encodeResponse_long :
    Instr.wellFormed (.encodeResponse (List.replicate 65536 0)) = false := by
  simp only [Instr.wellFormed, List.length_replicate]; decide
theorem test_wf_encodeRequest_long :
    Instr.wellFormed (.encodeRequest (List.replicate 256 0)) = false := by
  simp only [Instr.wellFormed, List.length_replicate]; decide
theorem test_wf_serialExchange_long :
    Instr.wellFormed (.serialExchange (List.replicate 256 0)) = false := by
  simp only [Instr.wellFormed, List.length_replicate]; decide
theorem test_wf_o_range : Instr.wellFormed (.o 2147483648 true) = false := by decide
theorem test_wf_md_range : Instr.wellFormed (.md (-2147483649) .forward) = false := by decide
theorem test_wf_mp_range : Instr.wellFormed (.mp 0 2147483648) = false := by decide
theorem test_wf_unknown_known : Instr.wellFormed (.unknown (ascii "/poll")) = false := by decide
theorem test_wf_limits_admitted :
    Instr.wellFormed (.mp (-2147483648) 2147483647) = true ∧
    Instr.wellFormed (.encodeRequest (List.replicate 255 0)) = true := by
  refine ⟨by decide, ?_⟩
  simp only [Instr.wellFormed, List.length_replicate]; decide
theorem test_cfg_wf : Config.cfgEx.wf = true := by decide +kernel
theorem test_cfg_ill_bits : Cfg.wf { Config.cfgEx with trigBit := 1 } = false := by decide +kernel
theorem test_cfg_ill_time : Cfg.wf { Config.cfgEx with tTrig := 0 } = false := by decide +kernel

/-! ### Decoding: one word for each constructor. After the row byte stand the spec's own encodings:
`BW` (R91), `BR` (R92), `FI` (R94), `FO` (R96), `CT` (R99 to R105). -/

theorem test_decode_busWrite : read [0, 0x40, 0x12, 0x02] = some (.busWrite 0x12 0x02) := by decide
theorem test_decode_busRead : read [1, 0x41, 0x13] = some (.busRead 0x13) := by decide
theorem test_decode_init : read [2, 2] = some (.init (.fail 2)) := by decide
theorem test_decode_isReady : read [3] = some .isReady := by decide
theorem test_decode_readInputs : read [4] = some .readInputs := by decide
theorem test_decode_readOutputLatch : read [5] = some .readOutputLatch := by decide
theorem test_decode_rmw : read [6, 1, 0x0F] = some (.rmw (.andNotMask 0x0F)) := by decide
theorem test_decode_setBits : read [7, 0x02] = some (.setBits 0x02) := by decide
theorem test_decode_clearBits : read [8, 0xFF] = some (.clearBits 0xFF) := by decide
theorem test_decode_writeOutputs : read [9, 0x10] = some (.writeOutputs 0x10) := by decide
theorem test_decode_irqEdge : read [10] = some .irqEdge := by decide
theorem test_decode_measure : read [11] = some .measure := by decide
theorem test_decode_tick : read [12] = some .tick := by decide
theorem test_decode_drive : read [13, 1, 2] = some (.drive 1 .reverse) := by decide
theorem test_decode_safeSetClear : read [14, 0x10, 0x20] = some (.safeSetClear 0x10 0x20) := by decide
theorem test_decode_setDirection : read [15, 0, 1] = some (.setDirection 0 .forward) := by decide
theorem test_decode_setPower : read [16, 0, 0x2D, 0x35] = some (.setPower 0 (-5)) := by decide
theorem test_decode_stopAll : read [17] = some .stopAll := by decide
theorem test_decode_decodeByte : read [18, 0xAA] = some (.decodeByte 0xAA) := by decide
theorem test_decode_encodeResponse :
    read [19, 0xAA, 0x00, 0x02, 0x6F, 0x6B] = some (.encodeResponse [0x6F, 0x6B]) := by decide
theorem test_decode_encodeRequest :
    read [20, 0xAA, 0x02, 0xAA, 0xAA] = some (.encodeRequest [0xAA, 0xAA]) := by decide
theorem test_decode_decodeResponse : read [21, 0xAA] = some (.decodeResponse 0xAA) := by decide
theorem test_decode_serialExchange :
    read [22, 0x2F, 0x70] = some (.serialExchange [0x2F, 0x70]) := by decide
theorem test_decode_dispatch : read [23, 0x2F] = some (.dispatch [0x2F]) := by decide
theorem test_decode_poll : read [24, 0x2F, 0x70, 0x6F, 0x6C, 0x6C] = some .poll := by decide
theorem test_decode_o :
    read [25, 0x2F, 0x6F, 0x2F, 0x31, 0x2F, 0x74, 0x72, 0x75, 0x65] = some (.o 1 true) := by decide
theorem test_decode_resetAll :
    read [26, 0x2F, 0x72, 0x65, 0x73, 0x65, 0x74, 0x5F, 0x61, 0x6C, 0x6C] = some .resetAll := by
  decide
theorem test_decode_crossdomain :
    read [27, 0x2F, 0x63, 0x72, 0x6F, 0x73, 0x73, 0x64, 0x6F, 0x6D, 0x61, 0x69, 0x6E, 0x2E, 0x78,
      0x6D, 0x6C] = some .crossdomain := by decide
theorem test_decode_md :
    read [28, 0x2F, 0x6D, 0x64, 0x2F, 0x30, 0x2F, 0x46, 0x6F, 0x72, 0x77, 0x61, 0x72, 0x64] =
      some (.md 0 .forward) := by decide
theorem test_decode_mp :
    read [29, 0x2F, 0x6D, 0x70, 0x2F, 0x31, 0x2F, 0x2D, 0x35] = some (.mp 1 (-5)) := by decide
theorem test_decode_unknown :
    read [30, 0x70, 0x6F, 0x6C, 0x6C] = some (.unknown [0x70, 0x6F, 0x6C, 0x6C]) := by decide

/-- Refused by name: an empty word, a row past the table, a device byte of the other direction. -/
theorem test_decode_refuses :
    decode Config.cfgEx [] = .error .emptyWord ∧ decode Config.cfgEx [31] = .error .unknownRow ∧
    decode Config.cfgEx [0, 0x41, 0x12, 0x02] = .error .wrongDeviceByte := ⟨rfl, rfl, rfl⟩

/-- V-CMD-7, V-CMD-9, V-CMD-10, V-CMD-14, V-CMD-20, V-CMD-23: texts a conversion rejects. -/
theorem test_texts_unknown :
    ∀ t ∈ [ascii "/o/0/yes", ascii "/o/0", ascii "/o/5/maybe", ascii "/md/0", ascii "/mp/0/3.5",
      ascii "/mp/0/2147483648"], decodeText t = .unknown t := by decide

/-- V-CMD-12, V-CMD-13, V-CMD-37, V-CMD-38. -/
theorem test_texts_known :
    decodeText (ascii "/md/0/forward") = .md 0 .stopped ∧
    decodeText (ascii "/md/0/") = .md 0 .stopped ∧ decodeText (ascii "x/poll") = .poll ∧
    decodeText (ascii "/poll/anything/else") = .poll := by decide

/-- Table words: `40 12 02` and `41 13`, byte 0 lowest, are the write and the read. -/
theorem test_tableWord :
    decodeTableWord 24 0x021240 = some (.busWrite 0x12 0x02) ∧
    decodeTableWord 16 0x1341 = some (.busRead 0x13) ∧
    decodeTableWord 40 0x6C6C6F702F = some .poll := by decide

/-- A table word is run by the very next step from reset: `/crossdomain.xml`'s reply needs no driver. -/
theorem test_withFetchWord :
    got (fun s => s.replies)
      (step (State.reset.withFetchWord 128 0x6C6D782E6E69616D6F6473736F72632F)) =
      some [(0, xdomain 50210)] := by decide +kernel

/-! ### One step each -/

/-- V-BUS-1. -/
theorem test_busWrite :
    got (fun s => (s.busTrace.map (Txn.bytesOut s.cfg), s.out)) (exec (.busWrite 0x12 0x02) up) =
      some ([[0x40, 0x12, 0x02]], 0x00) := by decide +kernel
/-- V-BUS-3. -/
theorem test_busWrite_gated :
    got (fun s => s.busTrace) (exec (.busWrite 0x12 0xFF) down) = some [] := by decide +kernel
/-- V-BUS-4. -/
theorem test_busRead :
    got (fun s => (s.busTrace.map (Txn.bytesOut s.cfg), s.results))
      (exec (.busRead 0x13) (reading [0x85])) = some ([[0x41, 0x13]], [(0, .byte 0x85)]) := by
  decide +kernel
/-- V-BUS-6. -/
theorem test_busRead_gated :
    got (fun s => (s.busTrace, s.results)) (exec (.busRead 0x14) down) =
      some ([], [(0, .byte 0x00)]) := by decide +kernel
/-- V-INIT-ok. -/
theorem test_init_ok :
    got (fun s => (s.drv, s.busTrace.map (Txn.bytesOut s.cfg)))
      (exec (.init .ok) { up with drv := .uninit }) =
      some (.ready, [[0x40, 0x0A, 0x08], [0x40, 0x12, 0x00], [0x40, 0x00, 0x00],
        [0x40, 0x01, 0xFF], [0x40, 0x0D, 0xFF], [0x40, 0x05, 0x00]]) := by decide +kernel
/-- V-INIT-2. -/
theorem test_init_fail :
    got (fun s => (s.drv, s.busTrace.map (Txn.bytesOut s.cfg)))
      (exec (.init (.fail 2)) { up with drv := .uninit }) =
      some (.unavailable, [[0x40, 0x0A, 0x08], [0x40, 0x12, 0x00]]) := by decide +kernel
/-- V-RD-3, V-RD-4. -/
theorem test_isReady :
    got (fun s => s.results) (exec .isReady down) = some [(0, .bool false)] ∧
    got (fun s => s.results) (exec .isReady up) = some [(0, .bool true)] := by decide +kernel
/-- V-RD-1. -/
theorem test_readInputs :
    got (fun s => s.results) (exec .readInputs (reading [0x85])) = some [(0, .byte 0x85)] := by
  decide +kernel
/-- V-RD-2. -/
theorem test_readOutputLatch :
    got (fun s => (s.busTrace.map (Txn.bytesOut s.cfg), s.results))
      (exec .readOutputLatch { up with chip := ⟨true, [(0x12, 0x02)]⟩ }) =
      some ([[0x41, 0x14]], [(0, .byte 0x02)]) := by decide +kernel
/-- R137 with `f(v) = v & ~0x06` on 0x16. -/
theorem test_rmw :
    got (fun s => (s.out, s.results)) (exec (.rmw (.andNotMask 0x06)) { up with out := 0x16 }) =
      some (0x10, [(0, .pair 0x16 0x10)]) := by decide +kernel
/-- V-RMW-5. -/
theorem test_setBits :
    got (fun s => (s.out, s.busTrace.map (Txn.bytesOut s.cfg)))
      (exec (.setBits 0x06) { up with out := 0x12 }) = some (0x16, [[0x40, 0x12, 0x16]]) := by
  decide +kernel
/-- V-RMW-2: nothing changes, nothing is written. -/
theorem test_setBits_idempotent :
    got (fun s => (s.out, s.busTrace)) (exec (.setBits 0x02) { up with out := 0x02 }) =
      some (0x02, []) := by decide +kernel
/-- V-RMW-3. -/
theorem test_clearBits :
    got (fun s => (s.out, s.busTrace.map (Txn.bytesOut s.cfg)))
      (exec (.clearBits 0x02) { up with out := 0x02 }) = some (0x00, [[0x40, 0x12, 0x00]]) := by
  decide +kernel
/-- V-RMW-7. -/
theorem test_writeOutputs :
    got (fun s => (s.out, s.busTrace.map (Txn.bytesOut s.cfg)))
      (exec (.writeOutputs 0x00) { up with out := 0x10 }) = some (0x00, [[0x40, 0x12, 0x00]]) := by
  decide +kernel
/-- V-IRQ-1. -/
theorem test_irqEdge :
    got (fun s => (s.busTrace.map (Txn.bytesOut s.cfg), s.events))
      (exec .irqEdge (reading [0x04, 0xFB])) =
      some ([[0x41, 0x0F], [0x41, 0x11]], [.ioChange 0x04 0xFB]) := by decide +kernel
/-- R142: 49 ms after the last accepted edge. -/
theorem test_irqEdge_early :
    refusal (exec .irqEdge { up with lastIrq := some 1, time := 50 }) = some .irqTooEarly := by
  decide +kernel
/-- V-SON-32: the trigger bit, 1 before, is cleared at once. -/
theorem test_measure :
    got (fun s => (s.sonarState, s.out, s.busTrace.map (Txn.bytesOut s.cfg)))
      (exec .measure { up with out := 0x01 }) =
      some (.triggering, 0x00, [[0x40, 0x12, 0x00]]) := by decide +kernel
/-- V-SON-9, V-SON-10: 5885 µs is the largest whole number of microseconds accepted. -/
theorem test_distance : distanceMm (5885 / 1000) = 1000 ∧ distanceMm (5886 / 1000) = 1001 := by
  decide +kernel
/-- V-TICK-3. -/
theorem test_tick :
    got (fun s => (s.tick, s.out, s.busTrace.map (Txn.bytesOut s.cfg)))
      (exec .tick { up with tick := 7, ch0 := ⟨.reverse, 5, 0⟩, out := 0x10 }) =
      some (8, 0x20, [[0x40, 0x12, 0x00], [0x40, 0x12, 0x20]]) := by decide +kernel
/-- V-TICK-6: a tick count past 2^32. -/
theorem test_tick_large :
    got (fun s => (s.tick, s.out)) (exec .tick { up with tick := 10 ^ 12, ch0 := ⟨.forward, 1, 2⟩ }) =
      some (10 ^ 12 + 1, 0x00) := by decide +kernel
/-- V-DRV-3; no result is handed over. -/
theorem test_drive :
    got (fun s => (s.out, s.busTrace.map (Txn.bytesOut s.cfg), s.results))
      (exec (.drive 0 .reverse) { up with out := 0x10 }) =
      some (0x20, [[0x40, 0x12, 0x00], [0x40, 0x12, 0x20]], [(0, .unit)]) := by decide +kernel
/-- V-SSC-1; no result is handed over. -/
theorem test_safeSetClear :
    got (fun s => (s.out, s.busTrace.map (Txn.bytesOut s.cfg), s.results))
      (exec (.safeSetClear 0x10 0x20) { up with out := 0x21 }) =
      some (0x11, [[0x40, 0x12, 0x01], [0x40, 0x12, 0x11]], [(0, .unit)]) := by decide +kernel
/-- V-SET-2. -/
theorem test_setDirection :
    got (fun s => (s.ch1, s.busTrace)) (exec (.setDirection 1 .reverse) up) =
      some (⟨.reverse, 0, 5⟩, []) := by decide +kernel
/-- V-SET-1. -/
theorem test_setPower :
    got (fun s => s.ch0) (exec (.setPower 0 4) { up with ch0 := ⟨.forward, 1, 1⟩ }) =
      some ⟨.forward, 2, 1⟩ := by decide +kernel
/-- V-SET-3. -/
theorem test_stopAll :
    got (fun s => (s.ch0, s.ch1))
      (exec .stopAll { up with ch0 := ⟨.forward, 5, 0⟩, ch1 := ⟨.reverse, 1, 1⟩ }) =
      some (⟨.stopped, 5, 0⟩, ⟨.stopped, 1, 1⟩) := by decide +kernel
/-- V-DEC-4: the second 0xAA is a length of 170. -/
theorem test_decodeByte :
    got (fun s => s.dec) (exec (.decodeByte 0xAA) { up with dec := ⟨.len, 0, []⟩ }) =
      some ⟨.payload, 170, []⟩ := by decide +kernel
/-- V-DEC-1 and V-CMD-29: the last byte of a framed `/poll` with the driver Unavailable; the reply of
48 bytes goes out behind `AA 00 30`. -/
theorem test_decodeByte_delivers :
    got (fun s => (s.dec.phase, s.serialOut.take 5, s.serialOut.length))
      (exec (.decodeByte 0x6C) { down with dec := ⟨.payload, 5, [0x2F, 0x70, 0x6F, 0x6C]⟩ }) =
      some (.hunt, [0xAA, 0x00, 0x30, 0x5F, 0x70], 51) := by decide +kernel
/-- V-ENC-2. -/
theorem test_encodeResponse :
    got (fun s => s.results) (exec (.encodeResponse (ascii "okay\n")) up) =
      some [(0, .bytes [0xAA, 0x00, 0x05, 0x6F, 0x6B, 0x61, 0x79, 0x0A])] := by decide +kernel
/-- V-ENC-5, its length bytes: 300 is 01 2C. -/
theorem test_encodeResponse_length :
    (responseFrame (List.replicate 300 0)).take 3 = [0xAA, 0x01, 0x2C] := by decide +kernel
/-- V-ENC-1. -/
theorem test_encodeRequest :
    got (fun s => s.results) (exec (.encodeRequest []) up) = some [(0, .bytes [0xAA, 0x00])] := by
  decide +kernel
/-- R206: the low length byte 0x05 after the high byte 0x01. -/
theorem test_decodeResponse :
    got (fun s => (s.peer.phase, s.peer.len))
      (exec (.decodeResponse 0x05) { up with peer := ⟨.lenLow, 0x01, 0, [], []⟩ }) =
      some (.payload, 261) := by decide +kernel
/-- V-SX-7. -/
theorem test_serialExchange_sends :
    got (fun s => (s.ch0.state, s.serialOut))
      (exec (.serialExchange (ascii "/md/0/poll")) { up with ch0 := ⟨.forward, 1, 1⟩ }) =
      some (.stopped, [0xAA, 0x00, 0x05, 0x6F, 0x6B, 0x61, 0x79, 0x0A]) := by decide +kernel
/-- V-SX-3. -/
theorem test_serialExchange_silent :
    got (fun s => (s.out, s.serialOut)) (exec (.serialExchange (ascii "/o/0/true")) up) =
      some (0x02, []) := by decide +kernel
/-- V-CMD-39. -/
theorem test_dispatch_unknown :
    got (fun s => s.replies) (exec (.dispatch (ascii "foo/bar")) up) =
      some [(0, ascii "_problem unknown command: foo/bar\n")] := by decide +kernel
/-- V-CMD-19. -/
theorem test_dispatch_mp :
    got (fun s => (s.ch0, s.replies)) (exec (.dispatch (ascii "/mp/0/4")) up) =
      some (⟨.stopped, 2, 1⟩, [(0, ascii "okay\n")]) := by decide +kernel
/-- V-CMD-30. -/
theorem test_poll :
    got (fun s => s.replies)
      (exec .poll { up with busIn := [0xFF], dist := 1000, chip := ⟨true, [(0x12, 0xFF)]⟩ }) =
      some [(0, ascii
        "i/0 true\ni/1 true\no/0 true\ni/2 true\no/1 true\ni/3 true\ni/4 true\ni/5 true\ni/6 true\nd 1000\n")] := by
  decide +kernel
/-- V-CMD-29. -/
theorem test_poll_not_connected :
    got (fun s => (s.replies, s.busTrace)) (exec .poll down) =
      some ([(0, ascii "_problem The Digital 2 Piface is not connected.\n")], []) := by
  decide +kernel
/-- V-CMD-2. -/
theorem test_o :
    got (fun s => (s.out, s.busTrace.map (Txn.bytesOut s.cfg), s.replies)) (exec (.o 1 true) up) =
      some (0x04, [[0x40, 0x12, 0x04]], [(0, ascii "okay\n")]) := by decide +kernel
/-- V-CMD-4. -/
theorem test_o_invalid :
    got (fun s => (s.out, s.replies)) (exec (.o 2 true) up) =
      some (0x00, [(0, ascii "_problem invalid bit")]) := by decide +kernel
/-- V-CMD-26. -/
theorem test_resetAll :
    got (fun s => (s.ch0, s.replies)) (exec .resetAll { up with ch0 := ⟨.forward, 3, 1⟩ }) =
      some (⟨.stopped, 3, 1⟩, [(0, ascii "okay\n")]) := by decide +kernel
/-- V-CMD-27. -/
theorem test_crossdomain :
    got (fun s => s.replies) (exec .crossdomain up) =
      some [(0, ascii ("<cross-domain-policy><allow-access-from domain=\"*\" " ++
        "to-ports=\"50210\"/></cross-domain-policy>\n"))] := by decide +kernel
/-- V-CMD-11. -/
theorem test_md :
    got (fun s => (s.ch0.state, s.replies)) (exec (.md 0 .forward) up) =
      some (.forward, [(0, ascii "okay\n")]) := by decide +kernel
/-- V-CMD-15. -/
theorem test_md_invalid :
    got (fun s => (s.ch0.state, s.replies)) (exec (.md 2 .forward) up) =
      some (.stopped, [(0, ascii "_problem: invalid motor id\n")]) := by decide +kernel
/-- V-CMD-17. -/
theorem test_mp :
    got (fun s => (s.ch1, s.replies)) (exec (.mp 1 99) up) =
      some (⟨.stopped, 5, 0⟩, [(0, ascii "okay\n")]) := by decide +kernel
/-- V-CMD-35. -/
theorem test_unknown :
    got (fun s => s.replies) (exec (.unknown [0x2F]) up) =
      some [(0, ascii "_problem unknown command: /\n")] := by decide +kernel

/-! ### Witnesses: for each statement with hypotheses, a state and operands that meet them, and for each
of its clauses, at a boundary where it has one -/

/-- Agent `A_CMD[k]` with the bus write of `v` to the output port pending. -/
def pending (v : Byte) : Thread := ⟨[.busWrite 0x12 v], .unit, 0⟩

theorem witness_BusWriteIsOneGatedTransaction :
    2 ≤ up.slice ∧ up.drv = .ready ∧ 2 ≤ down.slice ∧ down.drv ≠ .ready := by decide
theorem witness_ExpanderKeepsEveryOtherRegister :
    (0x12 : Byte) ∈ up.cfg.regs ∧ (0x14 : Byte) ∈ up.cfg.regs ∧ (0xFF : Byte) ∉ up.cfg.regs ∧
    (0x13 : Nat) ≠ (0x12 : Byte).toNat := by decide
theorem witness_BusReadIsOneGatedTransaction :
    2 ≤ up.slice ∧ up.drv = .ready ∧ 2 ≤ down.slice ∧ down.drv ≠ .ready := by decide
theorem witness_ReadsDrawFromTheEnvironment :
    ((reading [0x85]).chip.conforming = true ∧ (0x13 : Byte) ≠ (reading [0x85]).cfg.regOutLatch ∧
      (0x13 : Byte) = (reading [0x85]).cfg.regInPort ∧ (reading [0x85]).busIn = [0x85]) ∧
    (0x0F : Byte) = up.cfg.regIntFlag ∧ (0x11 : Byte) = up.cfg.regIntCapture ∧ up.busIn = [] ∧
    State.reset.chip.conforming = false ∧ (0xFF : Byte) ∉ up.cfg.regs ∧
    (0x0D : Byte) ∈ up.cfg.regs ∧ (0x0D : Byte) ≠ up.cfg.regOutLatch ∧
    (0x0D : Byte) ≠ up.cfg.regInPort ∧ (0x0D : Byte) ≠ up.cfg.regIntFlag ∧
    (0x0D : Byte) ≠ up.cfg.regIntCapture := by decide
theorem witness_LatchReadReturnsLastPortWrite :
    up.cfg.wf = true ∧ up.chip.conforming = true ∧
      (∀ w ∈ ([(0x14, 0x00)] : List (Byte × Byte)), w.1 ≠ up.cfg.regOutPort) :=
  ⟨by decide +kernel, by decide, fun _ h => by obtain rfl := List.mem_singleton.mp h; decide⟩
theorem witness_InitSuccessConfiguresAndBecomesReady :
    ({ up with drv := .uninit } : State).drv = .uninit ∧ up.initStarted = false ∧ 10 ≤ up.slice := by
  decide
theorem witness_InitFailureStopsAfterItsWrites :
    ({ up with drv := .uninit } : State).drv = .uninit ∧ up.initStarted = false ∧ 10 ≤ up.slice ∧
      (0 : Fin 6).val = 0 ∧ (5 : Fin 6).val = 5 := by decide
theorem witness_StatusAndPortReadsReturnTheirValue :
    2 ≤ up.slice ∧ up.drv = .ready ∧ 2 ≤ down.slice ∧ down.drv ≠ .ready := by decide
theorem witness_RmwWritesOnlyAChange :
    3 ≤ up.slice ∧ applyByteFn (.orMask 0x02) up.out ≠ up.out ∧
      applyByteFn (.orMask 0x00) up.out = up.out := by decide
theorem witness_OutputOperationsAreRmws : 3 ≤ up.slice := by decide
theorem witness_RmwBusWriteIsASeparateStep :
    ({ up with slice := 1 } : State).slice = 1 ∧ applyByteFn (.orMask 0x02) up.out ≠ up.out := by
  decide
theorem witness_PendingWritesLandInEitherOrder :
    ({ up with slice := 1, threads := [(1, pending 0x12), (5, pending 0x02)] } : State).drv = .ready ∧
    ({ up with slice := 1, threads := [(1, pending 0x12), (5, pending 0x02)] } : State).slice = 1 ∧
    AgentId.tick ≠ .cmd 0 ∧
    Assoc.get [(1, pending 0x12), (5, pending 0x02)] AgentId.tick.key =
      some ⟨[.busWrite up.cfg.regOutPort 0x12], .unit, 0⟩ ∧
    Assoc.get [(1, pending 0x12), (5, pending 0x02)] (AgentId.cmd 0).key =
      some ⟨[.busWrite up.cfg.regOutPort 0x02], .unit, 0⟩ := by decide +kernel
theorem witness_LatchFollowsShadowOfOneAgent :
    ∃ (f : ByteFn) (s t : State), 3 ≤ s.slice ∧ s.drv = .ready ∧ s.cfg.wf = true ∧
      s.latch = s.out ∧ exec (.rmw f) s = .next t := by
  obtain ⟨t, ht⟩ := next_of_got (o := exec (.rmw (.orMask 0x02)) up) (by decide +kernel)
  exact ⟨_, _, t, by decide, rfl, by decide +kernel, by decide +kernel, ht⟩
theorem witness_IrqEdgeReportsTheStatusRegisters :
    up.lastIrq = none ∧ ({ up with lastIrq := some 0 } : State).lastIrq = some 0 ∧
      (0 : Rat) + 50 ≤ ({ up with time := 50 } : State).time ∧
      up.running .irq = false ∧ 4 ≤ up.slice ∧ up.drv = .ready ∧ down.drv ≠ .ready := by
  decide +kernel
theorem witness_ForbiddenEventsAreRefused :
    up.drv ≠ .uninit ∧ ({ State.reset with initStarted := true } : State).initStarted = true ∧
    (49 : Rat) < 0 + 50 ∧
    ({ up with threads := [(2, ⟨[.measureTest], .unit, 0⟩)] } : State).running .sonar = true ∧
    ({ up with sonarState := .waiting } : State).sonarState ≠ .idle ∧ 1 ≤ up.slice ∧
    ({ up with threads := [(1, ⟨[.tickEnd 0], .unit, 0⟩)] } : State).running .tick = true := by
  decide +kernel
theorem witness_PeriodicEventsDoNothingUnlessReady :
    State.reset.drv ≠ .ready ∧ down.drv ≠ .ready ∧ 1 ≤ down.slice ∧ down.running .sonar = false ∧
      down.running .tick = false := by decide
theorem witness_MeasureClearsTheTriggerAndWaits :
    up.drv = .ready ∧ up.sonarState = .idle ∧ up.running .sonar = false ∧ 0 < up.cfg.tTrig ∧
      3 ≤ up.slice := by decide +kernel
/-- `T_TRIG` is 10 µs; a step at time 0 leaves the wait open at 9 µs and over at 10 µs. -/
theorem witness_TriggerIsSetAfterTheDelay :
    (9 / 1000 : Rat) < 0 + up.cfg.tTrig ∧ 0 + up.cfg.tTrig ≤ (10 / 1000 : Rat) := by decide +kernel
theorem witness_EchoTimeoutEndsSilently : (60 : Rat) ≤ 60 - up.sonarT0 := by decide +kernel
theorem witness_SampleWithoutEdgeIsRemembered :
    (59 : Rat) - up.sonarT0 < 60 ∧
      ¬ (up.sonarPrev = .active ∧ bitOf (up.busRead up.cfg.regInPort).1 up.cfg.echoBit = false) := by
  refine ⟨by decide +kernel, fun h => absurd h.1 (by decide)⟩
theorem witness_FallingEdgePublishesTheDistance :
    ∃ s : State, s.time - s.sonarT0 < 60 ∧ s.sonarPrev = .active ∧
      bitOf (s.busRead s.cfg.regInPort).1 s.cfg.echoBit = false ∧
      distanceMm (s.time - s.sonarT0) = 1000 :=
  ⟨{ reading [0x7F] with time := 5885 / 1000, sonarPrev := .active }, by decide +kernel⟩
/-- The same with a distance that is discarded. -/
theorem witness_FallingEdgePublishesTheDistance_discarded :
    ∃ s : State, s.time - s.sonarT0 < 60 ∧ s.sonarPrev = .active ∧
      bitOf (s.busRead s.cfg.regInPort).1 s.cfg.echoBit = false ∧
      distanceMm (s.time - s.sonarT0) = 1001 :=
  ⟨{ reading [0x7F] with time := 5886 / 1000, sonarPrev := .active }, by decide +kernel⟩
theorem witness_MeasurementRunsToItsEnd :
    ∃ s : State, s.drv = .ready ∧ s.sonarState = .idle ∧ s.running .sonar = false ∧
      0 < s.cfg.tTrig ∧ 3 ≤ s.slice ∧ s.chip.conforming = false ∧ s.busIn = [0x80, 0x7F] ∧
      bitOf 0x80 s.cfg.echoBit = true ∧ bitOf 0x7F s.cfg.echoBit = false ∧
      s.time + s.cfg.tTrig ≤ 1 ∧ (1 : Rat) ≤ 2 ∧ (2 : Rat) ≤ 3 ∧ (3 : Rat) - 1 < 60 ∧
      distanceMm (3 - 1) ≤ 1000 :=
  ⟨{ reading [0x80, 0x7F] with chip := ⟨false, []⟩ }, by decide +kernel⟩
theorem witness_RoundIsNearestTiesUp :
    (0 : Rat) ≤ 17 / 2 ∧ ((9 : Int) : Rat) - 1 / 2 ≤ 17 / 2 ∧ (17 / 2 : Rat) < ((9 : Int) : Rat) + 1 / 2 := by
  decide +kernel
theorem witness_TickDrivesBothChannels :
    up.drv = .ready ∧ up.running .tick = false ∧ 12 ≤ up.slice := by decide
theorem witness_DriveSetsThePinPair :
    up.cfg.wf = true ∧ (2 : Fin 8) ≠ up.cfg.fwdBit 0 ∧ (2 : Fin 8) ≠ up.cfg.backBit 0 := by
  decide +kernel
theorem witness_SafeSetClearClearsBeforeItSets : 6 ≤ up.slice := by decide
theorem witness_SettersChangeTheChannelOnly : 3 ≤ up.slice := by decide
theorem witness_PowerIsClampedIntoTheTable :
    (0 : Int) ≤ 0 ∧ (6 : Int) ≤ 6 ∧ 3 ≤ up.slice := by decide
theorem witness_DutyPatternIsOffThenOn :
    3 < (dutyPair 1).1.toNat + (dutyPair 1).2.toNat ∧ ¬ 3 < (dutyPair 1).2.toNat ∧
      2 < (dutyPair 1).2.toNat := by decide
theorem witness_FullPowerKeepsTheForwardBit :
    ∃ s : State, s.cfg.wf = true ∧ s.drv = .ready ∧ s.running .tick = false ∧ 12 ≤ s.slice ∧
      s.ch0 = ⟨.forward, 5, 0⟩ ∧ bitOf s.out s.cfg.fwdBit0 = true ∧
      bitOf s.out s.cfg.backBit0 = false :=
  ⟨{ up with ch0 := ⟨.forward, 5, 0⟩, out := 0x10 }, by decide +kernel⟩
theorem witness_DecodeByteWithoutDelivery :
    up.running .serial = false ∧ up.rxq = [] ∧ 1 ≤ up.slice ∧ up.dec.phase = .hunt ∧
    ({ up with dec := ⟨.len, 0, []⟩ } : State).dec.phase = .len ∧
    ({ up with dec := ⟨.payload, 2, []⟩ } : State).dec.phase = .payload ∧
    ([] : Bytes).length + 1 ≠ (2 : Byte).toNat := by decide
/-- The frame of `/poll` but for its last byte, the driver Unavailable. -/
theorem witness_CompletedFrameIsExchanged :
    ∃ s : State, s.running .serial = false ∧ s.rxq = [] ∧ 3 ≤ s.slice ∧ s.dec.phase = .payload ∧
      s.dec.buf.length + 1 = s.dec.len.toNat ∧ parseCommand (s.dec.buf ++ [0x6C]) = .ok .poll ∧
      answered (s.dec.buf ++ [0x6C]) = true ∧ s.drv ≠ .ready :=
  ⟨{ down with dec := ⟨.payload, 5, [0x2F, 0x70, 0x6F, 0x6C]⟩ }, by decide, by decide, by decide,
    by decide, by decide, rfl, by decide, by decide⟩
/-- The length byte 0 awaited; and the last byte of a framed `/md/1/Forward`, when Ready. -/
theorem witness_CompletedFrameIsExchanged_any :
    ∃ s u : State, s.running .serial = false ∧ s.rxq = [] ∧ s.dec.phase = .len ∧ s.dist = 1000 ∧
      u.running .serial = false ∧ u.rxq = [] ∧ u.dec.phase = .payload ∧ u.dist ≤ 1000 ∧
      u.dec.buf.length + 1 = u.dec.len.toNat ∧
      decodeText (u.dec.buf ++ [0x64]) = .md 1 .forward ∧ 6 ≤ 6 :=
  ⟨{ up with dec := ⟨.len, 0, []⟩, dist := 1000 },
    { up with dec := ⟨.payload, 13, ascii "/md/1/Forwar"⟩ }, by decide⟩
/-- A payload of one byte, `X`, which is no command. -/
theorem witness_CompletedFrameIsExchanged_unknown :
    ∃ s : State, s.running .serial = false ∧ s.rxq = [] ∧ 3 ≤ s.slice ∧ s.dec.phase = .payload ∧
      s.dec.buf.length + 1 = s.dec.len.toNat ∧
      decodeText (s.dec.buf ++ [0x58]) = .unknown (s.dec.buf ++ [0x58]) :=
  ⟨{ down with dec := ⟨.payload, 1, []⟩ }, by decide⟩
theorem witness_FramesRoundTrip :
    up.dec.phase = .hunt ∧ up.dec.buf = [] ∧ (0xAA : Byte) ∉ ([0x00, 0xFF, 0x13] : Bytes) ∧
      (List.replicate 255 (0x41 : Byte)).length ≤ 255 ∧ up.peer.phase = .hunt ∧
      (List.replicate 65535 (0x41 : Byte)).length ≤ 65535 :=
  ⟨by decide, by decide, by decide, by rw [List.length_replicate], by decide,
    by rw [List.length_replicate]⟩
theorem witness_SerialBytesAreTakenInOrder :
    ∃ s u : State, s.Canonical ∧ s.running .serial = true ∧ s.slice = 0 ∧
      u.running .serial = false ∧ u.slice = 1 ∧ u.rxq = [0xAA] ∧ (u.dec.feed 0xAA).2 = none :=
  ⟨{ up with slice := 0, threads := [(4, ⟨[.serialReply []], .unit, 0⟩)] },
    { up with slice := 1, rxq := [0xAA] },
    ⟨by decide, fun p h => by obtain rfl := List.mem_singleton.mp h; decide, by decide⟩,
    by decide, by decide, by decide, by decide, by decide, by decide⟩
/-- In mid-exchange: a turn of one step at the last line, which ends the exchange; and a turn of two steps
from a poll's first line, which does not. -/
theorem witness_SerialBytesAreTakenInOrder_midExchange :
    (∃ th u, runLine ⟨[.serialReply [0x58]], .text [], 0⟩ (.serialReply [0x58]) []
      (State.takeUp { up with threads := [(4, ⟨[.serialReply [0x58]], .text [], 0⟩)] } .serial) =
        .next (th, u)) ∧
    ∃ u : State, resume .serial
      { up with slice := 2, threads := [(4, ⟨[.pollGate, .serialReply [0x58]], .unit, 0⟩)] } =
        .next u ∧ u.running .serial = true := ⟨⟨_, _, rfl⟩, _, rfl, rfl⟩
theorem witness_CodecFunctionsReturnTheirFrame :
    2 ≤ up.slice ∧ (List.replicate 65535 (0 : Byte)).length ≤ 65535 ∧
      65535 < (List.replicate 65536 (0 : Byte)).length ∧
      (List.replicate 255 (0 : Byte)).length ≤ 255 ∧
      255 < (List.replicate 256 (0 : Byte)).length := by
  simp only [List.length_replicate]; decide
/-- The peer's decoder at each turning of R206; 0x00 0x00 and 0x01 0x00 are lengths 0 and 256. -/
theorem witness_CodecFunctionsReturnTheirFrame_peer :
    ∃ d e f : PeerRegs, d.phase = .lenLow ∧ d.high.toNat * 256 + (0 : Byte).toNat = 0 ∧
      e.phase = .lenLow ∧ e.high.toNat * 256 + (0 : Byte).toNat ≠ 0 ∧
      f.phase = .payload ∧ f.buf.length + 1 = f.len :=
  ⟨⟨.lenLow, 0, 0, [], []⟩, ⟨.lenLow, 1, 0, [], []⟩, ⟨.payload, 0, 1, [], []⟩, by decide⟩
theorem witness_ExchangeSendsOnlyPollTexts :
    up.running .serial = false ∧ up.rxq = [] ∧ 6 ≤ up.slice ∧ up.dist ≤ 1000 ∧
      (ascii "/md/0/poll").length ≤ 255 ∧ (List.replicate 255 (0x41 : Byte)).length ≤ 255 ∧
      parseCommand (ascii "/md/0/poll") = .ok (.md 0 .stopped) ∧
      answered (ascii "/md/0/poll") = true ∧
      decodeText (ascii "/POLL") = .unknown (ascii "/POLL") ∧ answered (ascii "/POLL") = false :=
  ⟨by decide, by decide, by decide, by decide, by decide, by rw [List.length_replicate], rfl,
    by decide, by decide, by decide⟩
theorem witness_DispatchAnswersTheDecodedCommand : 6 ≤ up.slice := by decide
theorem witness_DispatchAnswersTheDecodedCommand_texts :
    (splitSlash (ascii "/o/0/true"))[1]? = some [0x6F] ∧
    (splitSlash (ascii "/o/0/true"))[2]? = some [0x30] ∧
    (splitSlash (ascii "/o/0/true"))[3]? = some (ascii "true") ∧
    (parseInt [0x30]).toOption = some 0 ∧ (parseBool (ascii "true")).toOption = some true ∧
    (splitSlash (ascii "x/md/1/Reverse"))[1]? = some [0x6D, 0x64] ∧
    (splitSlash (ascii "x/md/1/Reverse"))[3]? = some (ascii "Reverse") ∧
    (splitSlash (ascii "/mp/1/-5/"))[1]? = some [0x6D, 0x70] ∧
    (parseInt (ascii "-5")).toOption = some (-5) ∧
    (splitSlash (ascii "/poll"))[1]? = some (ascii "poll") ∧
    (splitSlash (ascii "//"))[1]? = some [] ∧ (splitSlash (ascii "poll"))[1]? = none := by decide
theorem witness_ParseErrorAnswersUnknown :
    parseCommand (ascii "/o/0") = .error .missingSegment ∧
    parseCommand (ascii "/mp/0/2147483648") = .error .badInteger ∧
    parseCommand (ascii "/o/5/maybe") = .error .badBoolean ∧ 2 ≤ up.slice :=
  ⟨rfl, rfl, rfl, by decide⟩
theorem witness_PollReportsInputsLatchAndDistance :
    5 ≤ up.slice ∧ up.drv = .ready ∧ 5 ≤ down.slice ∧ down.drv ≠ .ready := by decide
theorem witness_OutputCommandDrivesItsBit :
    4 ≤ up.slice ∧ (2 : Int) ≠ 0 ∧ (2 : Int) ≠ 1 ∧ (-1 : Int) ≠ 0 ∧ (-1 : Int) ≠ 1 := by decide
theorem witness_PlainCommandsGiveTheirReply : 4 ≤ up.slice := by decide
theorem witness_MotorCommandsSetTheirChannel :
    3 ≤ up.slice ∧ (2 : Int) ≠ 0 ∧ (2 : Int) ≠ 1 ∧ (-1 : Int) ≠ 0 ∧ (-1 : Int) ≠ 1 := by decide
theorem witness_DecodeOfEncodeIsTheOperation :
    Instr.wellFormed (.mp (-2147483648) 2147483647) = true ∧
      Instr.wellFormed (.unknown (ascii "poll")) = true := by decide
theorem witness_DecodeAnswersWellFormedOnly :
    decode Config.cfgEx [0, 0x40, 0x12, 0x02] = .ok (.busWrite 0x12 0x02) := rfl

/-- A state with a tick event to be delivered. -/
def ticking : State := { up with turns := [⟨1, 12, .start [12]⟩] }

theorem witness_StepRunsTheScheduledTurn :
    ticking.cfg.wf = true ∧ ticking.turns = [⟨1, 12, .start [12]⟩] ∧ ticking.time ≤ 1 ∧
      up.turns = [] ∧ ({ up with turns := [⟨0, 1, .resume .sonar⟩] } : State).time ≤ 0 := by
  decide +kernel
theorem witness_StepRunsTheScheduledTurn_decodes : decode ticking.cfg [12] = .ok .tick := rfl
theorem witness_TurnsOfOneAgentCompose :
    ∃ t u : State, up.running .tick = false ∧
      runTurn .tick ⟨[.tickGate], .unit, 0⟩ { up with slice := 1 } = .next t ∧
      resume .tick { t with slice := 2 } = .next u := ⟨_, _, rfl, rfl, rfl⟩
theorem witness_BrokenRunsAreRefused :
    ({ up with cfg := { up.cfg with trigBit := 1 } } : State).cfg.wf = false ∧ up.cfg.wf = true ∧
      (-1 : Rat) < up.time := by decide +kernel

theorem ticking_steps : ∃ t, step ticking = .next t := next_of_got (by decide +kernel)

theorem ticking_motorSafe : ticking.MotorSafe where
  cfg := by decide +kernel
  out := by decide +kernel
  written := by intro v h; cases h
  agents := nofun
  events := by
    intro t h
    obtain rfl := List.mem_singleton.mp h
    intro i hi
    cases hi
    trivial

theorem witness_EveryStepKeepsMotorsExclusive : ∃ s t : State, s.MotorSafe ∧ step s = .next t :=
  ⟨ticking, ticking_steps.choose, ticking_motorSafe, ticking_steps.choose_spec⟩
theorem witness_ResetSatisfiesTheInvariants :
    Config.cfgEx.wf = true ∧ ∀ t ∈ ([⟨1, 12, .start [12]⟩] : List Turn), t.Gentle Config.cfgEx :=
  ⟨by decide +kernel, ticking_motorSafe.events⟩
theorem witness_EveryStepKeepsTheDutyPairs : ∃ s t : State, s.DutyOk ∧ step s = .next t :=
  ⟨ticking, ticking_steps.choose,
    ⟨by unfold ChannelRec.DutyOk; decide, by unfold ChannelRec.DutyOk; decide⟩,
    ticking_steps.choose_spec⟩
theorem witness_EveryStepKeepsDistanceInRange : ∃ s t : State, s.DistOk ∧ step s = .next t :=
  ⟨ticking, ticking_steps.choose, ⟨by decide, nofun⟩, ticking_steps.choose_spec⟩
theorem witness_EveryStepKeepsTheDecoderConsistent :
    ∃ s t : State, s.dec.Ok ∧ step s = .next t :=
  ⟨ticking, ticking_steps.choose, rfl, ticking_steps.choose_spec⟩
theorem witness_EveryStepKeepsTheCanonicalForm :
    ∃ s t : State, s.Canonical ∧ s.FreshCallers ∧ step s = .next t :=
  ⟨ticking, ticking_steps.choose,
    ⟨by decide, nofun, by decide⟩, nofun, ticking_steps.choose_spec⟩
theorem witness_DriverStatusIsPermanent :
    ∃ s t : State, s.drv ≠ .uninit ∧ s.InitQuiet ∧ step s = .next t :=
  ⟨ticking, ticking_steps.choose, by decide, nofun, ticking_steps.choose_spec⟩
/-- An Unavailable driver and a request `/o/0/true`. -/
theorem witness_NoTransactionUnlessReady :
    ∃ s t : State, s.drv ≠ .ready ∧ s.InitQuiet ∧ step s = .next t ∧
      ∀ u rest w r, s.turns = u :: rest → u.act = .start w → decode s.cfg w ≠ .ok (.init r) := by
  obtain ⟨t, ht⟩ := next_of_got
    (o := step { down with turns := [⟨1, 12, .start (23 :: ascii "/o/0/true")⟩] }) (by decide +kernel)
  refine ⟨_, t, ?_, ?_, ht, ?_⟩
  · decide
  · intro p h
    cases h
  intro u rest w r h hw
  cases h
  cases hw
  intro h
  cases h
theorem witness_OnlyTheSonarChangesDistance :
    ∃ s t : State, s.SonarOwned ∧ step s = .next t ∧
      (∀ u rest w, s.turns = u :: rest → u.act = .start w → decode s.cfg w ≠ .ok .measure) ∧
      (∀ u rest, s.turns = u :: rest → u.act ≠ .resume .sonar) := by
  refine ⟨ticking, ticking_steps.choose, nofun, ticking_steps.choose_spec, ?_, ?_⟩
  · intro u rest w h hw
    cases h
    cases hw
    intro h
    cases h
  · intro u rest h
    cases h
    intro h
    cases h
theorem witness_OutputsOnlyGrow : ∃ s t : State, step s = .next t :=
  ⟨ticking, ticking_steps⟩

end Sys2Proof.Tests
end

/-! SUPPORT. MotorPwmScheduler: the pattern of a period (R181, R182), the clamp and the duty table (R185,
R186), and what `mp` leaves (R236). -/

namespace Sys2Proof.Machine

/-! ### A period of a channel -/

/-- `k` ticks into a period the phase is `k`, whichever period it is (R181). -/
theorem phase_period_mul_add (r : ChannelRec) (q : Nat) {k : Nat} (hk : k < r.period) :
    r.phase (q * r.period + k) = k := by
  rw [ChannelRec.phase, Nat.mul_add_mod_self_right, Nat.mod_eq_of_lt hk]

/-- `k` ticks into a period the channel is driven Stopped while `k` counts off ticks, and then to its
direction (R182). -/
theorem target_period_mul_add (r : ChannelRec) (q : Nat) {k : Nat} (hk : k < r.period) :
    r.target (q * r.period + k) = if k < r.offTicks.toNat then .stopped else r.state := by
  rw [ChannelRec.target, phase_period_mul_add r q hk]

/-- Settles O31: a power's pair in a channel record is a period, in which the phase is the offset. -/
theorem dutyPatternIsOffThenOn : Obligations.DutyPatternIsOffThenOn := by
  intro p d q k hk
  exact target_period_mul_add ⟨d, (dutyPair p).1, (dutyPair p).2⟩ q hk

/-! ### The clamp and the table -/

theorem clampPower_of_nonpos {p : Int} (h : p ≤ 0) : clampPower p = 0 := by
  simp only [clampPower]; omega

theorem clampPower_of_six_le {p : Int} (h : 6 ≤ p) : clampPower p = 6 := by
  simp only [clampPower]; omega

theorem clampPower_of_mem_range {p : Int} (h0 : 0 ≤ p) (h6 : p ≤ 6) : (clampPower p : Int) = p := by
  simp only [clampPower]; omega

/-- The duty pair is the table's row at the clamp. -/
theorem dutyPair_of_clampPower {p : Int} {n : Nat} (h : clampPower p = n) :
    dutyPair p = dutyTable.getD n (0, 5) := by
  rw [dutyPair, h]

/-- Powers with one clamp set one duty pair (R185). -/
theorem dutyPair_congr {p q : Int} (h : clampPower p = clampPower q) : dutyPair p = dutyPair q :=
  dutyPair_of_clampPower h

theorem writePower_congr {p q : Int} (h : clampPower p = clampPower q) (s : State) (c : Channel) :
    s.writePower c p = s.writePower c q := by
  rw [State.writePower, State.writePower, dutyPair_congr h]

/-! ### `mp` -/

theorem exec_mp (c p : Int) (s : State) : exec (.mp c p) s = execMp c p s := rfl

/-- A channel's number is a legal motor id, and stands for that channel (R104(b), R105). -/
@[simp] theorem motorChannel_val (c : Channel) : motorChannel c.val = some c := by
  revert c; decide

/-- `mp` for a channel writes its duty pair and answers okay, in the three steps it takes (R236). -/
theorem exec_mp_channel (c : Channel) (p : Int) {s : State} (hs : 3 ≤ s.slice) :
    exec (.mp c.val p) s =
      .next ((s.newCaller.writePower c p).deliver s.nextCmd (.text replyOkay)) := by
  obtain ⟨n, hn⟩ := Nat.exists_eq_add_of_le' hs
  have hrun : runThread (.cmd s.nextCmd) s.newCaller.slice
      ⟨codeMp c.val p ++ [.deliver s.nextCmd], .unit, s.newCaller.time⟩ s.newCaller =
      .next (⟨[], .unit, s.time⟩,
        (s.newCaller.writePower c p).deliver s.nextCmd (.text replyOkay)) := by
    simp [hn, codeMp, codeSetPower, runLine, proceed]
  rw [exec_mp]
  exact runTurn_of_runThread hrun

/-- `mp` sees its power through the clamp only (R185). -/
theorem exec_mp_congr {p q : Int} (h : clampPower p = clampPower q) (c : Channel) {s : State}
    (hs : 3 ≤ s.slice) : exec (.mp c.val p) s = exec (.mp c.val q) s := by
  rw [exec_mp_channel c p hs, exec_mp_channel c q hs, writePower_congr h]

/-- Settles O30: each range of powers by its clamp, each row of the table at its power. -/
theorem powerIsClampedIntoTheTable : Obligations.PowerIsClampedIntoTheTable := by
  intro p
  refine ⟨clampPower_of_nonpos, clampPower_of_mem_range, clampPower_of_six_le,
    fun c s hs => ⟨?_, ?_⟩, fun h => dutyPair_of_clampPower (clampPower_of_nonpos h), ?_, ?_, ?_, ?_, ?_,
    fun h => dutyPair_of_clampPower (clampPower_of_six_le h)⟩
  · have h : clampPower (-5) = clampPower 0 := clampPower_of_nonpos (by decide)
    exact exec_mp_congr h c hs
  · have h : clampPower 99 = clampPower 6 := clampPower_of_six_le (by decide)
    exact exec_mp_congr h c hs
  all_goals rintro rfl; rfl

end Sys2Proof.Machine

/-! SUPPORT. What one step of an agent, one turn and one step of the machine can do, said once: the inversion
lemmas that the invariants of every step rest on. -/

namespace Sys2Proof.Machine

/-! ### One line -/

/-- What an agent at a line can do in the step it takes there, in the state `s`: the lines it has then to run
before those after the line, and the state after the step. -/
inductive LineStep (s : State) : Line → List Line → State → Prop
  | busWrite (reg v : Byte) : LineStep s (.busWrite reg v) [] (s.busWrite reg v)
  | initWrite (reg v : Byte) : LineStep s (.initWrite reg v) [] (s.transact reg v)
  | busRead (reg : Byte) : LineStep s (.busRead reg) [] (s.busRead reg).2
  | initOut : LineStep s .initOut [] s.resetOut
  | initChannel (c : Channel) : LineStep s (.initChannel c) [] (s.setChannel c ChannelRec.reset)
  | initDone (r : InitResult) : LineStep s (.initDone r) [] (s.finishInit r)
  | isReady : LineStep s .isReady [] s
  | rmw (f : ByteFn) (h : applyByteFn f s.out ≠ s.out) :
      LineStep s (.rmw f) [.busWrite s.cfg.regOutPort (applyByteFn f s.out)] (s.rmwAtomic f)
  | rmwSame (f : ByteFn) (h : applyByteFn f s.out = s.out) : LineStep s (.rmw f) [] s
  | irqGate (h : s.drv = .ready) : LineStep s .irqGate [.irqFlag] s
  | irqGateClosed (h : s.drv ≠ .ready) : LineStep s .irqGate [] s
  | irqFlag : LineStep s .irqFlag [.irqCapture (s.busRead s.cfg.regIntFlag).1]
      (s.busRead s.cfg.regIntFlag).2
  | irqCapture (m : Byte) : LineStep s (.irqCapture m)
      [.emit (.ioChange m (s.busRead s.cfg.regIntCapture).1)] (s.busRead s.cfg.regIntCapture).2
  | emit (e : Event) : LineStep s (.emit e) [] (s.emit e)
  | measureGate (h : s.drv = .ready) (hi : s.sonarState = .idle) :
      LineStep s .measureGate (codeMeasureBody s.cfg) (s.setSonar .triggering)
  | measureGateClosed (h : s.drv ≠ .ready) : LineStep s .measureGate [] s
  | measureTrigger (h : s.out ||| mask s.cfg.trigBit ≠ s.out) :
      LineStep s .measureTrigger [.busWrite s.cfg.regOutPort (s.out ||| mask s.cfg.trigBit)]
        (s.rmwAtomic (.orMask (mask s.cfg.trigBit)))
  | measureTriggerSame (h : s.out ||| mask s.cfg.trigBit = s.out) : LineStep s .measureTrigger [] s
  | measureStart : LineStep s .measureStart [] s.startTimer
  | measureTimeout : LineStep s .measureTest [.measureEnd] (s.setSonar .timedOut)
  | measureTest : LineStep s .measureTest [.measureSample] s
  | measureFall : LineStep s .measureSample [.measureEdge] (s.busRead s.cfg.regInPort).2
  | measureSample (lvl : EchoLevel) :
      LineStep s .measureSample [.measureTest] ((s.busRead s.cfg.regInPort).2.setPrev lvl)
  | measureEdge (d : Nat) (h : d ≤ Config.distMax) :
      LineStep s .measureEdge [.publish d, .emit (.distance d), .measureEnd] (s.setSonar .measured)
  | measureEdgeFar : LineStep s .measureEdge [.measureEnd] (s.setSonar .measured)
  | publish (d : Nat) : LineStep s (.publish d) [] (s.publish d)
  | measureEnd : LineStep s .measureEnd [] s.sonarIdle
  | tickGate (h : s.drv = .ready) : LineStep s .tickGate (codeTickBody s.tick) s
  | tickGateClosed (h : s.drv ≠ .ready) : LineStep s .tickGate [] s
  | tickChannel (t : Nat) (c : Channel) :
      LineStep s (.tickChannel t c) (codeDrive s.cfg c ((s.channel c).target t)) s
  | tickEnd (t : Nat) : LineStep s (.tickEnd t) [] (s.setTick (t + 1))
  | setDirection (c : Channel) (d : Direction) : LineStep s (.setDirection c d) [] (s.writeDirection c d)
  | setPower (c : Channel) (p : Int) : LineStep s (.setPower c p) [] (s.writePower c p)
  | pollGate (h : s.drv = .ready) : LineStep s .pollGate [.pollInputs] s
  | pollGateClosed (h : s.drv ≠ .ready) : LineStep s .pollGate [] s
  | pollInputs : LineStep s .pollInputs [.pollLatch (s.busRead s.cfg.regInPort).1]
      (s.busRead s.cfg.regInPort).2
  | pollLatch (i : Byte) : LineStep s (.pollLatch i)
      [.pollReply i (s.busRead s.cfg.regOutLatch).1] (s.busRead s.cfg.regOutLatch).2
  | pollReply (i l : Byte) : LineStep s (.pollReply i l) [] s
  | give (v : Value) : LineStep s (.give v) [] s
  | serialSend (p b : Bytes) : LineStep s (.serialReply p) [] (s.send b)
  | serialSilent (p : Bytes) : LineStep s (.serialReply p) [] s
  | peerByte (b : Byte) : LineStep s (.peerByte b) [] (s.feedPeer b)
  | deliver (k : Nat) (v : Value) : LineStep s (.deliver k) [] (s.deliver k v)

/-- An atomic step that leaves `OUT` as it is changes nothing. -/
theorem rmwAtomic_same {s : State} {f : ByteFn} (h : applyByteFn f s.out = s.out) : s.rmwAtomic f = s := by
  simp [State.rmwAtomic, h]

/-- An `RMW`'s step at any line that is one. -/
theorem runRmw_next {f : ByteFn} {rest : List Line} {s s' : State} {th' : Thread}
    (h : runRmw f rest s = .next (th', s')) :
    (applyByteFn f s.out = s.out ∧ th'.code = rest ∧ s' = s) ∨
    (applyByteFn f s.out ≠ s.out ∧
      th'.code = .busWrite s.cfg.regOutPort (applyByteFn f s.out) :: rest ∧ s' = s.rmwAtomic f) := by
  by_cases hf : applyByteFn f s.out = s.out
  · simp only [runRmw, proceed, Host.Outcome.next.injEq, Prod.mk.injEq] at h
    obtain ⟨rfl, rfl⟩ := h
    exact .inl ⟨hf, by simp [changed, hf], rmwAtomic_same hf⟩
  · simp only [runRmw, proceed, Host.Outcome.next.injEq, Prod.mk.injEq] at h
    obtain ⟨rfl, rfl⟩ := h
    exact .inr ⟨hf, by simp [changed, hf], rfl⟩

/-- Going on answers the lines and the state it goes on with. -/
theorem proceed_next {code : List Line} {v : Value} {s s' : State} {th' : Thread}
    (h : proceed code v s = .next (th', s')) : th'.code = code ∧ s' = s := by
  simp only [proceed, Host.Outcome.next.injEq, Prod.mk.injEq] at h
  obtain ⟨rfl, rfl⟩ := h
  exact ⟨rfl, rfl⟩

/-- A step at a line: none where the line waits (R163), else one that `LineStep` lists. -/
theorem runLine_next {th th' : Thread} {l : Line} {rest : List Line} {s s' : State}
    (h : runLine th l rest s = .next (th', s')) :
    (th' = th ∧ s' = s) ∨ ∃ new, th'.code = new ++ rest ∧ LineStep s l new s' := by
  have step : ∀ {new : List Line} {v : Value} {u : State}, LineStep s l new u →
      proceed (new ++ rest) v u = .next (th', s') →
      (th' = th ∧ s' = s) ∨ ∃ new, th'.code = new ++ rest ∧ LineStep s l new s' := by
    intro new v u hl hp
    obtain ⟨hc, rfl⟩ := proceed_next hp
    exact .inr ⟨new, hc, hl⟩
  cases l with
  | busWrite reg v => exact step (.busWrite reg v) h
  | initWrite reg v => exact step (.initWrite reg v) h
  | busRead reg => exact step (.busRead reg) h
  | initOut => exact step .initOut h
  | initChannel c => exact step (.initChannel c) h
  | initDone r => exact step (.initDone r) h
  | isReady => exact step .isReady h
  | rmw f =>
    rcases runRmw_next h with ⟨hf, hc, rfl⟩ | ⟨hf, hc, rfl⟩
    · exact .inr ⟨[], hc, .rmwSame f hf⟩
    · exact .inr ⟨_, hc, .rmw f hf⟩
  | irqGate =>
    simp only [runLine] at h
    split at h
    · exact step (.irqGate ((ready_iff s).mp ‹_›)) h
    · exact step (.irqGateClosed (mt (ready_iff s).mpr ‹_›)) h
  | irqFlag => exact step .irqFlag h
  | irqCapture m => exact step (.irqCapture m) h
  | emit e => exact step (.emit e) h
  | measureGate =>
    simp only [runLine, runMeasureGate] at h
    split at h
    · split at h
      · cases h
      · rename_i hb
        exact step (.measureGate ((ready_iff s).mp ‹_›) (not_not.mp (mt (busy_iff s).mpr hb))) h
    · exact step (.measureGateClosed (mt (ready_iff s).mpr ‹_›)) h
  | measureTrigger =>
    simp only [runLine] at h
    split at h
    · rcases runRmw_next h with ⟨hf, hc, rfl⟩ | ⟨hf, hc, rfl⟩
      · exact .inr ⟨[], hc, .measureTriggerSame hf⟩
      · exact .inr ⟨_, hc, .measureTrigger hf⟩
    · simp only [Host.Outcome.next.injEq, Prod.mk.injEq] at h
      exact .inl ⟨h.1.symm, h.2.symm⟩
  | measureStart => exact step .measureStart h
  | measureTest =>
    simp only [runLine, runMeasureTest] at h
    split at h
    · exact step .measureTimeout h
    · exact step .measureTest h
  | measureSample =>
    simp only [runLine, runMeasureSample] at h
    split at h
    · exact step .measureFall h
    · exact step (.measureSample _) h
  | measureEdge =>
    simp only [runLine, runMeasureEdge] at h
    split at h
    · exact step (.measureEdge _ ‹_›) h
    · exact step .measureEdgeFar h
  | publish d => exact step (.publish d) h
  | measureEnd => exact step .measureEnd h
  | tickGate =>
    simp only [runLine] at h
    split at h
    · exact step (.tickGate ((ready_iff s).mp ‹_›)) h
    · exact step (.tickGateClosed (mt (ready_iff s).mpr ‹_›)) h
  | tickChannel t c => exact step (.tickChannel t c) h
  | tickEnd t => exact step (.tickEnd t) h
  | setDirection c d => exact step (.setDirection c d) h
  | setPower c p => exact step (.setPower c p) h
  | pollGate =>
    simp only [runLine] at h
    split at h
    · exact step (.pollGate ((ready_iff s).mp ‹_›)) h
    · exact step (.pollGateClosed (mt (ready_iff s).mpr ‹_›)) h
  | pollInputs => exact step .pollInputs h
  | pollLatch i => exact step (.pollLatch i) h
  | pollReply i l => exact step (.pollReply i l) h
  | give v => exact step (.give v) h
  | serialReply p =>
    simp only [runLine, runSerialReply] at h
    split at h
    · split at h
      · exact step (.serialSend p _) h
      · cases h
    · exact step (.serialSilent p) h
  | peerByte b => exact step (.peerByte b) h
  | deliver k => exact step (.deliver k _) h

/-- The fields that no line changes: the configuration, the time, the environment's schedule and the agents'
positions, which a turn keeps, and what events alone change. -/
structure SameSetting (s s' : State) : Prop where
  cfg : s'.cfg = s.cfg
  time : s'.time = s.time
  slice : s'.slice = s.slice
  turns : s'.turns = s.turns
  threads : s'.threads = s.threads
  nextCmd : s'.nextCmd = s.nextCmd

theorem SameSetting.refl (s : State) : SameSetting s s := ⟨rfl, rfl, rfl, rfl, rfl, rfl⟩

theorem SameSetting.trans {s t u : State} (h : SameSetting s t) (k : SameSetting t u) : SameSetting s u where
  cfg := k.cfg.trans h.cfg
  time := k.time.trans h.time
  slice := k.slice.trans h.slice
  turns := k.turns.trans h.turns
  threads := k.threads.trans h.threads
  nextCmd := k.nextCmd.trans h.nextCmd

theorem LineStep.setting {s s' : State} {l : Line} {new : List Line} (h : LineStep s l new s') :
    SameSetting s s' := by
  constructor <;> cases h <;> simp [State.writeDirection, State.writePower]

theorem LineStep.rxq {s s' : State} {l : Line} {new : List Line} (h : LineStep s l new s') :
    s'.rxq = s.rxq := by
  cases h <;> simp [State.writeDirection, State.writePower]

theorem LineStep.dec {s s' : State} {l : Line} {new : List Line} (h : LineStep s l new s') :
    s'.dec = s.dec := by
  cases h <;> simp [State.writeDirection, State.writePower]

/-! ### One step of an agent -/

/-- What one step of agent `a` can do, from the lines `code` still to run in the state `s` to the lines `code'`
in `s'`: nothing; a line's step; or `A_SERIAL`, between frames, takes the byte at the head of `RXQ`. -/
inductive AgentStep (a : AgentId) (s : State) : List Line → List Line → State → Prop
  | stay (code : List Line) : AgentStep a s code code s
  | line {l : Line} {new : List Line} {s' : State} (rest : List Line) (h : LineStep s l new s') :
      AgentStep a s (l :: rest) (new ++ rest) s'
  | exchange {b : Byte} {q p : Bytes} (ha : a = .serial) (hq : s.rxq = b :: q)
      (hp : (s.dec.feed b).2 = some p) :
      AgentStep a s [] (codeSerialExchange s.cfg p) (s.decoded q (s.dec.feed b).1)
  | byte {b : Byte} {q : Bytes} (ha : a = .serial) (hq : s.rxq = b :: q)
      (hp : (s.dec.feed b).2 = none) : AgentStep a s [] [] (s.decoded q (s.dec.feed b).1)

theorem stepThread_next {a : AgentId} {th th' : Thread} {s s' : State}
    (h : stepThread a th s = .next (th', s')) : AgentStep a s th.code th'.code s' := by
  obtain ⟨code, v, t⟩ := th
  cases code with
  | cons l rest =>
    rcases runLine_next h with ⟨rfl, rfl⟩ | ⟨new, hc, hl⟩
    · exact .stay _
    · rw [hc]; exact .line rest hl
  | nil =>
    by_cases ha : a = .serial
    · simp only [stepThread, ha, if_pos, runSerialByte] at h
      split at h
      · simp only [Host.Outcome.next.injEq, Prod.mk.injEq] at h
        obtain ⟨rfl, rfl⟩ := h
        exact .stay _
      · rename_i b q hq
        split at h
        · obtain ⟨hc, rfl⟩ := proceed_next h
          rw [hc]; exact .exchange ha hq ‹_›
        · obtain ⟨hc, rfl⟩ := proceed_next h
          rw [hc]; exact .byte ha hq ‹_›
    · rw [stepThread_idle ha] at h
      simp only [Host.Outcome.next.injEq, Prod.mk.injEq] at h
      obtain ⟨rfl, rfl⟩ := h
      exact .stay _

theorem AgentStep.setting {a : AgentId} {s s' : State} {code code' : List Line}
    (h : AgentStep a s code code' s') : SameSetting s s' := by
  cases h with
  | stay => exact .refl s
  | line rest h => exact h.setting
  | exchange => exact ⟨rfl, rfl, rfl, rfl, rfl, rfl⟩
  | byte => exact ⟨rfl, rfl, rfl, rfl, rfl, rfl⟩

/-- A property of an agent's lines and the state that every step of it keeps holds after a turn's steps. -/
theorem runThread_keeps {a : AgentId} (P : List Line → State → Prop)
    (hstep : ∀ code s code' s', P code s → AgentStep a s code code' s' → P code' s')
    {n : Nat} {th th' : Thread} {s s' : State} (h : runThread a n th s = .next (th', s'))
    (hp : P th.code s) : P th'.code s' :=
  runThread_induct (fun th s => P th.code s)
    (fun _ _ _ _ hp hs => hstep _ _ _ _ hp (stepThread_next hs)) n th s th' s' hp h

theorem runThread_setting {a : AgentId} {n : Nat} {th th' : Thread} {s s' : State}
    (h : runThread a n th s = .next (th', s')) : SameSetting s s' :=
  runThread_keeps (fun _ t => SameSetting s t) (fun _ _ _ _ hp hs => hp.trans hs.setting) h (.refl s)

/-! ### One turn -/

/-- The lines a new caller runs for an operation (log entry 15); none for the operations that have an agent of
their own. -/
def callerCode (g : Cfg) : Instr → Option (List Line)
  | .busWrite reg v => some (codeBusWrite reg v)
  | .busRead reg => some (codeBusRead reg)
  | .init _ => none
  | .isReady => some codeIsReady
  | .readInputs => some (codeReadInputs g)
  | .readOutputLatch => some (codeReadOutputLatch g)
  | .rmw f => some (codeRmw f)
  | .setBits m => some (codeSetBits m)
  | .clearBits m => some (codeClearBits m)
  | .writeOutputs m => some (codeWriteOutputs m)
  | .irqEdge => none
  | .measure => none
  | .tick => none
  | .drive c d => some (codeDrive g c d ++ codeNoResult)
  | .safeSetClear set clear => some (codeSafeSetClear set clear ++ codeNoResult)
  | .setDirection c d => some (codeSetDirection c d)
  | .setPower c p => some (codeSetPower c p)
  | .stopAll => some codeStopAll
  | .decodeByte _ => none
  | .encodeResponse p => some (codeEncodeResponse p)
  | .encodeRequest p => some (codeEncodeRequest p)
  | .decodeResponse b => some (codeDecodeResponse b)
  | .serialExchange _ => none
  | .dispatch req => some (codeDispatch g req)
  | .poll => some codePoll
  | .o i b => some (codeO i b)
  | .resetAll => some codeResetAll
  | .crossdomain => some (codeCrossdomain g)
  | .md c d => some (codeMd c d)
  | .mp c p => some (codeMp c p)
  | .unknown req => some (codeUnknown req)

/-- How an operation's turn begins: the agent `a` that takes it, the position `th` it goes on from, and the
state its steps start in. -/
inductive Begins (s : State) : Instr → AgentId → Thread → State → Prop
  | caller {i : Instr} {code : List Line} (hc : callerCode s.cfg i = some code) :
      Begins s i (.cmd s.nextCmd) ⟨code ++ [.deliver s.nextCmd], .unit, s.time⟩ s.newCaller
  | init (r : InitResult) (hd : s.drv = .uninit) :
      Begins s (.init r) .init ⟨codeInit s.cfg r, .unit, s.time⟩ s.startInit
  | irq : Begins s .irqEdge .irq
      { s.thread .irq with code := (s.thread .irq).code ++ codeIrqEdge } (s.acceptEdge.takeUp .irq)
  | measure (h : s.running .sonar = false) : Begins s .measure .sonar ⟨codeMeasure, .unit, s.time⟩ s
  | tick (h : s.running .tick = false) : Begins s .tick .tick ⟨codeTick, .unit, s.time⟩ s
  | byte (b : Byte) : Begins s (.decodeByte b) .serial (s.thread .serial)
      ((s.receive b).takeUp .serial)
  | exchange (p : Bytes) : Begins s (.serialExchange p) .serial
      { s.thread .serial with code := (s.thread .serial).code ++ codeSerialExchange s.cfg p }
      (s.takeUp .serial)

/-- Going on with nothing more is going on from where the agent stands. -/
theorem continueWith_nil (a : AgentId) (s : State) :
    continueWith a [] s = runTurn a (s.thread a) (s.takeUp a) := by
  simp [continueWith]

theorem resume_eq (a : AgentId) (s : State) : resume a s = runTurn a (s.thread a) (s.takeUp a) :=
  continueWith_nil a s

theorem exec_next {i : Instr} {s t : State} (h : exec i s = .next t) :
    ∃ a th s', Begins s i a th s' ∧ runTurn a th s' = .next t := by
  have caller : ∀ {code}, callerCode s.cfg i = some code → launchCaller code s = .next t →
      ∃ a th s', Begins s i a th s' ∧ runTurn a th s' = .next t :=
    fun hc h => ⟨_, _, _, .caller hc, h⟩
  cases i with
  | init r =>
    simp only [exec, execInit] at h
    split at h
    · rename_i hd
      exact ⟨_, _, _, .init r hd.1, h⟩
    · cases h
  | irqEdge =>
    simp only [exec, execIrqEdge] at h
    split at h
    · cases h
    · exact ⟨_, _, _, .irq, h⟩
  | measure =>
    simp only [exec, execMeasure] at h
    split at h
    · cases h
    · exact ⟨_, _, _, .measure (Bool.eq_false_iff.mpr ‹_›), h⟩
  | tick =>
    simp only [exec, execTick] at h
    split at h
    · cases h
    · exact ⟨_, _, _, .tick (Bool.eq_false_iff.mpr ‹_›), h⟩
  | decodeByte b =>
    exact ⟨_, _, _, .byte b, (continueWith_nil .serial (s.receive b)).symm.trans h⟩
  | serialExchange p => exact ⟨_, _, _, .exchange p, h⟩
  | encodeResponse p =>
    simp only [exec, execEncodeResponse] at h
    split at h
    · exact caller rfl h
    · cases h
  | encodeRequest p =>
    simp only [exec, execEncodeRequest] at h
    split at h
    · exact caller rfl h
    · cases h
  | _ => exact caller rfl h

/-- How a turn begins that the schedule gives: an operation's, or an agent's going on. -/
inductive Takes (s : State) : Action → AgentId → Thread → State → Prop
  | start {w : Bytes} {i : Instr} {a : AgentId} {th : Thread} {s' : State}
      (hd : decode s.cfg w = .ok i) (hb : Begins s i a th s') : Takes s (.start w) a th s'
  | resume (a : AgentId) : Takes s (.resume a) a (s.thread a) (s.takeUp a)

/-- What a step of the machine does: nothing with no turn scheduled; else the turn's agent takes the turn's
steps and its position is kept (R70). -/
theorem step_next {s t : State} (h : step s = .next t) :
    t = s ∨ ∃ u rest a th s1 th' s', s.turns = u :: rest ∧ s.time ≤ u.time ∧
      Takes (s.beginTurn u rest) u.act a th s1 ∧ runThread a s1.slice th s1 = .next (th', s') ∧
      t = s'.park a th' := by
  unfold step at h
  split at h
  · cases h
  split at h
  · exact .inl (by simpa using h.symm)
  rename_i u rest hu
  split at h
  · cases h
  rename_i hb
  have ht : s.time ≤ u.time := by simpa [State.backwards] using hb
  refine .inr ?_
  split at h
  · rename_i a ha
    rw [resume_eq] at h
    obtain ⟨th', s', hr, ht'⟩ := runTurn_next h
    exact ⟨u, rest, a, _, _, th', s', hu, ht, ha ▸ .resume a, hr, ht'⟩
  · rename_i w ha
    split at h
    · rename_i i hi
      obtain ⟨a, th, s1, hb, hr⟩ := exec_next h
      obtain ⟨th', s', hr, ht'⟩ := runTurn_next hr
      exact ⟨u, rest, a, th, s1, th', s', hu, ht, ha ▸ .start hi hb, hr, ht'⟩
    · cases h

end Sys2Proof.Machine

/-! SUPPORT. The invariants that every step of every interleaving keeps, but the motors' exclusion. -/

namespace Sys2Proof.Machine

/-! ### The beginning of a turn -/

/-- The block's registers, the expander and what has gone out are the same. -/
structure SameBlock (s s' : State) : Prop where
  cfg : s'.cfg = s.cfg
  drv : s'.drv = s.drv
  out : s'.out = s.out
  ch0 : s'.ch0 = s.ch0
  ch1 : s'.ch1 = s.ch1
  dist : s'.dist = s.dist
  sonarState : s'.sonarState = s.sonarState
  sonarT0 : s'.sonarT0 = s.sonarT0
  sonarPrev : s'.sonarPrev = s.sonarPrev
  dec : s'.dec = s.dec
  chip : s'.chip = s.chip
  busTrace : s'.busTrace = s.busTrace
  serialOut : s'.serialOut = s.serialOut
  replies : s'.replies = s.replies
  results : s'.results = s.results
  events : s'.events = s.events

/-- A turn begins with the block as it is. -/
theorem Takes.block {s s' : State} {u : Turn} {r : List Turn} {a : AgentId} {th : Thread}
    (h : Takes (s.beginTurn u r) u.act a th s') : SameBlock s s' := by
  generalize u.act = act at h
  cases h with
  | resume => constructor <;> rfl
  | start _ hb => constructor <;> cases hb <;> rfl

theorem Takes.time {s s' : State} {act : Action} {a : AgentId} {th : Thread} (h : Takes s act a th s') :
    s'.time = s.time := by
  cases h with
  | resume => rfl
  | start _ hb => cases hb <;> rfl

theorem Takes.turns {s s' : State} {act : Action} {a : AgentId} {th : Thread} (h : Takes s act a th s') :
    s'.turns = s.turns := by
  cases h with
  | resume => rfl
  | start _ hb => cases hb <;> rfl

/-- The other agents stand where they stood: what is left of the map of positions was there before. -/
theorem Takes.threads_subset {s s' : State} {act : Action} {a : AgentId} {th : Thread}
    (h : Takes s act a th s') : ∀ p ∈ s'.threads, p ∈ s.threads := by
  cases h with
  | resume => exact fun p hp => (assoc_mem_erase hp).1
  | start _ hb =>
    cases hb with
    | irq | byte | exchange => exact fun p hp => (assoc_mem_erase hp).1
    | caller | init | measure | tick => exact fun p hp => hp

/-- What an agent stands at comes from the map of positions. -/
theorem mem_thread_code {s : State} {a : AgentId} {l : Line} (h : l ∈ (s.thread a).code) :
    ∃ p ∈ s.threads, p.1 = a.key ∧ l ∈ p.2.code := by
  unfold State.thread at h
  cases hg : Assoc.get s.threads a.key with
  | none => simp [hg, Thread.idle] at h
  | some th =>
    rw [hg] at h
    exact ⟨(a.key, th), assoc_mem_of_get hg, rfl, h⟩

/-- The lines an operation starts with on its agent. -/
def startCode (s : State) : Instr → List Line
  | .init r => codeInit s.cfg r
  | .irqEdge => codeIrqEdge
  | .measure => codeMeasure
  | .tick => codeTick
  | .decodeByte _ => []
  | .serialExchange p => codeSerialExchange s.cfg p
  | i => (callerCode s.cfg i).getD [] ++ [.deliver s.nextCmd]

theorem startCode_of_caller {s : State} {i : Instr} {code : List Line}
    (h : callerCode s.cfg i = some code) : startCode s i = code ++ [.deliver s.nextCmd] := by
  cases i <;> simp_all [startCode, callerCode]

/-- The lines an agent has to run as its turn begins: those it had, and those of the operation the turn starts. -/
theorem Takes.mem_code {s s' : State} {act : Action} {a : AgentId} {th : Thread} {l : Line}
    (h : Takes s act a th s') (hl : l ∈ th.code) :
    (∃ p ∈ s.threads, p.1 = a.key ∧ l ∈ p.2.code) ∨
      ∃ w i, act = .start w ∧ decode s.cfg w = .ok i ∧ Begins s i a th s' ∧ l ∈ startCode s i := by
  cases h with
  | resume => exact .inl (mem_thread_code hl)
  | start hd hb =>
    cases hb with
    | caller hc =>
      exact .inr ⟨_, _, rfl, hd, .caller hc, by rw [startCode_of_caller hc]; exact hl⟩
    | init r h => exact .inr ⟨_, _, rfl, hd, .init r h, hl⟩
    | measure h => exact .inr ⟨_, _, rfl, hd, .measure h, hl⟩
    | tick h => exact .inr ⟨_, _, rfl, hd, .tick h, hl⟩
    | irq =>
      exact (List.mem_append.mp hl).imp mem_thread_code fun hl => ⟨_, _, rfl, hd, .irq, hl⟩
    | exchange p =>
      exact (List.mem_append.mp hl).imp mem_thread_code fun hl => ⟨_, _, rfl, hd, .exchange p, hl⟩
    | byte => exact .inl (mem_thread_code hl)

/-! ### A step of the machine -/

/-- The other agents' positions and the one kept as a turn ends. -/
theorem forall_mem_park {P : Nat × Thread → Prop} {s : State} {a : AgentId} {th : Thread}
    (hs : ∀ p ∈ s.threads, P p) (ha : th.code ≠ [] → P (a.key, th)) :
    ∀ p ∈ (s.park a th).threads, P p := by
  unfold State.park
  split
  · exact hs
  · intro p hp
    rcases assoc_mem_put hp with rfl | hp
    · exact ha ‹_›
    · exact hs p hp

/-- An invariant of every step: of each line still to be run by the agent with key `k` it says `Q k`, and of the
registers `R`. It is kept if the beginning of a turn, every line's step and the taking of a serial byte keep
it. -/
theorem step_keeps (Q : Nat → Line → Prop) (R : State → Prop) {s t : State} (h : step s = .next t)
    (lines : ∀ p ∈ s.threads, ∀ l ∈ p.2.code, Q p.1 l) (regs : R s)
    (starts : ∀ {u rest a th s1 i}, Begins (s.beginTurn u rest) i a th s1 →
      (∃ w, s.turns = u :: rest ∧ u.act = .start w ∧ decode s.cfg w = .ok i) →
      ∀ l ∈ startCode (s.beginTurn u rest) i, Q a.key l)
    (begins : ∀ {u rest a th s1}, s.time ≤ u.time → Takes (s.beginTurn u rest) u.act a th s1 → R s1)
    (line : ∀ {k s l new s'}, LineStep s l new s' → Q k l → R s → (∀ l' ∈ new, Q k l') ∧ R s')
    (exchange : ∀ {g p l}, l ∈ codeSerialExchange g p → Q AgentId.serial.key l)
    (byte : ∀ {s q b}, R s → R (s.decoded q (s.dec.feed b).1))
    (park : ∀ {s a th}, R s → R (s.park a th)) :
    (∀ p ∈ t.threads, ∀ l ∈ p.2.code, Q p.1 l) ∧ R t := by
  rcases step_next h with rfl | ⟨u, rest, a, th, s1, th', s', hu, htime, htakes, hrun, rfl⟩
  · exact ⟨lines, regs⟩
  have hstart : ∀ l ∈ th.code, Q a.key l := by
    intro l hl
    rcases htakes.mem_code hl with ⟨p, hp, hk, hl⟩ | ⟨w, i, hw, hd, hb, hl⟩
    · exact hk ▸ lines p hp l hl
    · exact starts hb ⟨w, hu, hw, hd⟩ l hl
  have hend : (∀ l ∈ th'.code, Q a.key l) ∧ R s' := by
    refine runThread_keeps (fun code s => (∀ l ∈ code, Q a.key l) ∧ R s) ?_ hrun
      ⟨hstart, begins htime htakes⟩
    rintro code s code' s' ⟨hq, hr⟩ hs
    cases hs with
    | stay => exact ⟨hq, hr⟩
    | line rest hl =>
      obtain ⟨hn, hr'⟩ := line hl (hq _ List.mem_cons_self) hr
      refine ⟨fun l' hl' => ?_, hr'⟩
      rcases List.mem_append.mp hl' with hl' | hl'
      · exact hn l' hl'
      · exact hq l' (List.mem_cons_of_mem _ hl')
    | exchange ha => exact ⟨fun l hl => ha ▸ exchange hl, byte hr⟩
    | byte => exact ⟨hq, byte hr⟩
  refine ⟨forall_mem_park (fun p hp => ?_) fun _ => hend.1, park hend.2⟩
  rw [(runThread_setting hrun).threads] at hp
  exact lines p (htakes.threads_subset p hp)

/-- An invariant of the registers alone. -/
theorem step_keeps_registers (R : State → Prop) {s t : State} (h : step s = .next t) (regs : R s)
    (begins : ∀ {u rest a th s1}, s.time ≤ u.time → Takes (s.beginTurn u rest) u.act a th s1 → R s1)
    (line : ∀ {s l new s'}, LineStep s l new s' → R s → R s')
    (byte : ∀ {s q b}, R s → R (s.decoded q (s.dec.feed b).1))
    (park : ∀ {s a th}, R s → R (s.park a th)) : R t :=
  (step_keeps (fun _ _ => True) R h (fun _ _ _ _ => trivial) regs (fun _ _ _ _ => trivial) begins
    (fun hl _ hr => ⟨fun _ _ => trivial, line hl hr⟩) (fun _ => trivial) byte park).2

/-! ### The channels -/

theorem dutyOk_reset : ChannelRec.reset.DutyOk := by
  simp [ChannelRec.DutyOk, ChannelRec.reset, dutyTable]

/-- Every power's pair is of the table (R186). -/
theorem dutyPair_mem (p : Int) : dutyPair p ∈ dutyTable := by
  have h : clampPower p < dutyTable.length := by
    simp only [clampPower, dutyTable, List.length_cons, List.length_nil]; omega
  rw [dutyPair, List.getD_eq_getElem _ _ h]
  exact List.getElem_mem h

/-- A channel record written whole keeps the pairs if its own is of the table. -/
theorem dutyOk_setChannel {s : State} (h : s.DutyOk) (c : Channel) {r : ChannelRec} (hr : r.DutyOk) :
    (s.setChannel c r).DutyOk := by
  unfold State.setChannel
  split
  · exact ⟨hr, h.2⟩
  · exact ⟨h.1, hr⟩

theorem dutyOk_channel {s : State} (h : s.DutyOk) (c : Channel) : (s.channel c).DutyOk := by
  unfold State.channel
  split
  · exact h.1
  · exact h.2

theorem dutyOk_congr {s t : State} (h0 : t.ch0 = s.ch0) (h1 : t.ch1 = s.ch1) (h : s.DutyOk) : t.DutyOk := by
  rw [State.DutyOk, h0, h1]; exact h

theorem LineStep.dutyOk {s s' : State} {l : Line} {new : List Line} (h : LineStep s l new s')
    (hs : s.DutyOk) : s'.DutyOk := by
  cases h with
  | initChannel c => exact dutyOk_setChannel hs c dutyOk_reset
  | setDirection c d => exact dutyOk_setChannel hs c (dutyOk_channel hs c)
  | setPower c p => exact dutyOk_setChannel hs c (dutyPair_mem p)
  | _ => exact dutyOk_congr (by simp) (by simp) hs

/-- Settles O53: the three lines that write a channel write a pair of the table. -/
theorem everyStepKeepsTheDutyPairs : Obligations.EveryStepKeepsTheDutyPairs := by
  intro s t hs h
  exact step_keeps_registers State.DutyOk h hs
    (fun _ hb => dutyOk_congr hb.block.ch0 hb.block.ch1 hs) LineStep.dutyOk
    (fun hr => hr) (fun hr => dutyOk_congr (park_ch0 ..) (park_ch1 ..) hr)

/-! ### The inbound decoder -/

/-- Every byte leaves the decoder consistent (R29, R201). -/
theorem DecRegs.Ok.feed {d : DecRegs} (h : d.Ok) (b : Byte) : (d.feed b).1.Ok := by
  obtain ⟨phase, len, buf⟩ := d
  cases phase with
  | hunt =>
    simp only [DecRegs.Ok] at h
    by_cases hb : b = Config.frameHeader <;> simp [DecRegs.feed, DecRegs.Ok, hb, h]
  | len =>
    by_cases hb : b = 0
    · simp [DecRegs.feed, DecRegs.Ok, hb]
    · have hpos : 0 < b.toNat := by bv_omega
      simpa only [DecRegs.feed, DecRegs.Ok, if_neg hb, List.length_nil] using hpos
  | payload =>
    simp only [DecRegs.Ok] at h
    by_cases hl : buf.length + 1 = len.toNat
    · simp [DecRegs.feed, DecRegs.Ok, hl]
    · have hlt : buf.length + 1 < len.toNat := by omega
      simpa [DecRegs.feed, DecRegs.Ok, hl] using hlt

/-- Settles O55: only `A_SERIAL`'s taking of a byte changes the decoder. -/
theorem everyStepKeepsTheDecoderConsistent : Obligations.EveryStepKeepsTheDecoderConsistent := by
  intro s t hs h
  refine step_keeps_registers (fun s => s.dec.Ok) h hs (fun _ hb => ?_) (fun hl hr => ?_)
    (fun hr => hr.feed _) (fun hr => ?_)
  · rw [hb.block.dec]; exact hs
  · rw [hl.dec]; exact hr
  · rw [park_dec]; exact hr

/-! ### Lines that no caller runs -/

/-- A line that is none of `INIT`'s on the bus or `DRV`, none of `MEASURE`, and notifies of no distance. -/
def Line.plain : Line → Bool
  | .emit (.distance _) => false
  | l => !l.isInit && !l.isSonar

theorem isInit_of_plain {l : Line} (h : l.plain = true) : l.isInit = false := by
  cases l <;> simp_all [Line.plain, Line.isInit, Line.isSonar]

theorem isSonar_of_plain {l : Line} (h : l.plain = true) : l.isSonar = false := by
  cases l <;> simp_all [Line.plain, Line.isInit, Line.isSonar]

theorem distOk_of_plain {l : Line} (h : l.plain = true) : l.DistOk := by
  cases l with
  | publish d => cases h
  | emit e =>
    cases e with
    | distance d => cases h
    | ioChange => trivial
  | _ => trivial

theorem codeCommand_plain (g : Cfg) (req : Bytes) (c : Command) :
    ∀ l ∈ codeCommand g req c, l.plain = true := by
  cases c with
  | o i b =>
    simp only [codeCommand, codeO]
    split
    · cases b <;> simp [codeSetBits, codeClearBits, codeRmw, Line.plain, Line.isInit, Line.isSonar]
    · simp [Line.plain, Line.isInit, Line.isSonar]
  | md c d =>
    simp only [codeCommand, codeMd]
    split <;> simp [codeSetDirection, Line.plain, Line.isInit, Line.isSonar]
  | mp c p =>
    simp only [codeCommand, codeMp]
    split <;> simp [codeSetPower, Line.plain, Line.isInit, Line.isSonar]
  | poll | resetAll | crossdomain | unknown =>
    simp [codeCommand, codePoll, codeResetAll, codeStopAll, codeCrossdomain, codeUnknown, Line.plain,
      Line.isInit, Line.isSonar]

theorem codeDispatch_plain (g : Cfg) (req : Bytes) : ∀ l ∈ codeDispatch g req, l.plain = true := by
  unfold codeDispatch
  split
  · exact codeCommand_plain g req _
  · simp [takeParseError, Line.plain, Line.isInit, Line.isSonar]

theorem codeSerialExchange_plain {g : Cfg} {p : Bytes} :
    ∀ l ∈ codeSerialExchange g p, l.plain = true := by
  intro l hl
  rcases List.mem_append.mp hl with hl | hl
  · exact codeDispatch_plain g p l hl
  · obtain rfl := List.mem_singleton.mp hl
    rfl

theorem callerCode_plain {g : Cfg} {i : Instr} {code : List Line} (h : callerCode g i = some code) :
    ∀ l ∈ code, l.plain = true := by
  cases i with
  | dispatch req => cases h; exact codeDispatch_plain g req
  | poll => cases h; exact codeCommand_plain g [] .poll
  | o i b => cases h; exact codeCommand_plain g [] (.o i b)
  | resetAll => cases h; exact codeCommand_plain g [] .resetAll
  | crossdomain => cases h; exact codeCommand_plain g [] .crossdomain
  | md c d => cases h; exact codeCommand_plain g [] (.md c d)
  | mp c p => cases h; exact codeCommand_plain g [] (.mp c p)
  | unknown req => cases h; exact codeCommand_plain g req .unknown
  | init | irqEdge | measure | tick | decodeByte | serialExchange => cases h
  | _ =>
    cases h
    simp [codeBusWrite, codeBusRead, codeIsReady, codeReadInputs, codeReadOutputLatch, codeRmw,
      codeSetBits, codeClearBits, codeWriteOutputs, codeDrive, codeSafeSetClear, codeNoResult,
      codeSetDirection, codeSetPower, codeStopAll, codeEncodeResponse, codeEncodeRequest,
      codeDecodeResponse, Line.plain, Line.isInit, Line.isSonar]

/-- Every operation but `INIT` and `MEASURE` starts with plain lines. -/
theorem startCode_plain {s : State} {i : Instr} (hi : ∀ r, i ≠ .init r) (hm : i ≠ .measure) :
    ∀ l ∈ startCode s i, l.plain = true := by
  cases hc : callerCode s.cfg i with
  | some code =>
    rw [startCode_of_caller hc]
    intro l hl
    rcases List.mem_append.mp hl with hl | hl
    · exact callerCode_plain hc l hl
    · obtain rfl := List.mem_singleton.mp hl
      rfl
  | none =>
    cases i with
    | init r => exact absurd rfl (hi r)
    | measure => exact absurd rfl hm
    | irqEdge | tick => simp [startCode, codeIrqEdge, codeTick, Line.plain, Line.isInit, Line.isSonar]
    | decodeByte b => simp [startCode]
    | serialExchange p => exact codeSerialExchange_plain
    | _ => cases hc

/-- The lines of `INIT` write no distance and touch nothing of the sonar's. -/
theorem mem_codeInit {g : Cfg} {r : InitResult} {l : Line} (h : l ∈ codeInit g r) :
    l = .initOut ∨ (∃ c, l = .initChannel c) ∨
      (∃ w ∈ initWrites g, l = .initWrite w.1 w.2) ∨ l = .initDone r := by
  simp only [codeInit, List.cons_append, List.nil_append, List.mem_cons, List.mem_append, List.mem_map,
    List.not_mem_nil, or_false] at h
  rcases h with h | h | h | ⟨w, hw, h⟩ | h
  · exact .inl h
  · exact .inr (.inl ⟨0, h⟩)
  · exact .inr (.inl ⟨1, h⟩)
  · exact .inr (.inr (.inl ⟨w, List.mem_of_mem_take hw, h.symm⟩))
  · exact .inr (.inr (.inr h))

theorem codeInit_not_sonar {g : Cfg} {r : InitResult} {l : Line} (h : l ∈ codeInit g r) :
    l.isSonar = false ∧ l.DistOk := by
  rcases mem_codeInit h with rfl | ⟨c, rfl⟩ | ⟨w, _, rfl⟩ | rfl <;> exact ⟨rfl, trivial⟩

theorem codeMeasure_mem {l : Line} (h : l ∈ codeMeasure) : l = .measureGate :=
  List.mem_singleton.mp h

/-! ### The distance -/

/-- The lines a step adds publish at most 1000 mm (R169). -/
theorem LineStep.new_distOk {s s' : State} {l : Line} {new : List Line} (h : LineStep s l new s') :
    ∀ l' ∈ new, l'.DistOk := by
  cases h with
  | measureEdge d hd => simp [Line.DistOk, hd]
  | _ =>
    simp [Line.DistOk, codeMeasureBody, codeClearBits, codeRmw, codeTickBody, codeDrive,
      codeSafeSetClear, codeSetBits]

/-- `DIST` changes in the one line that publishes it. -/
theorem LineStep.dist {s s' : State} {l : Line} {new : List Line} (h : LineStep s l new s') :
    s'.dist = s.dist ∨ ∃ d, l = .publish d ∧ s'.dist = d := by
  cases h with
  | publish d => exact .inr ⟨d, rfl, rfl⟩
  | _ => exact .inl (by simp [State.writeDirection, State.writePower])

/-- Settles O54: only `publish` writes `DIST`, and the filter lets at most 1000 mm reach it. -/
theorem everyStepKeepsDistanceInRange : Obligations.EveryStepKeepsDistanceInRange := by
  rintro s t ⟨hdist, hlines⟩ h
  refine (step_keeps (fun _ l => l.DistOk) (fun s => s.dist ≤ Config.distMax) h hlines hdist
    (fun {_ _ _ _ _ i} _ _ l hl => ?_) (fun _ hb => ?_) (fun hl hq hr => ⟨hl.new_distOk, ?_⟩)
    (fun hl => distOk_of_plain (codeSerialExchange_plain _ hl)) (fun hr => hr) (fun hr => ?_)).symm
  · by_cases hi : ∃ r, i = .init r
    · obtain ⟨r, rfl⟩ := hi
      exact (codeInit_not_sonar hl).2
    · by_cases hm : i = .measure
      · subst hm
        obtain rfl := codeMeasure_mem hl
        trivial
      · exact distOk_of_plain (startCode_plain (fun r e => hi ⟨r, e⟩) hm l hl)
  · rw [hb.block.dist]; exact hdist
  · rcases hl.dist with hd | ⟨d, rfl, hd⟩ <;> simp only [hd]
    · exact hr
    · exact hq
  · simpa using hr

/-! ### The driver's status, and the gate -/

/-- No step adds a line of `INIT`. -/
theorem LineStep.new_isInit {s s' : State} {l : Line} {new : List Line} (h : LineStep s l new s') :
    ∀ l' ∈ new, l'.isInit = false := by
  cases h <;>
    simp [Line.isInit, codeMeasureBody, codeClearBits, codeRmw, codeTickBody, codeDrive,
      codeSafeSetClear, codeSetBits]

/-- `DRV` changes in `INIT` only (R22). -/
theorem LineStep.drv {s s' : State} {l : Line} {new : List Line} (h : LineStep s l new s')
    (hl : l.isInit = false) : s'.drv = s.drv := by
  cases h with
  | initDone r => cases hl
  | _ => simp [State.writeDirection, State.writePower]

/-- While `DRV` is not Ready no line but `INIT`'s puts a transaction on the bus (R120). -/
theorem LineStep.bus {s s' : State} {l : Line} {new : List Line} (h : LineStep s l new s')
    (hl : l.isInit = false) (hd : s.drv ≠ .ready) : s'.busTrace = s.busTrace ∧ s'.chip = s.chip := by
  cases h with
  | initWrite => cases hl
  | busWrite reg v => simp [busWrite_not_ready hd]
  | _ => simp [busRead_not_ready hd, State.writeDirection, State.writePower]

/-- No operation but `INIT` starts with a line of `INIT`. -/
theorem startCode_isInit {s : State} {i : Instr} (hi : ∀ r, i ≠ .init r) :
    ∀ l ∈ startCode s i, l.isInit = false := by
  intro l hl
  by_cases hm : i = .measure
  · subst hm
    obtain rfl := codeMeasure_mem hl
    rfl
  · exact isInit_of_plain (startCode_plain hi hm l hl)

/-- Settles O57: `INIT` needs `DRV` Uninit to start, and no other line writes `DRV`. -/
theorem driverStatusIsPermanent : Obligations.DriverStatusIsPermanent := by
  intro s t hd hq h
  refine (step_keeps (fun _ l => l.isInit = false) (fun t => t.drv = s.drv) h hq rfl
    (fun {u rest a th s1 i} hb _ => startCode_isInit ?_) (fun _ hb => hb.block.drv)
    (fun hl hn hr => ⟨hl.new_isInit, (hl.drv hn).trans hr⟩)
    (fun hl => isInit_of_plain (codeSerialExchange_plain _ hl)) (fun hr => hr)
    (fun hr => (park_drv ..).trans hr)).symm
  rintro r rfl
  cases hb with
  | caller hc => cases hc
  | init r hu => exact hd hu

/-- Settles O58: every transaction outside `INIT` passes the gate on `DRV`. -/
theorem noTransactionUnlessReady : Obligations.NoTransactionUnlessReady := by
  intro s t hd hq h hno
  refine (step_keeps (fun _ l => l.isInit = false)
    (fun t => t.drv ≠ .ready ∧ t.busTrace = s.busTrace ∧ t.chip = s.chip) h hq ⟨hd, rfl, rfl⟩
    (fun _ hw => startCode_isInit ?_) (fun _ hb => ?_) (fun hl hn ⟨hr, ht, hc⟩ => ⟨hl.new_isInit, ?_⟩)
    (fun hl => isInit_of_plain (codeSerialExchange_plain _ hl)) (fun hr => hr) (fun hr => ?_)).2.2
  · rintro r rfl
    obtain ⟨w, hu, hact, hdec⟩ := hw
    exact hno _ _ w r hu hact hdec
  · rw [hb.block.drv, hb.block.busTrace, hb.block.chip]
    exact ⟨hd, rfl, rfl⟩
  · obtain ⟨ht', hc'⟩ := hl.bus hn hr
    exact ⟨(hl.drv hn) ▸ hr, ht'.trans ht, hc'.trans hc⟩
  · simpa using hr

/-! ### The sonar -/

/-- A line that is not `MEASURE`'s adds none that is. -/
theorem LineStep.new_isSonar {s s' : State} {l : Line} {new : List Line} (h : LineStep s l new s')
    (hl : l.isSonar = false) : ∀ l' ∈ new, l'.isSonar = false := by
  revert hl
  cases h <;>
    simp [Line.isSonar, codeTickBody, codeDrive, codeSafeSetClear, codeSetBits, codeClearBits, codeRmw]

/-- `DIST` and `SONAR.*` are the same. -/
def SameSonar (s t : State) : Prop :=
  t.dist = s.dist ∧ t.sonarState = s.sonarState ∧ t.sonarT0 = s.sonarT0 ∧ t.sonarPrev = s.sonarPrev

/-- A line that is not `MEASURE`'s changes none of them. -/
theorem LineStep.sonar {s s' : State} {l : Line} {new : List Line} (h : LineStep s l new s')
    (hl : l.isSonar = false) : SameSonar s s' := by
  revert hl
  cases h <;> simp [SameSonar, Line.isSonar, State.writeDirection, State.writePower]

theorem Begins.sonar_iff {s s' : State} {i : Instr} {a : AgentId} {th : Thread} (h : Begins s i a th s') :
    a = .sonar ↔ i = .measure := by
  cases h with
  | caller hc => cases i <;> simp_all [callerCode]
  | _ => simp

theorem key_injective {a b : AgentId} (h : a.key = b.key) : a = b := by
  cases a <;> cases b <;> simp_all [AgentId.key] <;> omega

theorem SameSonar.trans {s t u : State} (h : SameSonar s t) (k : SameSonar t u) : SameSonar s u := by
  obtain ⟨h1, h2, h3, h4⟩ := h
  obtain ⟨k1, k2, k3, k4⟩ := k
  exact ⟨k1.trans h1, k2.trans h2, k3.trans h3, k4.trans h4⟩

/-- Whoever starts a line of `MEASURE` is `A_SONAR`. -/
theorem Begins.startCode_isSonar {s s' : State} {i : Instr} {a : AgentId} {th : Thread}
    (h : Begins s i a th s') (ha : a ≠ .sonar) : ∀ l ∈ startCode s i, l.isSonar = false := by
  intro l hl
  by_cases hi : ∃ r, i = .init r
  · obtain ⟨r, rfl⟩ := hi
    exact (codeInit_not_sonar hl).1
  · exact isSonar_of_plain
      (startCode_plain (fun r e => hi ⟨r, e⟩) (fun e => ha (h.sonar_iff.mpr e)) l hl)

/-- A turn of another agent than `A_SONAR` changes neither `DIST` nor `SONAR.*`. -/
theorem runThread_sameSonar {a : AgentId} {n : Nat} {th th' : Thread} {s s' : State}
    (h : runThread a n th s = .next (th', s')) (hl : ∀ l ∈ th.code, l.isSonar = false) :
    SameSonar s s' := by
  refine (runThread_keeps (fun code t => (∀ l ∈ code, l.isSonar = false) ∧ SameSonar s t) ?_ h
    ⟨hl, rfl, rfl, rfl, rfl⟩).2
  rintro code t code' t' ⟨hq, hr⟩ hs
  cases hs with
  | stay => exact ⟨hq, hr⟩
  | line rest hl =>
    have hn := hq _ List.mem_cons_self
    refine ⟨fun l' hl' => ?_, hr.trans (hl.sonar hn)⟩
    rcases List.mem_append.mp hl' with hl' | hl'
    · exact hl.new_isSonar hn l' hl'
    · exact hq l' (List.mem_cons_of_mem _ hl')
  | exchange => exact ⟨fun l hl => isSonar_of_plain (codeSerialExchange_plain l hl), hr⟩
  | byte => exact ⟨hq, hr⟩

/-- Settles O59: lines of `MEASURE` are `A_SONAR`'s alone, and only they write `DIST` and `SONAR.*`. -/
theorem onlyTheSonarChangesDistance : Obligations.OnlyTheSonarChangesDistance := by
  intro s t hs h
  have howned : t.SonarOwned := by
    intro p hp hk l hl
    refine (step_keeps (fun k l => k ≠ AgentId.sonar.key → l.isSonar = false) (fun _ => True) h
      (fun p hp l hl hk => hs p hp hk l hl) trivial ?_ (fun _ _ => trivial)
      (fun hl hn _ => ⟨fun l' hl' hk => hl.new_isSonar (hn hk) l' hl', trivial⟩)
      (fun hl _ => isSonar_of_plain (codeSerialExchange_plain _ hl)) (fun _ => trivial)
      (fun _ => trivial)).1 p hp l hl hk
    exact fun hb _ l hl hk => hb.startCode_isSonar (fun e => hk (e ▸ rfl)) l hl
  refine ⟨howned, fun hstart hresume => ?_⟩
  rcases step_next h with rfl | ⟨u, rest, a, th, s1, th', s', hu, _, htakes, hrun, rfl⟩
  · exact ⟨rfl, rfl, rfl, rfl⟩
  have ha : a ≠ .sonar := by
    rintro rfl
    generalize hact : u.act = act at htakes
    cases htakes with
    | resume => exact hresume u rest hu hact
    | start hd hb => exact hstart u rest _ hu hact (hb.sonar_iff.mp rfl ▸ hd)
  have hlines : ∀ l ∈ th.code, l.isSonar = false := by
    intro l hl
    rcases htakes.mem_code hl with ⟨p, hp, hk, hl⟩ | ⟨w, i, _, _, hb, hl⟩
    · exact hs p hp (fun e => ha (key_injective (hk.symm.trans e))) l hl
    · exact hb.startCode_isSonar ha l hl
  have hb := htakes.block
  have hsame : SameSonar s s1 := ⟨hb.dist, hb.sonarState, hb.sonarT0, hb.sonarPrev⟩
  simpa [SameSonar] using hsame.trans (runThread_sameSonar hrun hlines)

/-! ### What has gone out -/

/-- Time has not gone back, the configuration is the same, and what had gone out stands before what has gone out
since. -/
structure OutputsGrow (s t : State) : Prop where
  time : s.time ≤ t.time
  cfg : t.cfg = s.cfg
  busTrace : s.busTrace <+: t.busTrace
  serialOut : s.serialOut <+: t.serialOut
  replies : s.replies <+: t.replies
  results : s.results <+: t.results
  events : s.events <+: t.events

theorem OutputsGrow.refl (s : State) : OutputsGrow s s := by
  constructor <;> first | exact le_refl _ | rfl

theorem OutputsGrow.trans {s t u : State} (h : OutputsGrow s t) (k : OutputsGrow t u) :
    OutputsGrow s u where
  time := h.time.trans k.time
  cfg := k.cfg.trans h.cfg
  busTrace := h.busTrace.trans k.busTrace
  serialOut := h.serialOut.trans k.serialOut
  replies := h.replies.trans k.replies
  results := h.results.trans k.results
  events := h.events.trans k.events

/-- Unchanged outputs have grown. -/
theorem OutputsGrow.of_eq {s t : State} (time : s.time ≤ t.time) (cfg : t.cfg = s.cfg)
    (busTrace : t.busTrace = s.busTrace) (serialOut : t.serialOut = s.serialOut)
    (replies : t.replies = s.replies) (results : t.results = s.results) (events : t.events = s.events) :
    OutputsGrow s t where
  time := time
  cfg := cfg
  busTrace := busTrace ▸ List.prefix_refl _
  serialOut := serialOut ▸ List.prefix_refl _
  replies := replies ▸ List.prefix_refl _
  results := results ▸ List.prefix_refl _
  events := events ▸ List.prefix_refl _

theorem busWrite_grows (s : State) (reg v : Byte) : s.busTrace <+: (s.busWrite reg v).busTrace := by
  rw [busWrite_busTrace]; split <;> simp

theorem busRead_grows (s : State) (reg : Byte) : s.busTrace <+: (s.busRead reg).2.busTrace := by
  rw [busRead_busTrace]; split <;> simp

theorem deliver_grows (s : State) (k : Nat) (v : Value) :
    s.replies <+: (s.deliver k v).replies ∧ s.results <+: (s.deliver k v).results := by
  cases v <;> simp [State.deliver]

theorem LineStep.grows {s s' : State} {l : Line} {new : List Line} (h : LineStep s l new s') :
    OutputsGrow s s' := by
  constructor
  · exact h.setting.time.ge
  · exact h.setting.cfg
  all_goals
    cases h <;> simp [State.writeDirection, State.writePower, busWrite_grows, busRead_grows, deliver_grows]

/-- Settles O60: every line appends to the outputs or leaves them, and turns come in order of time. -/
theorem outputsOnlyGrow : Obligations.OutputsOnlyGrow := by
  intro s t h
  have hgrow : OutputsGrow s t :=
    step_keeps_registers (OutputsGrow s) h (.refl s)
      (fun htime hb => .of_eq (htime.trans hb.time.ge) hb.block.cfg hb.block.busTrace
        hb.block.serialOut hb.block.replies hb.block.results hb.block.events)
      (fun hl hr => hr.trans hl.grows) (fun hr => hr.trans (.of_eq (le_refl _) rfl rfl rfl rfl rfl rfl))
      (fun hr => hr.trans (.of_eq (by simp) (by simp) (by simp) (by simp) (by simp) (by simp) (by simp)))
  exact ⟨hgrow.time, hgrow.cfg, hgrow.busTrace, hgrow.serialOut, hgrow.replies, hgrow.results,
    hgrow.events⟩

end Sys2Proof.Machine

/-! SUPPORT. The canonical form of the sparse data, and the mutual exclusion of the motors' pins. -/

namespace Sys2Proof.Machine

/-! ### The canonical form -/

/-- Every line keeps the canonical form of the expander's bytes. -/
theorem LineStep.cells_wf {s s' : State} {l : Line} {new : List Line} (h : LineStep s l new s')
    (hs : s.chip.cells.wf) : s'.chip.cells.wf := by
  cases h with
  | initWrite reg v => exact chip_wf_take hs s.cfg reg v
  | busWrite reg v =>
    by_cases hd : s.drv = .ready
    · rw [busWrite_ready hd]; exact chip_wf_take hs s.cfg reg v
    · rw [busWrite_not_ready hd]; exact hs
  | _ => simpa [State.writeDirection, State.writePower] using hs

theorem Takes.canonical {s s' : State} {act : Action} {a : AgentId} {th : Thread}
    (h : Takes s act a th s') (hs : s.Canonical) : s'.Canonical := by
  have erased : ∀ k, Assoc.wf (Assoc.erase s.threads k) := assoc_wf_erase hs.threads
  refine ⟨?_, fun p hp => hs.busy p (h.threads_subset p hp), ?_⟩
  · cases h with
    | resume => exact erased _
    | start _ hb =>
      cases hb with
      | irq | byte | exchange => exact erased _
      | caller | init | measure | tick => exact hs.threads
  · cases h with
    | resume => exact hs.cells
    | start _ hb => cases hb <;> exact hs.cells

/-- The keys of agents that have no number are below every number's. -/
theorem key_lt_cmd_key {a : AgentId} (h : ∀ k, a ≠ .cmd k) (n : Nat) : a.key < (AgentId.cmd n).key := by
  cases a with
  | cmd k => exact absurd rfl (h k)
  | _ => simp only [AgentId.key]; omega

/-- No position has a number still to be given, and neither has the agent of the turn, if it has lines to run. -/
theorem Takes.fresh {s s' : State} {act : Action} {a : AgentId} {th : Thread}
    (h : Takes s act a th s') (hs : s.FreshCallers) :
    s'.FreshCallers ∧ (th.code ≠ [] → a.key < (AgentId.cmd s'.nextCmd).key) := by
  have hsub := h.threads_subset
  cases h with
  | resume =>
    refine ⟨fun p hp => hs p (hsub p hp), fun hc => ?_⟩
    obtain ⟨l, hl⟩ := List.exists_mem_of_ne_nil _ hc
    obtain ⟨p, hp, hk, _⟩ := mem_thread_code hl
    exact hk ▸ hs p hp
  | start _ hb =>
    cases hb with
    | caller hc =>
      refine ⟨fun p hp => (hs p (hsub p hp)).trans ?_, fun _ => ?_⟩ <;> simp [AgentId.key]
    | _ => exact ⟨fun p hp => hs p (hsub p hp), fun _ => key_lt_cmd_key (by simp) _⟩

/-- An agent that comes to have lines to run had some, or is `A_SERIAL`. -/
theorem AgentStep.busy {a : AgentId} {s s' : State} {code code' : List Line}
    (h : AgentStep a s code code' s') (hc : code' ≠ []) : code ≠ [] ∨ a = .serial := by
  cases h with
  | stay => exact .inl hc
  | line => exact .inl (List.cons_ne_nil _ _)
  | exchange ha | byte ha => exact .inr ha

theorem park_canonical {s : State} (hs : s.Canonical) (a : AgentId) (th : Thread) :
    (s.park a th).Canonical := by
  refine ⟨?_, forall_mem_park hs.busy fun hc => hc, (park_chip s a th).symm ▸ hs.cells⟩
  unfold State.park
  split
  · exact hs.threads
  · exact assoc_wf_put hs.threads _ _

/-- Settles O56: a turn takes one position out of the map and puts it back under its own key. -/
theorem everyStepKeepsTheCanonicalForm : Obligations.EveryStepKeepsTheCanonicalForm := by
  intro s t hs hf h
  rcases step_next h with rfl | ⟨u, rest, a, th, s1, th', s', _, _, htakes, hrun, rfl⟩
  · exact ⟨hs, hf⟩
  have hs1 : s1.Canonical := htakes.canonical ⟨hs.threads, hs.busy, hs.cells⟩
  obtain ⟨hf1, ha⟩ := htakes.fresh hf
  have hsame := runThread_setting hrun
  obtain ⟨hcells, hkey⟩ : s'.chip.cells.wf ∧ (th'.code ≠ [] → a.key < (AgentId.cmd s1.nextCmd).key) := by
    refine runThread_keeps (fun code s => s.chip.cells.wf ∧
      (code ≠ [] → a.key < (AgentId.cmd s1.nextCmd).key)) ?_ hrun ⟨hs1.cells, ha⟩
    rintro code s code' s' ⟨hw, hk⟩ hstep
    refine ⟨?_, fun hc => ?_⟩
    · cases hstep with
      | line rest hl => exact hl.cells_wf hw
      | _ => exact hw
    · rcases hstep.busy hc with hc | rfl
      · exact hk hc
      · exact key_lt_cmd_key (by simp) _
  have hs' : s'.Canonical := ⟨hsame.threads ▸ hs1.threads, hsame.threads ▸ hs1.busy, hcells⟩
  refine ⟨park_canonical hs' a th', ?_⟩
  rw [State.FreshCallers, park_nextCmd, hsame.nextCmd]
  exact forall_mem_park (hsame.threads ▸ hf1) hkey

/-! ### Bytes and masks -/

@[simp] theorem bitOf_ofNat_zero (j : Fin 8) : bitOf 0#8 j = false := bitOf_zero j

/-- Bytes with the same bits are one. -/
theorem byte_ext {a b : Byte} (h : ∀ i, bitOf a i = bitOf b i) : a = b :=
  BitVec.eq_of_getLsbD_eq fun i hi => h ⟨i, hi⟩

theorem bitOf_and (a b : Byte) (j : Fin 8) : bitOf (a &&& b) j = (bitOf a j && bitOf b j) := by
  simp [bitOf]

theorem and_eq_zero_iff {a b : Byte} : a &&& b = 0 ↔ ∀ i, bitOf b i = true → bitOf a i = false := by
  constructor
  · intro h i hb
    have := congrArg (bitOf · i) h
    simpa [bitOf_and, hb] using this
  · intro h
    refine byte_ext fun i => ?_
    cases hb : bitOf b i with
    | true => simp [bitOf_and, hb, h i hb]
    | false => simp [bitOf_and, hb]

/-! ### The motors' bits under a well-formed configuration -/

theorem fwdBit_eq_iff {g : Cfg} (hw : g.wf = true) (c c' : Channel) : g.fwdBit c' = g.fwdBit c ↔ c' = c := by
  simp only [Cfg.wf, Cfg.ownedBits, decide_eq_true_eq, List.nodup_cons, List.mem_cons] at hw
  fin_cases c <;> fin_cases c' <;> simp [Cfg.fwdBit] <;> grind

theorem backBit_eq_iff {g : Cfg} (hw : g.wf = true) (c c' : Channel) :
    g.backBit c' = g.backBit c ↔ c' = c := by
  simp only [Cfg.wf, Cfg.ownedBits, decide_eq_true_eq, List.nodup_cons, List.mem_cons] at hw
  fin_cases c <;> fin_cases c' <;> simp [Cfg.backBit] <;> grind

theorem fwdBit_ne_backBit {g : Cfg} (hw : g.wf = true) (c c' : Channel) : g.fwdBit c' ≠ g.backBit c := by
  simp only [Cfg.wf, Cfg.ownedBits, decide_eq_true_eq, List.nodup_cons, List.mem_cons] at hw
  fin_cases c <;> fin_cases c' <;> simp [Cfg.fwdBit, Cfg.backBit] <;> grind

/-- The trigger bit and the bits of the `o` command are no motor's (R44). -/
theorem sparesMotors_of_wf {g : Cfg} (hw : g.wf = true) :
    SparesMotors g (mask g.trigBit) ∧ SparesMotors g (mask 1) ∧ SparesMotors g (mask 2) := by
  simp only [Cfg.wf, Cfg.ownedBits, decide_eq_true_eq, List.nodup_cons, List.mem_cons] at hw
  refine ⟨fun c => ?_, fun c => ?_, fun c => ?_⟩ <;> simp only [bitOf_mask, decide_eq_false_iff_not] <;>
    fin_cases c <;> simp [Cfg.fwdBit, Cfg.backBit] <;> grind

/-- The drive table's masks, bit by bit (R183). -/
theorem bitOf_driveSet_fwd {g : Cfg} (hw : g.wf = true) (c c' : Channel) (d : Direction) :
    bitOf (driveSet g c d) (g.fwdBit c') = decide (c' = c ∧ d = .forward) := by
  cases d <;> simp [driveSet, bitOf_mask, fwdBit_eq_iff hw, fwdBit_ne_backBit hw]

theorem bitOf_driveSet_back {g : Cfg} (hw : g.wf = true) (c c' : Channel) (d : Direction) :
    bitOf (driveSet g c d) (g.backBit c') = decide (c' = c ∧ d = .reverse) := by
  cases d <;> simp [driveSet, bitOf_mask, backBit_eq_iff hw, (fwdBit_ne_backBit hw _ _).symm]

theorem bitOf_driveClear_fwd {g : Cfg} (hw : g.wf = true) (c c' : Channel) (d : Direction) :
    bitOf (driveClear g c d) (g.fwdBit c') = decide (c' = c ∧ d ≠ .forward) := by
  cases d <;> simp [driveClear, bitOf_mask, fwdBit_eq_iff hw, fwdBit_ne_backBit hw]

theorem bitOf_driveClear_back {g : Cfg} (hw : g.wf = true) (c c' : Channel) (d : Direction) :
    bitOf (driveClear g c d) (g.backBit c') = decide (c' = c ∧ d ≠ .reverse) := by
  cases d <;> simp [driveClear, bitOf_mask, backBit_eq_iff hw, (fwdBit_ne_backBit hw _ _).symm]

/-- The drive table's masks hold no other bits than the channel's. -/
theorem bitOf_driveSet_other (g : Cfg) (c : Channel) (d : Direction) {i : Fin 8} (hf : i ≠ g.fwdBit c)
    (hb : i ≠ g.backBit c) : bitOf (driveSet g c d) i = false := by
  cases d <;> simp [driveSet, bitOf_mask, hf, hb]

theorem bitOf_driveClear_other (g : Cfg) (c : Channel) (d : Direction) {i : Fin 8} (hf : i ≠ g.fwdBit c)
    (hb : i ≠ g.backBit c) : bitOf (driveClear g c d) i = false := by
  cases d <;> simp [driveClear, bitOf_mask, hf, hb]

/-! ### The order of motor bits -/

/-- `w` has no motor bit that `v` has not. -/
def NoNewMotor (g : Cfg) (v w : Byte) : Prop :=
  ∀ c : Channel, (bitOf w (g.fwdBit c) = true → bitOf v (g.fwdBit c) = true) ∧
    (bitOf w (g.backBit c) = true → bitOf v (g.backBit c) = true)

theorem NoNewMotor.refl (g : Cfg) (v : Byte) : NoNewMotor g v v := fun _ => ⟨id, id⟩

theorem NoNewMotor.exclusive {g : Cfg} {v w : Byte} (h : NoNewMotor g v w) (hv : Exclusive g v) :
    Exclusive g w :=
  fun c hc => hv c ⟨(h c).1 hc.1, (h c).2 hc.2⟩

/-- The bits a driving clears are motor bits. -/
theorem NoNewMotor.driveClear_zero {g : Cfg} {v w : Byte} (h : NoNewMotor g v w) {c : Channel}
    {d : Direction} (hv : v &&& driveClear g c d = 0) : w &&& driveClear g c d = 0 := by
  rw [and_eq_zero_iff] at hv ⊢
  intro i hi
  have hvi := hv i hi
  by_cases hf : i = g.fwdBit c
  · subst hf
    exact Bool.eq_false_iff.mpr (mt (h c).1 (Bool.eq_false_iff.mp hvi))
  · by_cases hb : i = g.backBit c
    · subst hb
      exact Bool.eq_false_iff.mpr (mt (h c).2 (Bool.eq_false_iff.mp hvi))
    · rw [bitOf_driveClear_other g c d hf hb] at hi
      cases hi

/-- A byte function that sets no motor bit, in the sense of its form, sets none. -/
theorem noNewMotor_of_setsNoMotor {g : Cfg} {f : ByteFn} (h : SetsNoMotor g f) (v : Byte) :
    NoNewMotor g v (applyByteFn f v) := by
  cases f with
  | orMask m => intro c; simp [applyByteFn, (h c).1, (h c).2]
  | andNotMask m => intro c; simp +contextual [applyByteFn]
  | const w => exact h.elim
  | table t => exact h.elim

/-- Setting a channel's bits of the drive table keeps the exclusion if those it clears are 0. -/
theorem exclusive_or_driveSet {g : Cfg} (hw : g.wf = true) {v : Byte} {c : Channel} {d : Direction}
    (hv : Exclusive g v) (hz : v &&& driveClear g c d = 0) : Exclusive g (v ||| driveSet g c d) := by
  rw [and_eq_zero_iff] at hz
  have hf := hz (g.fwdBit c)
  have hb := hz (g.backBit c)
  intro c' hc
  simp only [bitOf_or, bitOf_driveSet_fwd hw, bitOf_driveSet_back hw, bitOf_driveClear_fwd hw,
    bitOf_driveClear_back hw] at hc hf hb
  have := hv c'
  by_cases hcc : c' = c
  · subst hcc; cases d <;> simp_all
  · simp_all

/-- The clearing half of a driving leaves the bits it clears 0, and sets none. -/
theorem andNot_driveClear (g : Cfg) (v : Byte) (c : Channel) (d : Direction) :
    (v &&& ~~~ driveClear g c d) &&& driveClear g c d = 0 := by
  rw [and_eq_zero_iff]
  intro i hi
  simp [hi]

/-! ### Gentle lines -/

/-- A line that is gentle by its kind, whatever the configuration. -/
def Line.mild : Line → Bool
  | .busWrite _ _ | .initWrite _ _ | .tickGate | .tickChannel _ _ => false
  | .rmw (.andNotMask _) => true
  | .rmw _ => false
  | _ => true

theorem gentle_of_mild (g : Cfg) {l : Line} (h : l.mild = true) : l.Gentle g := by
  cases l with
  | busWrite | initWrite | tickGate | tickChannel => cases h
  | rmw f =>
    cases f with
    | andNotMask => trivial
    | _ => cases h
  | _ => trivial

theorem gentle_of_all_mild {g : Cfg} {code : List Line} (h : code.all Line.mild = true) :
    ∀ l ∈ code, l.Gentle g :=
  fun l hl => gentle_of_mild g (List.all_eq_true.mp h l hl)

theorem tickPosition_of_noNewMotor {g : Cfg} {v w : Byte} {code : List Line} (h : NoNewMotor g v w)
    (hp : TickPosition g v code) : TickPosition g w code := by
  rcases hp with hp | ⟨c, d, rest, hr, hp | ⟨hz, hp⟩ | hp⟩
  · exact .inl hp
  · exact .inr ⟨c, d, rest, hr, .inl hp⟩
  · exact .inr ⟨c, d, rest, hr, .inr (.inl ⟨h.driveClear_zero hz, hp⟩)⟩
  · exact .inr ⟨c, d, rest, hr, .inr (.inr hp)⟩

/-- Every byte on the trace that was written to the output port has at most one bit of each motor set. -/
def WrittenSafe (s : State) : Prop :=
  ∀ v, Txn.write s.cfg.regOutPort v ∈ s.busTrace → Exclusive s.cfg v

theorem writtenSafe_append_write {s : State} (h : WrittenSafe s) {reg v : Byte}
    (hv : reg = s.cfg.regOutPort → Exclusive s.cfg v) : WrittenSafe (s.transact reg v) := by
  intro w hw
  rcases List.mem_append.mp hw with hw | hw
  · exact h w hw
  · obtain ⟨hr, rfl⟩ := Txn.write.inj (List.mem_singleton.mp hw)
    exact hv hr.symm

theorem writtenSafe_busWrite {s : State} (h : WrittenSafe s) {reg v : Byte}
    (hv : reg = s.cfg.regOutPort → Exclusive s.cfg v) : WrittenSafe (s.busWrite reg v) := by
  by_cases hd : s.drv = .ready
  · rw [busWrite_ready hd]; exact writtenSafe_append_write h hv
  · rw [busWrite_not_ready hd]; exact h

theorem writtenSafe_busRead {s : State} (h : WrittenSafe s) (reg : Byte) :
    WrittenSafe (s.busRead reg).2 := by
  intro v hv
  simp only [busRead_cfg, busRead_busTrace] at hv ⊢
  split at hv
  · rcases List.mem_append.mp hv with hv | hv
    · exact h v hv
    · cases List.mem_singleton.mp hv
  · exact h v hv

theorem writtenSafe_congr {s t : State} (hc : t.cfg = s.cfg) (ht : t.busTrace = s.busTrace)
    (h : WrittenSafe s) : WrittenSafe t := by
  rw [WrittenSafe, hc, ht]; exact h

/-- No line but a bus write writes to the output port. -/
theorem LineStep.writtenSafe {s s' : State} {l : Line} {new : List Line} (h : LineStep s l new s')
    (hs : WrittenSafe s)
    (hl : ∀ reg v, l = .busWrite reg v ∨ l = .initWrite reg v → reg = s.cfg.regOutPort →
      Exclusive s.cfg v) : WrittenSafe s' := by
  cases h with
  | busWrite reg v => exact writtenSafe_busWrite hs (hl reg v (.inl rfl))
  | initWrite reg v => exact writtenSafe_append_write hs (hl reg v (.inr rfl))
  | busRead | irqFlag | irqCapture | measureFall | pollInputs | pollLatch =>
    exact writtenSafe_busRead hs _
  | measureSample lvl => exact writtenSafe_congr rfl rfl (writtenSafe_busRead hs s.cfg.regInPort)
  | _ =>
    refine writtenSafe_congr ?_ ?_ hs
    all_goals simp [State.writeDirection, State.writePower]

/-- `OUT` changes at an `RMW`, the trigger and the start of `INIT` only. -/
theorem LineStep.out {s s' : State} {l : Line} {new : List Line} (h : LineStep s l new s') :
    s'.out = s.out ∨ (l = .initOut ∧ s'.out = 0) ∨ (∃ f, l = .rmw f ∧ s'.out = applyByteFn f s.out) ∨
      (l = .measureTrigger ∧ s'.out = s.out ||| mask s.cfg.trigBit) := by
  cases h with
  | initOut => exact .inr (.inl ⟨rfl, rfl⟩)
  | rmw f => exact .inr (.inr (.inl ⟨f, rfl, rfl⟩))
  | measureTrigger => exact .inr (.inr (.inr ⟨rfl, rfl⟩))
  | _ => exact .inl (by simp [State.writeDirection, State.writePower])

/-- A gentle line sets no motor bit. -/
theorem LineStep.noNewMotor {s s' : State} {l : Line} {new : List Line} (h : LineStep s l new s')
    (hw : s.cfg.wf = true) (hl : l.Gentle s.cfg) : NoNewMotor s.cfg s.out s'.out := by
  rcases h.out with ho | ⟨-, ho⟩ | ⟨f, rfl, ho⟩ | ⟨-, ho⟩
  · rw [ho]; exact .refl _ _
  · rw [ho]; intro c; simp
  · rw [ho]; exact noNewMotor_of_setsNoMotor hl s.out
  · rw [ho]; exact noNewMotor_of_setsNoMotor (f := .orMask _) (sparesMotors_of_wf hw).1 s.out

/-- The lines a gentle line adds are gentle. -/
theorem LineStep.new_gentle {s s' : State} {l : Line} {new : List Line} (h : LineStep s l new s')
    (hw : s.cfg.wf = true) (hl : l.Gentle s.cfg) (ho : Exclusive s.cfg s.out) :
    ∀ l' ∈ new, l'.Gentle s.cfg := by
  have hnew := (h.noNewMotor hw hl).exclusive ho
  cases h with
  | rmw | measureTrigger =>
    intro l' hl'
    obtain rfl := List.mem_singleton.mp hl'
    exact fun _ => hnew
  | tickGate | tickChannel => exact hl.elim
  | _ => exact gentle_of_all_mild rfl

/-! ### Gentle operations -/

theorem codeCommand_gentle {g : Cfg} (hw : g.wf = true) (req : Bytes) (c : Command) :
    ∀ l ∈ codeCommand g req c, l.Gentle g := by
  obtain ⟨-, h1, h2⟩ := sparesMotors_of_wf hw
  cases c with
  | o i b =>
    have hm : SparesMotors g (mask (outputBit i)) := by
      unfold outputBit; split
      · exact h1
      · exact h2
    simp only [codeCommand, codeO]
    split
    · cases b with
      | true =>
        intro l hl
        rcases List.mem_cons.mp hl with rfl | hl
        · exact hm
        · exact gentle_of_all_mild (code := [.give _]) rfl l hl
      | false => exact gentle_of_all_mild rfl
    · exact gentle_of_all_mild rfl
  | md c d =>
    simp only [codeCommand, codeMd]
    split <;> exact gentle_of_all_mild rfl
  | mp c p =>
    simp only [codeCommand, codeMp]
    split <;> exact gentle_of_all_mild rfl
  | poll | resetAll | crossdomain | unknown => exact gentle_of_all_mild rfl

theorem codeDispatch_gentle {g : Cfg} (hw : g.wf = true) (req : Bytes) :
    ∀ l ∈ codeDispatch g req, l.Gentle g := by
  unfold codeDispatch
  split
  · exact codeCommand_gentle hw req _
  · exact gentle_of_all_mild rfl

theorem codeSerialExchange_gentle {g : Cfg} (hw : g.wf = true) (p : Bytes) :
    ∀ l ∈ codeSerialExchange g p, l.Gentle g := by
  intro l hl
  rcases List.mem_append.mp hl with hl | hl
  · exact codeDispatch_gentle hw p l hl
  · obtain rfl := List.mem_singleton.mp hl
    trivial

/-- `INIT` writes 0x00 to the output port (R133). -/
theorem initWrites_outPort {g : Cfg} (hw : g.wf = true) {w : Byte × Byte} (h : w ∈ initWrites g)
    (hr : w.1 = g.regOutPort) : w.2 = 0 := by
  simp only [Cfg.wf, Cfg.mainRegs, List.nodup_cons, List.mem_cons] at hw
  simp only [initWrites, List.mem_cons, List.not_mem_nil, or_false] at h
  rcases h with rfl | rfl | rfl | rfl | rfl | rfl <;> first | rfl | (simp only at hr; grind)

theorem codeInit_gentle {g : Cfg} (hw : g.wf = true) (r : InitResult) : ∀ l ∈ codeInit g r, l.Gentle g := by
  intro l hl
  rcases mem_codeInit hl with rfl | ⟨c, rfl⟩ | ⟨w, hm, rfl⟩ | rfl
  · trivial
  · trivial
  · intro hr c
    simp [initWrites_outPort hw hm hr]
  · trivial

theorem callerCode_gentle {g : Cfg} (hw : g.wf = true) {i : Instr} (hi : GentleInstr g i)
    {code : List Line} (h : callerCode g i = some code) : ∀ l ∈ code, l.Gentle g := by
  cases i with
  | dispatch req => cases h; exact codeDispatch_gentle hw req
  | poll => cases h; exact codeCommand_gentle hw [] .poll
  | o i b => cases h; exact codeCommand_gentle hw [] (.o i b)
  | resetAll => cases h; exact codeCommand_gentle hw [] .resetAll
  | crossdomain => cases h; exact codeCommand_gentle hw [] .crossdomain
  | md c d => cases h; exact codeCommand_gentle hw [] (.md c d)
  | mp c p => cases h; exact codeCommand_gentle hw [] (.mp c p)
  | unknown req => cases h; exact codeCommand_gentle hw req .unknown
  | init | irqEdge | measure | tick | decodeByte | serialExchange => cases h
  | writeOutputs | drive | safeSetClear => exact hi.elim
  | busWrite reg v =>
    cases h
    intro l hl
    obtain rfl := List.mem_singleton.mp hl
    exact hi
  | rmw f | setBits m =>
    cases h
    intro l hl
    obtain rfl := List.mem_singleton.mp hl
    exact hi
  | _ =>
    cases h
    exact gentle_of_all_mild rfl

/-- A gentle operation but `TICK` starts with gentle lines. -/
theorem startCode_gentle {s : State} (hw : s.cfg.wf = true) {i : Instr} (hi : GentleInstr s.cfg i)
    (ht : i ≠ .tick) : ∀ l ∈ startCode s i, l.Gentle s.cfg := by
  cases hc : callerCode s.cfg i with
  | some code =>
    rw [startCode_of_caller hc]
    intro l hl
    rcases List.mem_append.mp hl with hl | hl
    · exact callerCode_gentle hw hi hc l hl
    · obtain rfl := List.mem_singleton.mp hl
      trivial
  | none =>
    cases i with
    | tick => exact absurd rfl ht
    | init r => exact codeInit_gentle hw r
    | serialExchange p => exact codeSerialExchange_gentle hw p
    | irqEdge | measure | decodeByte => exact gentle_of_all_mild rfl
    | _ => cases hc

theorem Begins.tick_iff {s s' : State} {i : Instr} {a : AgentId} {th : Thread} (h : Begins s i a th s') :
    a = .tick ↔ i = .tick := by
  cases h with
  | caller hc => cases i <;> simp_all [callerCode]
  | _ => simp

/-! ### The steps of a tick -/

theorem isTick_writes_nothing {l : Line} (h : l.isTick = true) {reg v : Byte} :
    ¬ (l = .busWrite reg v ∨ l = .initWrite reg v) := by
  rintro (rfl | rfl) <;> cases h

/-- A line between the drivings leaves `OUT` and begins a driving, or leads to such lines again. -/
theorem LineStep.tickPosition {s s' : State} {l : Line} {new rest : List Line} (h : LineStep s l new s')
    (hl : l.isTick = true) (hr : ∀ l ∈ rest, l.isTick = true) :
    s'.out = s.out ∧ TickPosition s.cfg s'.out (new ++ rest) := by
  cases h with
  | tickGate =>
    refine ⟨rfl, .inl fun l' hl' => ?_⟩
    rcases List.mem_append.mp hl' with hl' | hl'
    · simp only [codeTickBody, List.mem_cons, List.not_mem_nil, or_false] at hl'
      rcases hl' with rfl | rfl | rfl <;> rfl
    · exact hr l' hl'
  | tickGateClosed => exact ⟨rfl, .inl hr⟩
  | tickChannel t c => exact ⟨rfl, .inr ⟨c, _, rest, hr, .inl rfl⟩⟩
  | tickEnd t => exact ⟨rfl, .inl hr⟩
  | _ => cases hl

/-- Every step of a tick keeps the exclusion in `OUT` and in what is written (R180, R183, R184). -/
theorem LineStep.tick {s s' : State} {l : Line} {new rest : List Line} (h : LineStep s l new s')
    (hw : s.cfg.wf = true) (hp : TickPosition s.cfg s.out (l :: rest)) (ho : Exclusive s.cfg s.out)
    (hs : WrittenSafe s) :
    TickPosition s.cfg s'.out (new ++ rest) ∧ Exclusive s.cfg s'.out ∧ WrittenSafe s' := by
  have pending : ∀ {v}, Exclusive s.cfg v → l = .busWrite s.cfg.regOutPort v →
      new = [] ∧ s'.out = s.out ∧ WrittenSafe s' := by
    rintro v hv rfl
    cases h with
    | busWrite => exact ⟨rfl, busWrite_out .., writtenSafe_busWrite hs fun _ => hv⟩
  rcases hp with hp | ⟨c, d, rest', hr, hp | ⟨hz, hp | ⟨v, hv, hp⟩⟩ | ⟨v, hv, hp⟩⟩
  · have hl := hp l List.mem_cons_self
    obtain ⟨hout, hpos⟩ := h.tickPosition hl fun l' hl' => hp l' (List.mem_cons_of_mem _ hl')
    exact ⟨hpos, hout ▸ ho, h.writtenSafe hs fun reg v hc => (isTick_writes_nothing hl hc).elim⟩
  · obtain ⟨rfl, rfl⟩ := List.cons.inj hp
    have hclear := andNot_driveClear s.cfg s.out c d
    have hex : Exclusive s.cfg (s.out &&& ~~~ driveClear s.cfg c d) :=
      (noNewMotor_of_setsNoMotor (f := .andNotMask (driveClear s.cfg c d)) trivial s.out).exclusive ho
    cases h with
    | rmw f hf => exact ⟨.inr ⟨c, d, rest', hr, .inr (.inl ⟨hclear, .inr ⟨_, hex, rfl⟩⟩)⟩, hex, hs⟩
    | rmwSame f hf =>
      have hz : s.out &&& driveClear s.cfg c d = 0 := by
        rw [show s.out &&& ~~~ driveClear s.cfg c d = s.out from hf] at hclear
        exact hclear
      exact ⟨.inr ⟨c, d, rest', hr, .inr (.inl ⟨hz, .inl rfl⟩)⟩, ho, hs⟩
  · obtain ⟨rfl, rfl⟩ := List.cons.inj hp
    have hex := exclusive_or_driveSet hw ho hz
    cases h with
    | rmw f hf => exact ⟨.inr ⟨c, d, _, hr, .inr (.inr ⟨_, hex, rfl⟩)⟩, hex, hs⟩
    | rmwSame f hf => exact ⟨.inl hr, ho, hs⟩
  · obtain ⟨rfl, rfl⟩ := List.cons.inj hp
    obtain ⟨rfl, hout, hs'⟩ := pending hv rfl
    rw [hout]
    exact ⟨.inr ⟨c, d, rest', hr, .inr (.inl ⟨hz, .inl rfl⟩)⟩, ho, hs'⟩
  · obtain ⟨rfl, rfl⟩ := List.cons.inj hp
    obtain ⟨rfl, hout, hs'⟩ := pending hv rfl
    rw [hout]
    exact ⟨.inl hr, ho, hs'⟩

/-! ### A turn -/

/-- Where an agent may stand while `OUT` holds `out`: `A_TICK` at a place of a tick, the others at gentle lines. -/
def PositionSafe (g : Cfg) (out : Byte) (p : Nat × Thread) : Prop :=
  if p.1 = AgentId.tick.key then TickPosition g out p.2.code else ∀ l ∈ p.2.code, l.Gentle g

theorem positionSafe_of_noNewMotor {g : Cfg} {v w : Byte} {p : Nat × Thread} (h : NoNewMotor g v w)
    (hp : PositionSafe g v p) : PositionSafe g w p := by
  unfold PositionSafe at hp ⊢
  by_cases hk : p.1 = AgentId.tick.key
  · rw [if_pos hk] at hp ⊢
    exact tickPosition_of_noNewMotor h hp
  · rw [if_neg hk] at hp ⊢
    exact hp

/-- A turn of `A_TICK` keeps the exclusion; the other agents' places do not depend on `OUT`. -/
theorem runThread_tick_safe {n : Nat} {th th' : Thread} {s s' : State}
    (h : runThread .tick n th s = .next (th', s')) (hw : s.cfg.wf = true)
    (hp : TickPosition s.cfg s.out th.code) (ho : Exclusive s.cfg s.out) (hs : WrittenSafe s) :
    TickPosition s.cfg s'.out th'.code ∧ Exclusive s.cfg s'.out ∧ WrittenSafe s' := by
  refine (runThread_keeps (fun code t => t.cfg = s.cfg ∧ TickPosition s.cfg t.out code ∧
    Exclusive s.cfg t.out ∧ WrittenSafe t) ?_ h ⟨rfl, hp, ho, hs⟩).2
  rintro code t code' t' ⟨hg, hp, ho, hs⟩ hstep
  cases hstep with
  | stay => exact ⟨hg, hp, ho, hs⟩
  | line rest hl =>
    rw [← hg] at hw hp ho ⊢
    exact ⟨hl.setting.cfg, hl.tick hw hp ho hs⟩
  | exchange ha | byte ha => cases ha

/-- A turn of any other agent, at gentle lines, keeps it, and the places of all agents stay safe. -/
theorem runThread_gentle_safe {a : AgentId} {n : Nat} {th th' : Thread} {s s' : State}
    (h : runThread a n th s = .next (th', s')) (hw : s.cfg.wf = true)
    (hp : ∀ l ∈ th.code, l.Gentle s.cfg) (ho : Exclusive s.cfg s.out) (hs : WrittenSafe s)
    (hpos : ∀ p ∈ s.threads, PositionSafe s.cfg s.out p) :
    (∀ l ∈ th'.code, l.Gentle s.cfg) ∧ Exclusive s.cfg s'.out ∧ WrittenSafe s' ∧
      ∀ p ∈ s.threads, PositionSafe s.cfg s'.out p := by
  refine (runThread_keeps (fun code t => t.cfg = s.cfg ∧ (∀ l ∈ code, l.Gentle s.cfg) ∧
    Exclusive s.cfg t.out ∧ WrittenSafe t ∧ ∀ p ∈ s.threads, PositionSafe s.cfg t.out p) ?_ h
    ⟨rfl, hp, ho, hs, hpos⟩).2
  rintro code t code' t' ⟨hg, hp, ho, hs, hpos⟩ hstep
  cases hstep with
  | stay => exact ⟨hg, hp, ho, hs, hpos⟩
  | line rest hl =>
    rw [← hg] at hw hp ho hpos ⊢
    have hgentle := hp _ List.mem_cons_self
    have hnew := hl.noNewMotor hw hgentle
    refine ⟨hl.setting.cfg, fun l' hl' => ?_, hnew.exclusive ho, ?_,
      fun p hp => positionSafe_of_noNewMotor hnew (hpos p hp)⟩
    · rcases List.mem_append.mp hl' with hl' | hl'
      · exact hl.new_gentle hw hgentle ho l' hl'
      · exact hp l' (List.mem_cons_of_mem _ hl')
    · refine hl.writtenSafe hs fun reg v hc => ?_
      rcases hc with rfl | rfl <;> exact hgentle
  | exchange => exact ⟨hg, hg ▸ codeSerialExchange_gentle (hg ▸ hw) _, ho, hs, hpos⟩
  | byte => exact ⟨hg, hp, ho, hs, hpos⟩

/-- `A_TICK` as its turn begins stands at a place of a tick, and no other agent has its key. -/
theorem Takes.tick {s s' : State} {act : Action} {th : Thread} (h : Takes s act .tick th s')
    (hs : ∀ p ∈ s.threads, PositionSafe s.cfg s.out p) :
    TickPosition s.cfg s.out th.code ∧ ∀ p ∈ s'.threads, p.1 ≠ AgentId.tick.key := by
  cases h with
  | resume =>
    refine ⟨?_, fun p hp => (assoc_mem_erase hp).2⟩
    unfold State.thread
    cases hg : Assoc.get s.threads AgentId.tick.key with
    | none => exact .inl (by simp [Thread.idle])
    | some th =>
      have := hs _ (assoc_mem_of_get hg)
      simpa [PositionSafe] using this
  | start _ hb =>
    obtain rfl := hb.tick_iff.mp rfl
    cases hb with
    | tick hr =>
      refine ⟨.inl fun l hl => ?_, assoc_key_ne_of_get_none ?_⟩
      · obtain rfl := List.mem_singleton.mp hl
        rfl
      · simpa [State.running] using hr

/-- Settles O51: a turn of `A_TICK` goes from one place of a tick to another, and a turn of any other agent sets
no motor bit. -/
theorem everyStepKeepsMotorsExclusive : Obligations.EveryStepKeepsMotorsExclusive := by
  rintro s t ⟨hw, ho, hwr, hag, hev⟩ h
  rcases step_next h with rfl | ⟨u, rest, a, th, s1, th', s', hu, _, htakes, hrun, rfl⟩
  · exact ⟨hw, ho, hwr, hag, hev⟩
  have hb := htakes.block
  have hsame := runThread_setting hrun
  have hcfg : s'.cfg = s.cfg := hsame.cfg.trans hb.cfg
  have hpos1 : ∀ p ∈ s1.threads, PositionSafe s1.cfg s1.out p := by
    intro p hp
    rw [hb.cfg, hb.out]
    exact hag p (htakes.threads_subset p hp)
  have hwf1 : s1.cfg.wf = true := hb.cfg ▸ hw
  have hout1 : Exclusive s1.cfg s1.out := by rw [hb.cfg, hb.out]; exact ho
  have hwr1 : WrittenSafe s1 := writtenSafe_congr hb.cfg hb.busTrace hwr
  have hturns : s'.turns = rest := hsame.turns.trans htakes.turns
  have hend : Exclusive s1.cfg s'.out ∧ WrittenSafe s' ∧ PositionSafe s1.cfg s'.out (a.key, th') ∧
      ∀ p ∈ s1.threads, PositionSafe s1.cfg s'.out p := by
    by_cases ha : a = .tick
    · subst ha
      obtain ⟨hp, hkeys⟩ := htakes.tick hag
      obtain ⟨hp', ho', hwr'⟩ :=
        runThread_tick_safe hrun hwf1 (by rw [hb.cfg, hb.out]; exact hp) hout1 hwr1
      refine ⟨ho', hwr', by simpa [PositionSafe] using hp', fun p hp => ?_⟩
      simpa [PositionSafe, hkeys p hp] using hpos1 p hp
    · have hkey : a.key ≠ AgentId.tick.key := fun e => ha (key_injective e)
      have hgentle : ∀ l ∈ th.code, l.Gentle s1.cfg := by
        intro l hl
        rw [hb.cfg]
        rcases htakes.mem_code hl with ⟨p, hp, hk, hl⟩ | ⟨w, i, hact, hdec, hbeg, hl⟩
        · have := hag p hp
          rw [if_neg (hk ▸ hkey)] at this
          exact this l hl
        · have hg := hev u (hu ▸ List.mem_cons_self)
          rw [Turn.Gentle, hact] at hg
          exact startCode_gentle (s := s.beginTurn u rest) hw (hg i hdec) (fun e => ha (hbeg.tick_iff.mpr e))
            l hl
      obtain ⟨hp', ho', hwr', hpos'⟩ := runThread_gentle_safe hrun hwf1 hgentle hout1 hwr1 hpos1
      exact ⟨ho', hwr', by simpa [PositionSafe, hkey] using hp', hpos'⟩
  obtain ⟨ho', hwr', hpa, hpos'⟩ := hend
  have hc1 : s1.cfg = s.cfg := hb.cfg
  refine ⟨?_, ?_, ?_, ?_, ?_⟩
  · rw [park_cfg, hcfg]; exact hw
  · rw [park_cfg, park_out, hcfg, ← hc1]; exact ho'
  · exact writtenSafe_congr (park_cfg ..) (park_busTrace ..) hwr'
  · rw [park_cfg, park_out, hcfg, ← hc1]
    exact forall_mem_park (P := PositionSafe s1.cfg s'.out) (hsame.threads ▸ hpos') fun _ => hpa
  · rw [park_cfg, park_turns, hcfg, hturns]
    exact fun v hv => hev v (hu ▸ List.mem_cons_of_mem _ hv)

end Sys2Proof.Machine

/-! SUPPORT. The text encodings: decimal numerals, segments, the converters, and which command a request names. -/

namespace Sys2Proof

open Sys2Proof.Machine

/-! ### Decimal numerals -/

/-- A byte that is a decimal digit of ASCII. -/
def IsDigit (b : Byte) : Prop := 0x30 ≤ b.toNat ∧ b.toNat ≤ 0x39

theorem digit_toNat {d : Nat} (h : d < 10) : (digit d).toNat = 48 + d := by
  simp only [digit, BitVec.toNat_ofNat]; omega

theorem isDigit_digit {d : Nat} (h : d < 10) : IsDigit (digit d) := by
  rw [IsDigit, digit_toNat h]; omega

theorem decDigits_append (fuel n : Nat) (acc : Bytes) :
    decDigits fuel n acc = decDigits fuel n [] ++ acc := by
  induction fuel generalizing n acc with
  | zero => rfl
  | succ fuel ih =>
    unfold decDigits
    split
    · rfl
    · rw [ih _ (_ :: acc), ih _ [_], List.append_assoc, List.singleton_append]

theorem decDigits_fuel {n f k : Nat} (hf : n < f) (hk : n < k) (acc : Bytes) :
    decDigits f n acc = decDigits k n acc := by
  induction f generalizing n k acc with
  | zero => omega
  | succ f ih =>
    cases k with
    | zero => omega
    | succ k =>
      unfold decDigits
      split
      · rfl
      · exact ih (by omega) (by omega) _

theorem dec_of_lt {n : Nat} (h : n < 10) : dec n = [digit n] := by
  simp [dec, decDigits, h]

/-- A numeral of more digits is that of the tens and the last digit. -/
theorem dec_of_ge {n : Nat} (h : 10 ≤ n) : dec n = dec (n / 10) ++ [digit (n % 10)] := by
  have hlt : ¬ n < 10 := by omega
  rw [dec, decDigits, if_neg hlt, decDigits_append, decDigits_fuel (k := n / 10 + 1) (by omega) (by omega)]
  rfl

theorem dec_ne_nil (n : Nat) : dec n ≠ [] := by
  by_cases h : n < 10
  · simp [dec_of_lt h]
  · simp [dec_of_ge (not_lt.mp h)]

theorem isDigit_of_mem_dec (n : Nat) : ∀ b ∈ dec n, IsDigit b := by
  induction n using Nat.strongRecOn with
  | _ n ih =>
    by_cases h : n < 10
    · simpa [dec_of_lt h] using isDigit_digit h
    · intro b hb
      rw [dec_of_ge (not_lt.mp h)] at hb
      rcases List.mem_append.mp hb with hb | hb
      · exact ih _ (by omega) b hb
      · obtain rfl := List.mem_singleton.mp hb
        exact isDigit_digit (by omega)

theorem decimalValue_append_digit (t : Bytes) {d : Nat} (h : d < 10) :
    decimalValue (t ++ [digit d]) = decimalValue t * 10 + d := by
  simp [decimalValue, digit_toNat h]

/-- A numeral stands for its number (R9). -/
theorem decimalValue_dec (n : Nat) : decimalValue (dec n) = n := by
  induction n using Nat.strongRecOn with
  | _ n ih =>
    by_cases h : n < 10
    · simp [dec_of_lt h, decimalValue, digit_toNat h]
    · rw [dec_of_ge (not_lt.mp h), decimalValue_append_digit _ (by omega), ih _ (by omega)]
      omega

/-- No numeral but that of 0 begins with the digit 0 (R9). -/
theorem head_dec_ne_zero {n : Nat} (h : 0 < n) : (dec n).head? ≠ some 0x30 := by
  induction n using Nat.strongRecOn with
  | _ n ih =>
    by_cases hn : n < 10
    · rw [dec_of_lt hn]
      simp only [List.head?_cons, ne_eq, Option.some.injEq]
      intro e
      have := digit_toNat hn
      rw [e] at this
      change 48 = 48 + n at this
      omega
    · rw [dec_of_ge (not_lt.mp hn), List.head?_append_of_ne_nil _ (dec_ne_nil _)]
      exact ih _ (by omega) (by omega)

/-- A number below `10 ^ k` has at most `k` digits. -/
theorem length_dec_le {k n : Nat} (h : n < 10 ^ (k + 1)) : (dec n).length ≤ k + 1 := by
  induction k generalizing n with
  | zero => simp [dec_of_lt (by simpa using h)]
  | succ k ih =>
    by_cases hn : n < 10
    · simp [dec_of_lt hn]
    · have := ih (n := n / 10) (by rw [pow_succ] at h; omega)
      simp [dec_of_ge (not_lt.mp hn), this]

/-! ### `parseInt` -/

theorem digitValue_eq_some {b : Byte} {d : Nat} :
    digitValue b = some d ↔ IsDigit b ∧ d = b.toNat - 0x30 := by
  unfold digitValue IsDigit
  split <;> simp_all [eq_comm]

theorem parseDigits_eq_some {acc n : Nat} {t : Bytes} :
    parseDigits acc t = some n ↔
      (∀ b ∈ t, IsDigit b) ∧ n = t.foldl (fun n b => n * 10 + (b.toNat - 0x30)) acc := by
  induction t generalizing acc with
  | nil => simp [parseDigits, eq_comm]
  | cons b t ih =>
    unfold parseDigits
    cases hd : digitValue b with
    | some d =>
      obtain ⟨hb, rfl⟩ := digitValue_eq_some.mp hd
      simp [ih, hb]
    | none =>
      have hb : ¬ IsDigit b := fun hb => by simp [digitValue_eq_some.mpr ⟨hb, rfl⟩] at hd
      simp [hb]

/-- A text of one or more digits. -/
def IsNumeral (t : Bytes) : Prop := t ≠ [] ∧ ∀ b ∈ t, IsDigit b

theorem isNumeral_dec (n : Nat) : IsNumeral (dec n) := ⟨dec_ne_nil n, isDigit_of_mem_dec n⟩

theorem parseNat_eq_some {t : Bytes} {n : Nat} :
    parseNat t = some n ↔ IsNumeral t ∧ n = decimalValue t := by
  unfold parseNat IsNumeral
  split
  · simp [*]
  · simp [*, parseDigits_eq_some, decimalValue]

/-- A numeral does not begin with the sign. -/
theorem IsNumeral.head_ne_minus {b : Byte} {t : Bytes} (h : IsNumeral (b :: t)) : b ≠ 0x2D := by
  have hb : IsDigit b := h.2 b List.mem_cons_self
  rintro rfl
  simp [IsDigit] at hb

theorem parseIntAny_minus {t : Bytes} {i : Int} :
    parseIntAny (0x2D :: t) = some i ↔ ∃ n : Nat, parseNat t = some n ∧ i = -(n : Int) := by
  cases h : parseNat t <;> simp [parseIntAny, h, eq_comm]

theorem parseIntAny_digits {b : Byte} (hb : b ≠ 0x2D) {t : Bytes} {i : Int} :
    parseIntAny (b :: t) = some i ↔ ∃ n : Nat, parseNat (b :: t) = some n ∧ i = (n : Int) := by
  rw [parseIntAny, if_neg hb]
  cases parseNat (b :: t) <;> simp [eq_comm]

/-- What `parseIntAny` converts (R101 before its range check). -/
theorem parseIntAny_eq_some {t : Bytes} {i : Int} :
    parseIntAny t = some i ↔ ∃ ds, IsNumeral ds ∧
      ((t = ds ∧ i = (decimalValue ds : Int)) ∨ (t = 0x2D :: ds ∧ i = -(decimalValue ds : Int))) := by
  cases t with
  | nil =>
    refine ⟨fun h => (by cases h), ?_⟩
    rintro ⟨ds, hds, ⟨rfl, -⟩ | ⟨h, -⟩⟩
    · exact absurd rfl hds.1
    · cases h
  | cons b t =>
    by_cases hb : b = 0x2D
    · subst hb
      simp only [parseIntAny_minus, parseNat_eq_some]
      constructor
      · rintro ⟨n, ⟨ht, rfl⟩, rfl⟩
        exact ⟨t, ht, .inr ⟨rfl, rfl⟩⟩
      · rintro ⟨ds, hds, ⟨rfl, -⟩ | ⟨h, rfl⟩⟩
        · exact absurd rfl hds.head_ne_minus
        · obtain rfl := (List.cons.inj h).2
          exact ⟨_, ⟨hds, rfl⟩, rfl⟩
    · simp only [parseIntAny_digits hb, parseNat_eq_some]
      constructor
      · rintro ⟨n, ⟨ht, rfl⟩, rfl⟩
        exact ⟨_, ht, .inl ⟨rfl, rfl⟩⟩
      · rintro ⟨ds, hds, ⟨rfl, rfl⟩ | ⟨h, -⟩⟩
        · exact ⟨_, ⟨hds, rfl⟩, rfl⟩
        · exact absurd (List.cons.inj h).1 hb

theorem parseInt_eq_ok {t : Bytes} {i : Int} :
    parseInt t = .ok i ↔ inInt32 i ∧ parseIntAny t = some i := by
  unfold parseInt
  cases parseIntAny t with
  | none => simp
  | some j =>
    by_cases hj : inInt32 j
    · simp only [if_pos hj, Except.ok.injEq, Option.some.injEq]
      exact ⟨fun h => ⟨h ▸ hj, h⟩, And.right⟩
    · simp only [if_neg hj, reduceCtorEq, Option.some.injEq, false_iff]
      rintro ⟨h, rfl⟩
      exact hj h

/-- An integer's text converts back to it, whatever its size (R13(g)). -/
theorem parseIntAny_decInt (i : Int) : parseIntAny (decInt i) = some i := by
  refine parseIntAny_eq_some.mpr ⟨dec i.natAbs, isNumeral_dec _, ?_⟩
  rw [decimalValue_dec]
  unfold decInt
  split
  · exact .inr ⟨rfl, by omega⟩
  · exact .inl ⟨rfl, by omega⟩

theorem parseInt_decInt {i : Int} (h : inInt32 i) : parseInt (decInt i) = .ok i :=
  parseInt_eq_ok.mpr ⟨h, parseIntAny_decInt i⟩

/-! ### `parseBool` and `parseDir` -/

theorem parseBool_eq_ok {t : Bytes} {b : Bool} : parseBool t = .ok b ↔ t = boolText b := by
  have hne : ascii "true" ≠ ascii "false" := by decide
  unfold parseBool boolText
  cases b <;> by_cases ht : t = ascii "true" <;> by_cases hf : t = ascii "false" <;> simp_all

theorem parseDir_dirText (d : Direction) : parseDir (dirText d) = d := by
  cases d <;> rfl

/-! ### Segments -/

theorem splitSlash_ne_nil (t : Bytes) : splitSlash t ≠ [] := by
  cases t with
  | nil => simp [splitSlash]
  | cons b t =>
    unfold splitSlash
    split
    · simp
    · split <;> simp

/-- A byte that is no `/` joins the first segment. -/
theorem splitSlash_cons {b : Byte} (h : b ≠ slash) (t : Bytes) :
    ∃ s ss, splitSlash t = s :: ss ∧ splitSlash (b :: t) = (b :: s) :: ss := by
  cases hs : splitSlash t with
  | nil => exact absurd hs (splitSlash_ne_nil t)
  | cons s ss => exact ⟨s, ss, rfl, by simp [splitSlash, h, hs]⟩

theorem splitSlash_slash (t : Bytes) : splitSlash (slash :: t) = [] :: splitSlash t := by
  simp [splitSlash]

/-- A text free of `/` is the first segment of itself with more after a `/`. -/
theorem splitSlash_append_slash {s : Bytes} (h : slash ∉ s) (t : Bytes) :
    splitSlash (s ++ slash :: t) = s :: splitSlash t := by
  induction s with
  | nil => exact splitSlash_slash t
  | cons b s ih =>
    rw [List.mem_cons, not_or] at h
    obtain ⟨s', ss, h1, h2⟩ := splitSlash_cons (Ne.symm h.1) (s ++ slash :: t)
    rw [ih h.2] at h1
    obtain ⟨rfl, rfl⟩ := List.cons.inj h1
    exact h2

theorem splitSlash_of_not_mem {s : Bytes} (h : slash ∉ s) : splitSlash s = [s] := by
  induction s with
  | nil => rfl
  | cons b s ih =>
    rw [List.mem_cons, not_or] at h
    obtain ⟨s', ss, h1, h2⟩ := splitSlash_cons (Ne.symm h.1) s
    rw [ih h.2] at h1
    obtain ⟨rfl, rfl⟩ := List.cons.inj h1
    exact h2

/-- The segments joined by `/` are the text (R9). -/
theorem intercalate_splitSlash (t : Bytes) : List.intercalate [slash] (splitSlash t) = t := by
  induction t with
  | nil => rfl
  | cons b t ih =>
    by_cases h : b = slash
    · subst h
      rw [splitSlash_slash]
      obtain ⟨s, ss, hs⟩ := List.exists_cons_of_ne_nil (splitSlash_ne_nil t)
      rw [hs] at ih ⊢
      rw [List.intercalate_cons_cons, ih]
      rfl
    · obtain ⟨s, ss, h1, h2⟩ := splitSlash_cons h t
      rw [h1] at ih
      rw [h2]
      cases ss with
      | nil => simpa using ih
      | cons s' ss =>
        rw [List.intercalate_cons_cons] at ih ⊢
        rw [List.cons_append, List.cons_append, ih]

/-- No segment holds a `/` (R9). -/
theorem slash_not_mem_segment (t : Bytes) : ∀ s ∈ splitSlash t, slash ∉ s := by
  induction t with
  | nil => simp [splitSlash]
  | cons b t ih =>
    by_cases h : b = slash
    · subst h
      rw [splitSlash_slash]
      intro s hs
      rcases List.mem_cons.mp hs with rfl | hs
      · simp
      · exact ih s hs
    · obtain ⟨s, ss, h1, h2⟩ := splitSlash_cons h t
      rw [h1] at ih
      rw [h2]
      intro s' hs'
      rcases List.mem_cons.mp hs' with rfl | hs'
      · rw [List.mem_cons, not_or]
        exact ⟨Ne.symm h, ih s List.mem_cons_self⟩
      · exact ih s' (List.mem_cons_of_mem _ hs')

/-- A command's text has an empty first segment, then its name, then its arguments (R99). -/
theorem splitSlash_commandText {name : Bytes} {args : List Bytes} (hn : slash ∉ name)
    (ha : ∀ t ∈ args, slash ∉ t) : splitSlash (commandText name args) = [] :: name :: args := by
  have tail : ∀ {s : Bytes} {args : List Bytes}, slash ∉ s → (∀ t ∈ args, slash ∉ t) →
      splitSlash (s ++ args.flatMap (slash :: ·)) = s :: args := by
    intro s args hs ha
    induction args generalizing s with
    | nil => simpa using splitSlash_of_not_mem hs
    | cons t args ih =>
      rw [List.flatMap_cons, List.cons_append, splitSlash_append_slash hs,
        ih (ha t List.mem_cons_self) fun u hu => ha u (List.mem_cons_of_mem _ hu)]
  rw [commandText, List.cons_append, splitSlash_slash, tail hn ha]

theorem slash_not_mem_decInt (i : Int) : slash ∉ decInt i := by
  have hdec : slash ∉ dec i.natAbs := fun h => by
    have := isDigit_of_mem_dec _ _ h
    simp [IsDigit, slash] at this
  unfold decInt
  split
  · rw [List.mem_cons, not_or]
    exact ⟨by decide, hdec⟩
  · exact hdec

theorem slash_not_mem_boolText (b : Bool) : slash ∉ boolText b := by revert b; decide

theorem slash_not_mem_dirText (d : Direction) : slash ∉ dirText d := by cases d <;> decide

/-! ### The arguments of a command -/

theorem bind_eq_ok {ε α β : Type} {x : Except ε α} {f : α → Except ε β} {b : β} :
    x >>= f = .ok b ↔ ∃ a, x = .ok a ∧ f a = .ok b := by
  cases x with
  | error e => simp [bind, Except.bind]
  | ok a => simp [bind, Except.bind]

theorem segment_eq_ok {segs : List Bytes} {n : Nat} {s : Bytes} :
    segment segs n = .ok s ↔ segs[n]? = some s := by
  unfold segment
  split <;> simp [*]

theorem return_eq_ok {ε α : Type} {a b : α} : (return a : Except ε α) = .ok b ↔ b = a := by
  simp [pure, Except.pure, eq_comm]

/-- What `o`, `md` and `mp` take from their segments (R228, R234, R236). -/
theorem parseO_eq_ok {segs : List Bytes} {c : Command} :
    parseO segs = .ok c ↔ ∃ x y i b, segs[2]? = some x ∧ segs[3]? = some y ∧ parseInt x = .ok i ∧
      parseBool y = .ok b ∧ c = .o i b := by
  simp only [parseO, bind_eq_ok, segment_eq_ok, return_eq_ok]
  constructor
  · rintro ⟨x, hx, i, hi, y, hy, b, hb, rfl⟩
    exact ⟨x, y, i, b, hx, hy, hi, hb, rfl⟩
  · rintro ⟨x, y, i, b, hx, hy, hi, hb, rfl⟩
    exact ⟨x, hx, i, hi, y, hy, b, hb, rfl⟩

theorem parseMd_eq_ok {segs : List Bytes} {c : Command} :
    parseMd segs = .ok c ↔ ∃ x y i, segs[2]? = some x ∧ segs[3]? = some y ∧ parseInt x = .ok i ∧
      c = .md i (parseDir y) := by
  simp only [parseMd, bind_eq_ok, segment_eq_ok, return_eq_ok]
  constructor
  · rintro ⟨x, hx, i, hi, y, hy, rfl⟩
    exact ⟨x, y, i, hx, hy, hi, rfl⟩
  · rintro ⟨x, y, i, hx, hy, hi, rfl⟩
    exact ⟨x, hx, i, hi, y, hy, rfl⟩

theorem parseMp_eq_ok {segs : List Bytes} {c : Command} :
    parseMp segs = .ok c ↔ ∃ x y i p, segs[2]? = some x ∧ segs[3]? = some y ∧ parseInt x = .ok i ∧
      parseInt y = .ok p ∧ c = .mp i p := by
  simp only [parseMp, bind_eq_ok, segment_eq_ok, return_eq_ok]
  constructor
  · rintro ⟨x, hx, i, hi, y, hy, p, hp, rfl⟩
    exact ⟨x, y, i, p, hx, hy, hi, hp, rfl⟩
  · rintro ⟨x, y, i, p, hx, hy, hi, hp, rfl⟩
    exact ⟨x, hx, i, hi, y, hy, p, hp, rfl⟩

/-! ### The choice of the command by segment 1 (R105) -/

section
variable {req name : Bytes}

/-- The arm a name chooses. -/
def commandOfName (segs : List Bytes) (name : Bytes) : Except ParseError Command :=
  if name = ascii "poll" then .ok .poll
  else if name = ascii "o" then parseO segs
  else if name = ascii "reset_all" then .ok .resetAll
  else if name = ascii "crossdomain.xml" then .ok .crossdomain
  else if name = ascii "md" then parseMd segs
  else if name = ascii "mp" then parseMp segs
  else .ok .unknown

theorem parseCommand_of_name (h : (splitSlash req)[1]? = some name) :
    parseCommand req = commandOfName (splitSlash req) name := by
  simp only [parseCommand, segment_eq_ok.mpr h]
  rfl

theorem parseCommand_of_none (h : (splitSlash req)[1]? = none) :
    parseCommand req = .error .missingSegment := by
  simp only [parseCommand, segment, h]
  rfl

theorem parseCommand_poll (h : (splitSlash req)[1]? = some (ascii "poll")) :
    parseCommand req = .ok .poll := parseCommand_of_name h

theorem parseCommand_o (h : (splitSlash req)[1]? = some (ascii "o")) :
    parseCommand req = parseO (splitSlash req) := parseCommand_of_name h

theorem parseCommand_resetAll (h : (splitSlash req)[1]? = some (ascii "reset_all")) :
    parseCommand req = .ok .resetAll := parseCommand_of_name h

theorem parseCommand_crossdomain (h : (splitSlash req)[1]? = some (ascii "crossdomain.xml")) :
    parseCommand req = .ok .crossdomain := parseCommand_of_name h

theorem parseCommand_md (h : (splitSlash req)[1]? = some (ascii "md")) :
    parseCommand req = parseMd (splitSlash req) := parseCommand_of_name h

theorem parseCommand_mp (h : (splitSlash req)[1]? = some (ascii "mp")) :
    parseCommand req = parseMp (splitSlash req) := parseCommand_of_name h

theorem parseCommand_other (h : (splitSlash req)[1]? = some name) (h1 : name ≠ ascii "poll")
    (h2 : name ≠ ascii "o") (h3 : name ≠ ascii "reset_all") (h4 : name ≠ ascii "crossdomain.xml")
    (h5 : name ≠ ascii "md") (h6 : name ≠ ascii "mp") : parseCommand req = .ok .unknown := by
  simp [parseCommand_of_name h, commandOfName, *]

end

/-- The operation of a command (R220). -/
def Command.instr (req : Bytes) : Command → Instr
  | .poll => .poll
  | .o i b => .o i b
  | .resetAll => .resetAll
  | .crossdomain => .crossdomain
  | .md c d => .md c d
  | .mp c p => .mp c p
  | .unknown => .unknown req

theorem decodeText_of_ok {req : Bytes} {c : Command} (h : parseCommand req = .ok c) :
    decodeText req = c.instr req := by
  unfold decodeText
  rw [h]
  cases c <;> rfl

theorem decodeText_of_error {req : Bytes} {e : ParseError} (h : parseCommand req = .error e) :
    decodeText req = .unknown req := by
  unfold decodeText
  rw [h]

/-- Every integer of a converted command is in the range of `parseInt` (R101). -/
theorem decodeText_wellFormed (req : Bytes) : (decodeText req).wellFormed = true := by
  have unknown : decodeText req = .unknown req → (decodeText req).wellFormed = true := by
    intro h
    rw [h]
    simpa [Instr.wellFormed] using h
  cases hp : parseCommand req with
  | error e => exact unknown (decodeText_of_error hp)
  | ok c =>
    have hd := decodeText_of_ok hp
    cases hn : (splitSlash req)[1]? with
    | none =>
      rw [parseCommand_of_none hn] at hp
      cases hp
    | some name =>
      rw [parseCommand_of_name hn] at hp
      unfold commandOfName at hp
      split at hp
      · cases hp; rw [hd]; rfl
      split at hp
      · obtain ⟨x, y, i, b, -, -, hi, -, rfl⟩ := parseO_eq_ok.mp hp
        rw [hd]
        exact decide_eq_true (parseInt_eq_ok.mp hi).1
      split at hp
      · cases hp; rw [hd]; rfl
      split at hp
      · cases hp; rw [hd]; rfl
      split at hp
      · obtain ⟨x, y, i, -, -, hi, rfl⟩ := parseMd_eq_ok.mp hp
        rw [hd]
        exact decide_eq_true (parseInt_eq_ok.mp hi).1
      split at hp
      · obtain ⟨x, y, i, p, -, -, hi, hq, rfl⟩ := parseMp_eq_ok.mp hp
        rw [hd]
        exact decide_eq_true ⟨(parseInt_eq_ok.mp hi).1, (parseInt_eq_ok.mp hq).1⟩
      · cases hp
        exact unknown hd

end Sys2Proof

/-! SUPPORT. The event words: the decoder undoes the encoder and answers well-formed operations only. -/

namespace Sys2Proof

/-! ### Operands -/

theorem decodeChannel_encodeChannel (c : Channel) : decodeChannel (encodeChannel c) = some c := by
  revert c; decide

theorem decodeDirection_encodeDirection (d : Direction) :
    decodeDirection (encodeDirection d) = some d := by
  cases d <;> rfl

theorem decodeInitResult_encodeInitResult (r : InitResult) :
    decodeInitResult (encodeInitResult r) = some r := by
  cases r with
  | ok => rfl
  | fail k => revert k; decide

theorem decodeByteFn_encodeByteFn (f : ByteFn) : decodeByteFn (encodeByteFn f) = some f := by
  cases f with
  | orMask m => rfl
  | andNotMask m => rfl
  | const m => rfl
  | table t =>
    have hlen : t.toList.length = 256 := t.length_toList
    have h01 : (3 : Byte) ≠ 0 ∧ (3 : Byte) ≠ 1 ∧ (3 : Byte) ≠ 2 := by decide
    obtain ⟨h0, h1, h2⟩ := h01
    rw [encodeByteFn, decodeByteFn, if_neg h0, if_neg h1, if_neg h2, if_pos rfl, dif_pos hlen]
    · rfl
    · intro x hx
      simp [hx] at hlen

/-! ### The formats of the spec -/

/-- A two-byte length is read back (R97). -/
theorem decodeFO_responseFrame {p : Bytes} (h : p.length ≤ 65535) :
    decodeFO (responseFrame p) = .ok (.encodeResponse p) := by
  have hlen : p.length = (BitVec.ofNat 8 (p.length / 256)).toNat * 256 +
      (BitVec.ofNat 8 (p.length % 256)).toNat := by
    simp only [BitVec.toNat_ofNat]; omega
  rw [responseFrame, decodeFO, if_neg (not_not.mpr rfl), if_pos hlen]

theorem decodeFI_requestFrame {p : Bytes} (h : p.length ≤ 255) :
    decodeFI (requestFrame p) = .ok (.encodeRequest p) := by
  have hlen : p.length = (BitVec.ofNat 8 p.length).toNat := by
    simp only [BitVec.toNat_ofNat]; omega
  rw [requestFrame, decodeFI, if_neg (not_not.mpr rfl), if_pos hlen]

/-- A text is read back under the row of the operation it names. -/
theorem decodeCT_of_decodeText {row : Nat} {req : Bytes} {i : Instr} (h : decodeText req = i)
    (hrow : i.row = row) : decodeCT row req = .ok i := by
  rw [decodeCT, h, if_pos hrow]

/-- The text of a command with arguments free of `/` has its name and arguments as segments 1, 2 and 3. -/
theorem segments_commandText {name : Bytes} {args : List Bytes} (hn : slash ∉ name)
    (ha : ∀ t ∈ args, slash ∉ t) (k : Nat) :
    (splitSlash (commandText name args))[k + 1]? = (name :: args)[k]? := by
  rw [splitSlash_commandText hn ha]
  rfl

/-- A command's text is read back with its arguments (R99 to R105). -/
theorem decodeText_poll : decodeText (commandText (ascii "poll") []) = .poll := by decide

theorem decodeText_resetAll : decodeText (commandText (ascii "reset_all") []) = .resetAll := by decide

theorem decodeText_crossdomain : decodeText (commandText (ascii "crossdomain.xml") []) = .crossdomain := by
  decide

theorem decodeText_o {i : Int} (hi : inInt32 i) (b : Bool) :
    decodeText (commandText (ascii "o") [decInt i, boolText b]) = .o i b := by
  have seg := segments_commandText (name := ascii "o") (args := [decInt i, boolText b]) (by decide)
    (by simp [slash_not_mem_decInt, slash_not_mem_boolText])
  have hp : parseO (splitSlash (commandText (ascii "o") [decInt i, boolText b])) = .ok (.o i b) :=
    parseO_eq_ok.mpr ⟨_, _, i, b, seg 1, seg 2, parseInt_decInt hi, parseBool_eq_ok.mpr rfl, rfl⟩
  exact decodeText_of_ok ((parseCommand_o (seg 0)).trans hp)

theorem decodeText_md {c : Int} (hc : inInt32 c) (d : Direction) :
    decodeText (commandText (ascii "md") [decInt c, dirText d]) = .md c d := by
  have seg := segments_commandText (name := ascii "md") (args := [decInt c, dirText d]) (by decide)
    (by simp [slash_not_mem_decInt, slash_not_mem_dirText])
  have hp : parseMd (splitSlash (commandText (ascii "md") [decInt c, dirText d])) = .ok (.md c d) :=
    parseMd_eq_ok.mpr ⟨_, _, c, seg 1, seg 2, parseInt_decInt hc, by rw [parseDir_dirText]⟩
  exact decodeText_of_ok ((parseCommand_md (seg 0)).trans hp)

theorem decodeText_mp {c p : Int} (hc : inInt32 c) (hp : inInt32 p) :
    decodeText (commandText (ascii "mp") [decInt c, decInt p]) = .mp c p := by
  have seg := segments_commandText (name := ascii "mp") (args := [decInt c, decInt p]) (by decide)
    (by simp [slash_not_mem_decInt])
  have hq : parseMp (splitSlash (commandText (ascii "mp") [decInt c, decInt p])) = .ok (.mp c p) :=
    parseMp_eq_ok.mpr ⟨_, _, c, p, seg 1, seg 2, parseInt_decInt hc, parseInt_decInt hp, rfl⟩
  exact decodeText_of_ok ((parseCommand_mp (seg 0)).trans hq)

/-! ### The word -/

/-- An event word's first byte chooses the operand decoder of the operation's row. -/
theorem decode_encode (g : Cfg) (i : Instr) :
    decode g (encode g i) = decodeOperands g i.row (encodeOperands g i) := by
  have hrow : (BitVec.ofNat 8 i.row).toNat = i.row := by cases i <;> rfl
  rw [encode, decode, hrow]

/-- Settles O45: the operand decoder of each row undoes the row's operand encoder. -/
theorem decodeOfEncodeIsTheOperation : Obligations.DecodeOfEncodeIsTheOperation := by
  intro g i hi
  rw [decode_encode]
  cases i with
  | busWrite reg v => exact if_pos rfl
  | busRead reg => exact if_pos rfl
  | init r =>
    show decodeInit [encodeInitResult r] = _
    rw [decodeInit, decodeInitResult_encodeInitResult]
  | rmw f =>
    show decodeRmw (encodeByteFn f) = _
    rw [decodeRmw, decodeByteFn_encodeByteFn]
  | drive c d | setDirection c d =>
    show decodeChannelDirection _ [encodeChannel c, encodeDirection d] = _
    rw [decodeChannelDirection, decodeChannel_encodeChannel, decodeDirection_encodeDirection]
  | setPower c p =>
    show decodeSetPower (encodeChannel c :: decInt p) = _
    rw [decodeSetPower, decodeChannel_encodeChannel, parseIntAny_decInt]
  | encodeResponse p => exact decodeFO_responseFrame (of_decide_eq_true hi)
  | encodeRequest p => exact decodeFI_requestFrame (of_decide_eq_true hi)
  | serialExchange p => exact if_pos (of_decide_eq_true hi)
  | poll => exact decodeCT_of_decodeText decodeText_poll rfl
  | o k b => exact decodeCT_of_decodeText (decodeText_o (of_decide_eq_true hi) b) rfl
  | resetAll => exact decodeCT_of_decodeText decodeText_resetAll rfl
  | crossdomain => exact decodeCT_of_decodeText decodeText_crossdomain rfl
  | md c d => exact decodeCT_of_decodeText (decodeText_md (of_decide_eq_true hi) d) rfl
  | mp c p =>
    obtain ⟨hc, hp⟩ := of_decide_eq_true hi
    exact decodeCT_of_decodeText (decodeText_mp hc hp) rfl
  | unknown req => exact decodeCT_of_decodeText (of_decide_eq_true hi) rfl
  | isReady | readInputs | readOutputLatch | setBits | clearBits | writeOutputs | irqEdge | measure
  | tick | safeSetClear | stopAll | decodeByte | decodeResponse | dispatch => rfl

/-! ### What each operand decoder answers -/

section
variable {p : Bytes} {i : Instr}

theorem wellFormed_of_decodeBare {j : Instr} (hj : j.wellFormed = true) (h : decodeBare j p = .ok i) :
    i.wellFormed = true := by
  cases p <;> cases h
  exact hj

theorem wellFormed_of_decodeOne {f : Byte → Instr} (hf : ∀ b, (f b).wellFormed = true)
    (h : decodeOne f p = .ok i) : i.wellFormed = true := by
  unfold decodeOne at h
  split at h <;> cases h
  exact hf _

theorem wellFormed_of_decodeBW {g : Cfg} (h : decodeBW g p = .ok i) : i.wellFormed = true := by
  unfold decodeBW at h
  split at h
  · split at h <;> cases h
    rfl
  · cases h

theorem wellFormed_of_decodeBR {g : Cfg} (h : decodeBR g p = .ok i) : i.wellFormed = true := by
  unfold decodeBR at h
  split at h
  · split at h <;> cases h
    rfl
  · cases h

theorem wellFormed_of_decodeInit (h : decodeInit p = .ok i) : i.wellFormed = true := by
  unfold decodeInit at h
  split at h
  · split at h <;> cases h
    rfl
  · cases h

theorem wellFormed_of_decodeRmw (h : decodeRmw p = .ok i) : i.wellFormed = true := by
  unfold decodeRmw at h
  split at h <;> cases h
  rfl

theorem wellFormed_of_decodeChannelDirection {f : Channel → Direction → Instr}
    (hf : ∀ c d, (f c d).wellFormed = true) (h : decodeChannelDirection f p = .ok i) :
    i.wellFormed = true := by
  unfold decodeChannelDirection at h
  split at h
  · split at h <;> cases h
    exact hf _ _
  · cases h

theorem wellFormed_of_decodeSafeSetClear (h : decodeSafeSetClear p = .ok i) : i.wellFormed = true := by
  unfold decodeSafeSetClear at h
  split at h <;> cases h
  rfl

theorem wellFormed_of_decodeSetPower (h : decodeSetPower p = .ok i) : i.wellFormed = true := by
  unfold decodeSetPower at h
  split at h
  · split at h <;> cases h
    rfl
  · cases h

/-- Two bytes count up to 65535 (R97). -/
theorem wellFormed_of_decodeFO (h : decodeFO p = .ok i) : i.wellFormed = true := by
  unfold decodeFO at h
  split at h
  · rename_i hi lo q
    split at h
    · cases h
    · split at h <;> cases h
      rename_i hlen
      have h1 := hi.isLt
      have h2 := lo.isLt
      exact decide_eq_true (by omega)
  · cases h

/-- One byte counts up to 255 (R94). -/
theorem wellFormed_of_decodeFI (h : decodeFI p = .ok i) : i.wellFormed = true := by
  unfold decodeFI at h
  split at h
  · rename_i l q
    split at h
    · cases h
    · split at h <;> cases h
      rename_i hlen
      have h1 := l.isLt
      exact decide_eq_true (by omega)
  · cases h

theorem wellFormed_of_decodeExchange (h : decodeExchange p = .ok i) : i.wellFormed = true := by
  unfold decodeExchange at h
  split at h <;> cases h
  exact decide_eq_true ‹_›

theorem wellFormed_of_decodeCT {row : Nat} (h : decodeCT row p = .ok i) : i.wellFormed = true := by
  unfold decodeCT at h
  split at h <;> cases h
  exact decodeText_wellFormed p

/-- What follows any row byte is read as a well-formed operation of the row, or as none. -/
theorem wellFormed_of_decodeOperands {g : Cfg} {row : Nat} (h : decodeOperands g row p = .ok i) :
    i.wellFormed = true := by
  unfold decodeOperands at h
  split at h
  case h_1 => exact wellFormed_of_decodeBW h
  case h_2 => exact wellFormed_of_decodeBR h
  case h_3 => exact wellFormed_of_decodeInit h
  case h_4 | h_5 | h_6 | h_11 | h_12 | h_13 | h_18 => exact wellFormed_of_decodeBare rfl h
  case h_7 => exact wellFormed_of_decodeRmw h
  case h_8 | h_9 | h_10 | h_19 | h_22 => exact wellFormed_of_decodeOne (fun _ => rfl) h
  case h_14 | h_16 => exact wellFormed_of_decodeChannelDirection (fun _ _ => rfl) h
  case h_15 => exact wellFormed_of_decodeSafeSetClear h
  case h_17 => exact wellFormed_of_decodeSetPower h
  case h_20 => exact wellFormed_of_decodeFO h
  case h_21 => exact wellFormed_of_decodeFI h
  case h_23 => exact wellFormed_of_decodeExchange h
  case h_24 => cases h; rfl
  case h_32 => cases h
  all_goals exact wellFormed_of_decodeCT h

end

/-- Settles O46: each row's operand decoder answers within the row's operand ranges. -/
theorem decodeAnswersWellFormedOnly : Obligations.DecodeAnswersWellFormedOnly := by
  intro g w i h
  cases w with
  | nil => cases h
  | cons r p => exact wellFormed_of_decodeOperands h

/-- Settles O47: fixed texts, each decoded by evaluation. -/
theorem commandTextsDecodeAsTheMapSays : Obligations.CommandTextsDecodeAsTheMapSays := by
  unfold Obligations.CommandTextsDecodeAsTheMapSays
  decide

end Sys2Proof

/-! SUPPORT. Runs of lines: what an agent's steps at a piece of code leave, how such runs compose, and that they do
not depend on what the environment keeps. -/

namespace Sys2Proof.Machine

/-! ### Steps and the environment's fields -/

/-- A function of the state in a step's answer. -/
def onState (φ : State → State) : ThreadOutcome → ThreadOutcome
  | .next (th, s) => .next (th, φ s)
  | .fault e => .fault e
  | .refused r => .refused r

@[simp] theorem onState_next (φ : State → State) (th : Thread) (s : State) :
    onState φ (.next (th, s)) = .next (th, φ s) := rfl

@[simp] theorem onState_proceed (φ : State → State) (hφ : ∀ s, (φ s).time = s.time) (code : List Line)
    (v : Value) (s : State) : onState φ (proceed code v s) = proceed code v (φ s) := by
  simp [proceed, hφ]

/-- The state with other positions, another number for the next caller, another number of steps and another serial
queue: fields that no line reads. -/
def State.reframe (s : State) (ths : List (Nat × Thread)) (k n : Nat) (q : Bytes) : State :=
  { s with threads := ths, nextCmd := k, slice := n, rxq := q }

section
variable (s : State) (ths : List (Nat × Thread)) (k n : Nat) (q : Bytes)

theorem busWrite_reframe (reg v : Byte) :
    (s.reframe ths k n q).busWrite reg v = (s.busWrite reg v).reframe ths k n q := by
  by_cases h : s.drv = .ready
  · rw [busWrite_ready h, busWrite_ready (s := s.reframe ths k n q) h]; rfl
  · rw [busWrite_not_ready h, busWrite_not_ready (s := s.reframe ths k n q) h]

theorem draw_reframe :
    (s.reframe ths k n q).draw = (s.draw.1, s.draw.2.reframe ths k n q) := by
  cases h : s.busIn <;> simp [State.draw, State.reframe, h]

theorem expanderByte_reframe (reg : Byte) : (s.reframe ths k n q).expanderByte reg =
    ((s.expanderByte reg).1, (s.expanderByte reg).2.reframe ths k n q) := by
  cases h : s.chip.answer s.cfg reg with
  | none => simpa [State.expanderByte, State.reframe, h] using draw_reframe s ths k n q
  | some b => simp [State.expanderByte, State.reframe, h]

theorem busRead_reframe (reg : Byte) : (s.reframe ths k n q).busRead reg =
    ((s.busRead reg).1, (s.busRead reg).2.reframe ths k n q) := by
  by_cases h : s.drv = .ready
  · rw [busRead_ready h, busRead_ready (s := s.reframe ths k n q) h, expanderByte_reframe]; rfl
  · rw [busRead_not_ready h, busRead_not_ready (s := s.reframe ths k n q) h]

theorem setChannel_reframe (c : Channel) (r : ChannelRec) :
    (s.reframe ths k n q).setChannel c r = (s.setChannel c r).reframe ths k n q := by
  unfold State.setChannel; split <;> rfl

/-- A line's step does not depend on those fields, and leaves them. -/
theorem runLine_reframe (th : Thread) (l : Line) (rest : List Line) :
    runLine th l rest (s.reframe ths k n q) = onState (·.reframe ths k n q) (runLine th l rest s) := by
  have read := busRead_reframe s ths k n q
  cases l with
  | busWrite reg v => simp only [runLine, busWrite_reframe]; rfl
  | busRead reg | pollInputs | pollLatch | irqFlag | irqCapture =>
    simp only [runLine, State.reframe] at read ⊢
    rw [read]; rfl
  | initChannel c => simp only [runLine, setChannel_reframe]; rfl
  | initDone r => cases r <;> rfl
  | irqGate | pollGate | tickGate =>
    simp only [runLine, show (s.reframe ths k n q).ready = s.ready from rfl]
    split <;> rfl
  | measureGate =>
    simp only [runLine, runMeasureGate, show (s.reframe ths k n q).ready = s.ready from rfl,
      show (s.reframe ths k n q).busy = s.busy from rfl]
    split
    · split <;> rfl
    · rfl
  | measureTrigger =>
    simp only [runLine, show (s.reframe ths k n q).time = s.time from rfl,
      show (s.reframe ths k n q).cfg = s.cfg from rfl]
    split <;> rfl
  | measureTest =>
    simp only [runLine, runMeasureTest, show (s.reframe ths k n q).time = s.time from rfl,
      show (s.reframe ths k n q).sonarT0 = s.sonarT0 from rfl]
    split <;> rfl
  | measureSample =>
    simp only [runLine, runMeasureSample, show (s.reframe ths k n q).cfg = s.cfg from rfl, read,
      show (s.reframe ths k n q).sonarPrev = s.sonarPrev from rfl]
    split <;> rfl
  | setDirection c d | setPower c p =>
    simp only [runLine, State.writeDirection, State.writePower, setChannel_reframe]
    rfl
  | serialReply p =>
    simp only [runLine, runSerialReply]
    split
    · split <;> rfl
    · rfl
  | deliver j =>
    obtain ⟨code, v, t⟩ := th
    cases v <;> rfl
  | _ => rfl

end

/-- The state with other positions, another number for the next caller and another number of steps: fields that
no step of an agent reads. -/
def State.setFrame (s : State) (ths : List (Nat × Thread)) (k n : Nat) : State :=
  s.reframe ths k n s.rxq

theorem runLine_rxq {th th' : Thread} {l : Line} {rest : List Line} {s s' : State}
    (h : runLine th l rest s = .next (th', s')) : s'.rxq = s.rxq := by
  rcases runLine_next h with ⟨-, rfl⟩ | ⟨new, -, hl⟩
  · rfl
  · exact hl.rxq

theorem stepThread_setFrame (a : AgentId) (th : Thread) (s : State) (ths : List (Nat × Thread)) (k n : Nat) :
    stepThread a th (s.setFrame ths k n) = onState (·.setFrame ths k n) (stepThread a th s) := by
  obtain ⟨code, v, t⟩ := th
  cases code with
  | cons l rest =>
    rw [stepThread_line, stepThread_line, State.setFrame, runLine_reframe]
    cases h : runLine ⟨l :: rest, v, t⟩ l rest s with
    | next r => simp [onState, State.setFrame, runLine_rxq (th' := r.1) (s' := r.2) h]
    | fault e => rfl
    | refused r => rfl
  | nil =>
    by_cases ha : a = .serial
    · subst ha
      simp only [stepThread, if_pos, runSerialByte, State.setFrame]
      cases hq : s.rxq with
      | nil => simp [State.reframe, onState, hq]
      | cons b q =>
        simp only [State.reframe]
        split <;> rfl
    · simp [stepThread_idle ha]

/-- A turn's steps do not depend on those fields, and leave them. -/
theorem runThread_setFrame (a : AgentId) (m : Nat) (th : Thread) (s : State) (ths : List (Nat × Thread))
    (k n : Nat) :
    runThread a m th (s.setFrame ths k n) = onState (·.setFrame ths k n) (runThread a m th s) := by
  induction m generalizing th s with
  | zero => rfl
  | succ m ih =>
    simp only [runThread, stepThread_setFrame]
    cases stepThread a th s with
    | next r => exact ih r.1 r.2
    | fault e => rfl
    | refused r => rfl

theorem newCaller_eq_setFrame {s s' : State} (h : SameSetting s s') :
    s'.setFrame s.threads (s.nextCmd + 1) s.slice = s'.newCaller := by
  rw [← h.threads, ← h.nextCmd, ← h.slice]; rfl

theorem setSlice_eq_setFrame {s s' : State} (h : SameSetting s s') (n : Nat) :
    s'.setFrame s.threads s.nextCmd n = { s' with slice := n } := by
  rw [← h.threads, ← h.nextCmd]; rfl

/-- The steps of a new caller are those of the same lines before it had its number. -/
theorem runThread_newCaller {a : AgentId} {n : Nat} {th th' : Thread} {s s' : State}
    (h : runThread a n th s = .next (th', s')) :
    runThread a n th s.newCaller = .next (th', s'.newCaller) := by
  rw [← newCaller_eq_setFrame (.refl s), runThread_setFrame, h, onState_next,
    newCaller_eq_setFrame (runThread_setting h)]

/-- How many steps the turn allows does not change what some steps leave. -/
theorem runThread_setSlice {a : AgentId} {m : Nat} {th th' : Thread} {s s' : State}
    (h : runThread a m th s = .next (th', s')) (n : Nat) :
    runThread a m th { s with slice := n } = .next (th', { s' with slice := n }) := by
  rw [← setSlice_eq_setFrame (.refl s), runThread_setFrame, h, onState_next,
    setSlice_eq_setFrame (runThread_setting h)]

/-! ### Runs -/

/-- A turn's steps, cut in two. -/
theorem runThread_add {a : AgentId} {m : Nat} {th th' : Thread} {s s' : State}
    (h : runThread a m th s = .next (th', s')) (n : Nat) :
    runThread a (m + n) th s = runThread a n th' s' := by
  induction m generalizing th s with
  | zero =>
    simp only [runThread_zero, Host.Outcome.next.injEq, Prod.mk.injEq] at h
    obtain ⟨rfl, rfl⟩ := h
    rw [Nat.zero_add]
  | succ m ih =>
    rw [Nat.succ_add]
    simp only [runThread] at h ⊢
    split at h
    · exact ih h
    · cases h
    · cases h

/-- The lines `code` run through, whoever runs them and whatever comes after them: in at most `k` steps, from the
value `v` and the state `s` to the value `v'` and the state `s'`. -/
def Runs (k : Nat) (code : List Line) (v : Value) (s : State) (v' : Value) (s' : State) : Prop :=
  ∃ j ≤ k, ∀ a rest t, runThread a j ⟨code ++ rest, v, t⟩ s = .next (⟨rest, v', s.time⟩, s')

section
variable {j k : Nat} {c d : List Line} {l : Line} {u v w : Value} {s s' s'' : State}

theorem Runs.setting (h : Runs k c v s w s') : SameSetting s s' := by
  obtain ⟨j, -, h⟩ := h
  exact runThread_setting (h .init [] 0)

theorem Runs.rxq (h : Runs k c v s w s') : s'.rxq = s.rxq := by
  obtain ⟨j, -, h⟩ := h
  refine runThread_keeps (a := .init) (fun _ t => t.rxq = s.rxq) ?_ (h .init [] 0) rfl
  intro code t code' t' ht hstep
  cases hstep with
  | stay => exact ht
  | line rest hl => exact hl.rxq.trans ht
  | exchange ha | byte ha => cases ha

theorem Runs.mono (h : Runs j c v s w s') (hk : j ≤ k) : Runs k c v s w s' := by
  obtain ⟨i, hi, h⟩ := h
  exact ⟨i, hi.trans hk, h⟩

theorem Runs.append (h : Runs j c u s v s') (h' : Runs k d v s' w s'') : Runs (j + k) (c ++ d) u s w s'' := by
  have hs := h.setting
  obtain ⟨i, hi, h⟩ := h
  obtain ⟨i', hi', h'⟩ := h'
  refine ⟨i + i', by omega, fun a rest t => ?_⟩
  rw [List.append_assoc, runThread_add (h a (d ++ rest) t) i', h', hs.time]

/-- A line that adds the lines `c` and those run through. -/
theorem Runs.expand (h : ∀ th rest, th.acc = u → runLine th l rest s = proceed (c ++ rest) v s')
    (ht : s'.time = s.time) (h' : Runs k c v s' w s'') : Runs (k + 1) [l] u s w s'' := by
  obtain ⟨i, hi, h'⟩ := h'
  refine ⟨i + 1, by omega, fun a rest t => ?_⟩
  have hl : stepThread a ⟨l :: rest, u, t⟩ s = .next (⟨c ++ rest, v, s'.time⟩, s') :=
    h ⟨l :: rest, u, t⟩ rest rfl
  rw [List.singleton_append, runThread_succ_next hl, h', ht]

/-- A line that adds none. -/
theorem Runs.line (h : ∀ th rest, th.acc = u → runLine th l rest s = proceed rest w s')
    (ht : s'.time = s.time) : Runs 1 [l] u s w s' := by
  refine ⟨1, le_refl 1, fun a rest t => ?_⟩
  have hl : stepThread a ⟨l :: rest, u, t⟩ s = .next (⟨rest, w, s'.time⟩, s') :=
    h ⟨l :: rest, u, t⟩ rest rfl
  rw [List.singleton_append, runThread_succ_next hl, ht]
  rfl

theorem Runs.newCaller (h : Runs k c v s w s') : Runs k c v s.newCaller w s'.newCaller := by
  obtain ⟨i, hi, h⟩ := h
  exact ⟨i, hi, fun a rest t => runThread_newCaller (h a rest t)⟩

theorem Runs.setSlice (h : Runs k c v s w s') (n : Nat) :
    Runs k c v { s with slice := n } w { s' with slice := n } := by
  obtain ⟨i, hi, h⟩ := h
  exact ⟨i, hi, fun a rest t => runThread_setSlice (h a rest t) n⟩

/-- Lines run through leave an agent that does nothing more idle for the rest of a turn. -/
theorem Runs.runThread_le (h : Runs k c v s w s') {a : AgentId} (ha : a ≠ .serial ∨ s.rxq = []) {n : Nat}
    (hn : k ≤ n) (t : Rat) : runThread a n ⟨c, v, t⟩ s = .next (⟨[], w, s.time⟩, s') := by
  have hq := h.rxq
  obtain ⟨i, hi, h⟩ := h
  obtain ⟨m, rfl⟩ := Nat.exists_eq_add_of_le (hi.trans hn)
  have hrun := h a [] t
  rw [List.append_nil] at hrun
  rw [runThread_add hrun]
  rcases ha with ha | ha
  · exact runThread_idle ha m w s.time s'
  · by_cases hs : a = .serial
    · rw [hs, runThread_serial_empty m w s.time (hq.trans ha)]
    · exact runThread_idle hs m w s.time s'

/-- A turn with room for the whole run ends with the agent idle. -/
theorem Runs.runTurn (h : Runs k c v s w s') {a : AgentId} (ha : a ≠ .serial ∨ s.rxq = [])
    (hk : k ≤ s.slice) (t : Rat) : Machine.runTurn a ⟨c, v, t⟩ s = .next s' := by
  rw [runTurn_of_runThread (h.runThread_le ha hk t)]
  rfl

/-- A new caller's run, and the handing over of what it returned (log entry 15). -/
theorem Runs.launchCaller (h : Runs k c .unit s w s') (hk : k + 1 ≤ s.slice) :
    Machine.launchCaller c s = .next (s'.newCaller.deliver s.nextCmd w) := by
  have hdeliver : Runs 1 [.deliver s.nextCmd] w s'.newCaller .unit (s'.newCaller.deliver s.nextCmd w) :=
    .line (fun th rest hth => by simp [runLine, hth]) (by simp)
  exact (h.newCaller.append hdeliver).runTurn (.inl (by simp)) hk s.time

/-- A caller outside the block is handed the value returned. -/
theorem Runs.returns (h : Runs k c .unit s w s') (hk : k + 1 ≤ s.slice)
    (hw : ∀ t, w ≠ .text t) : Machine.launchCaller c s = .next (s'.returned s.nextCmd w) := by
  rw [h.launchCaller hk, ← h.setting.nextCmd]
  cases w with
  | text t => exact absurd rfl (hw t)
  | _ => rfl

/-- A request's reply string goes out on its reply port. -/
theorem Runs.replies {r : Bytes} (h : Runs k c .unit s (.text r) s') (hk : k + 1 ≤ s.slice) :
    Machine.launchCaller c s = .next (s'.replied s.nextCmd r) := by
  rw [h.launchCaller hk, ← h.setting.nextCmd]
  rfl

end

/-- The value a line gives. -/
theorem runs_give (v w : Value) (s : State) : Runs 1 [.give w] v s w s := .line (fun _ _ _ => rfl) rfl

/-! ### Output changes -/

theorem written_eq_busWrite (s : State) (reg v : Byte) : s.written reg v = s.busWrite reg v := by
  by_cases h : s.drv = .ready
  · rw [busWrite_ready h, State.written, if_pos h]; rfl
  · rw [busWrite_not_ready h, State.written, if_neg h]

/-- A change of `OUT` is nothing, or an atomic step and a bus write (R137, R138). -/
theorem outBecomes_same {s : State} {new : Byte} (h : new = s.out) : s.outBecomes new = s := if_pos h

theorem outBecomes_new {s : State} {new : Byte} (h : new ≠ s.out) :
    s.outBecomes new = (s.rmwAtomic (.const new)).busWrite s.cfg.regOutPort new := by
  rw [State.outBecomes, if_neg h, written_eq_busWrite]
  rfl

section
variable (s : State) (new : Byte)

/-- What every field keeps that an atomic step and a bus write keep. -/
theorem outBecomes_field {α : Type} (f : State → α) (h1 : f (s.rmwAtomic (.const new)) = f s)
    (h2 : ∀ t : State, f (t.busWrite s.cfg.regOutPort new) = f t) : f (s.outBecomes new) = f s := by
  by_cases h : new = s.out
  · rw [outBecomes_same h]
  · rw [outBecomes_new h, h2, h1]

@[simp] theorem outBecomes_out : (s.outBecomes new).out = new := by
  by_cases h : new = s.out
  · rw [outBecomes_same h, h]
  · rw [outBecomes_new h, busWrite_out]; rfl

@[simp] theorem outBecomes_cfg : (s.outBecomes new).cfg = s.cfg :=
  outBecomes_field s new State.cfg rfl fun _ => busWrite_cfg ..
@[simp] theorem outBecomes_drv : (s.outBecomes new).drv = s.drv :=
  outBecomes_field s new State.drv rfl fun _ => busWrite_drv ..
@[simp] theorem outBecomes_ch0 : (s.outBecomes new).ch0 = s.ch0 :=
  outBecomes_field s new State.ch0 rfl fun _ => busWrite_ch0 ..
@[simp] theorem outBecomes_ch1 : (s.outBecomes new).ch1 = s.ch1 :=
  outBecomes_field s new State.ch1 rfl fun _ => busWrite_ch1 ..
@[simp] theorem outBecomes_tick : (s.outBecomes new).tick = s.tick :=
  outBecomes_field s new State.tick rfl fun _ => busWrite_tick ..
@[simp] theorem outBecomes_time : (s.outBecomes new).time = s.time :=
  outBecomes_field s new State.time rfl fun _ => busWrite_time ..
@[simp] theorem outBecomes_threads : (s.outBecomes new).threads = s.threads :=
  outBecomes_field s new State.threads rfl fun _ => busWrite_threads ..
@[simp] theorem outBecomes_events : (s.outBecomes new).events = s.events :=
  outBecomes_field s new State.events rfl fun _ => busWrite_events ..
@[simp] theorem outBecomes_busIn : (s.outBecomes new).busIn = s.busIn :=
  outBecomes_field s new State.busIn rfl fun _ => busWrite_busIn ..
@[simp] theorem outBecomes_sonarState : (s.outBecomes new).sonarState = s.sonarState :=
  outBecomes_field s new State.sonarState rfl fun _ => busWrite_sonarState ..
@[simp] theorem outBecomes_slice : (s.outBecomes new).slice = s.slice :=
  outBecomes_field s new State.slice rfl fun _ => busWrite_slice ..

end

theorem rmwWhole_eq (s : State) (f : ByteFn) : rmwWhole s f = s.outBecomes (applyByteFn f s.out) := by
  unfold rmwWhole
  split
  · rw [outBecomes_same ‹_›]
  · rw [outBecomes_new ‹_›]; rfl

/-- An `RMW` run through (R137, R138). -/
theorem runs_rmw (f : ByteFn) (v : Value) (s : State) : Runs 2 [.rmw f] v s
    (.pair s.out (applyByteFn f s.out)) (s.outBecomes (applyByteFn f s.out)) := by
  refine ⟨rmwSteps s f, rmwSteps_le s f, fun a rest t => ?_⟩
  have h := runThread_rmw a 0 f rest v t s
  rwa [Nat.zero_add, rmwWhole_eq] at h

/-- The clear, then the set (R184). -/
theorem runs_safeSetClear (set clear : Byte) (v : Value) (s : State) :
    Runs 4 (codeSafeSetClear set clear) v s
      (.pair (s.out &&& ~~~ clear) ((s.out &&& ~~~ clear) ||| set))
      ((s.outBecomes (s.out &&& ~~~ clear)).outBecomes ((s.out &&& ~~~ clear) ||| set)) := by
  have h1 := runs_rmw (.andNotMask clear) v s
  have h2 := runs_rmw (.orMask set) (.pair s.out (s.out &&& ~~~ clear)) (s.outBecomes (s.out &&& ~~~ clear))
  simp only [applyByteFn, outBecomes_out] at h1 h2
  exact h1.append h2

/-- A driving (R183). -/
theorem runs_drive (c : Channel) (d : Direction) (v : Value) (s : State) : Runs 4 (codeDrive s.cfg c d) v s
    (.pair (s.out &&& ~~~ driveClear s.cfg c d) ((s.out &&& ~~~ driveClear s.cfg c d) ||| driveSet s.cfg c d))
    (s.driven c d) :=
  runs_safeSetClear _ _ v s

end Sys2Proof.Machine

/-! SUPPORT. RegisterBus and IoExpanderDriver: what their operations leave. -/

namespace Sys2Proof.Machine

/-! ### The expander -/

theorem regOutLatch_mem_regs (g : Cfg) : g.regOutLatch ∈ g.regs := List.mem_cons_self

theorem regOutPort_mem_regs (g : Cfg) : g.regOutPort ∈ g.regs := by simp [Cfg.regs, Cfg.mainRegs]

theorem take_of_mem {h : Chip} {g : Cfg} {reg : Byte} (hr : reg ∈ g.regs) (v : Byte) :
    h.take g reg v = { h with cells := h.cells.write reg.toNat v } := if_pos hr

theorem take_of_not_mem {h : Chip} {g : Cfg} {reg : Byte} (hr : reg ∉ g.regs) (v : Byte) :
    h.take g reg v = h := if_neg hr

/-- A write leaves every other register's byte (R62). -/
theorem read_take_other (h : Chip) (g : Cfg) {reg : Byte} {a : Nat} (ha : a ≠ reg.toNat) (v : Byte) :
    (h.take g reg v).cells.read a = h.cells.read a := by
  by_cases hr : reg ∈ g.regs
  · rw [take_of_mem hr]; exact memory_read_write_other h.cells ha v
  · rw [take_of_not_mem hr]

/-- Settles O3: the read-after-write laws of the expander's bytes, on either side of the ten addresses. -/
theorem expanderKeepsEveryOtherRegister : Obligations.ExpanderKeepsEveryOtherRegister := by
  intro h g reg v
  refine ⟨fun hr => ?_, fun hr => take_of_not_mem hr v, fun a ha => read_take_other h g ha v,
    chip_take_conforming h g reg v, ?_⟩
  · rw [take_of_mem hr]; exact memory_read_write_same h.cells reg.toNat v
  · simp only [Cfg.regs, Cfg.mainRegs, List.mem_cons, List.not_mem_nil, or_false]
    tauto

/-- When the block determines no byte, a read draws the environment's (R66). -/
theorem expanderByte_of_answer_none {s : State} {reg : Byte} (h : s.chip.answer s.cfg reg = none) :
    s.expanderByte reg = s.draw := by
  rw [State.expanderByte, h]

theorem expanderByte_of_answer_some {s : State} {reg b : Byte} (h : s.chip.answer s.cfg reg = some b) :
    s.expanderByte reg = (b, s) := by
  rw [State.expanderByte, h]

theorem draw_of_cons {s : State} {b : Byte} {bs : Bytes} (h : s.busIn = b :: bs) :
    s.draw = (b, { s with busIn := bs }) := by
  rw [State.draw, h]

theorem draw_of_nil {s : State} (h : s.busIn = []) :
    s.draw = (Config.freeByte s.draws, { s with draws := s.draws + 1 }) := by
  rw [State.draw, h]

theorem answer_of_not_conforming {h : Chip} (hc : h.conforming = false) (g : Cfg) (reg : Byte) :
    h.answer g reg = none := by
  simp [Chip.answer, hc]

/-- The registers whose byte is the environment's (R64, R65, R61). -/
theorem answer_none {h : Chip} {g : Cfg} {reg : Byte}
    (hr : h.conforming = false ∨
      (reg ≠ g.regOutLatch ∧ (reg = g.regInPort ∨ reg = g.regIntFlag ∨ reg = g.regIntCapture)) ∨
      reg ∉ g.regs) : h.answer g reg = none := by
  rcases hr with hc | ⟨hl, he⟩ | hm
  · exact answer_of_not_conforming hc g reg
  · simp [Chip.answer, hl, he]
  · have hl : reg ≠ g.regOutLatch := fun e => hm (e ▸ regOutLatch_mem_regs g)
    simp [Chip.answer, hl, hm]

/-- Settles O5: the expander's own answer decides whether a byte is drawn. -/
theorem readsDrawFromTheEnvironment : Obligations.ReadsDrawFromTheEnvironment := by
  intro s reg
  refine ⟨fun h => ⟨fun b bs hb => ?_, fun hb => ?_⟩, fun hc hm h1 h2 h3 h4 => ?_⟩
  · rw [expanderByte_of_answer_none (answer_none h), draw_of_cons hb]
  · rw [expanderByte_of_answer_none (answer_none h), draw_of_nil hb]
  · exact expanderByte_of_answer_some (by simp [Chip.answer, hc, hm, h1, h2, h3, h4])

/-- Right after a write of the output port the latch is the byte written (R63). -/
theorem latch_transact_same (s : State) (v : Byte) : (s.transact s.cfg.regOutPort v).latch = v := by
  rw [State.latch, transact_chip, transact_cfg, take_of_mem (regOutPort_mem_regs s.cfg)]
  exact memory_read_write_same _ _ v

theorem latch_transact_other {s : State} {reg : Byte} (h : reg ≠ s.cfg.regOutPort) (v : Byte) :
    (s.transact reg v).latch = s.latch :=
  read_take_other s.chip s.cfg (fun e => h (BitVec.eq_of_toNat_eq e.symm)) v

/-- Several transactions, all at once. -/
theorem foldl_transact (ws : List (Byte × Byte)) (s : State) :
    ws.foldl (fun t w => t.transact w.1 w.2) s =
      { s with
        busTrace := s.busTrace ++ ws.map (fun w => Txn.write w.1 w.2)
        chip := ws.foldl (fun h w => h.take s.cfg w.1 w.2) s.chip } := by
  induction ws generalizing s with
  | nil => simp
  | cons w ws ih =>
    rw [List.foldl_cons, ih]
    simp [State.transact]

/-- Writes to other registers leave the latch (R62). -/
theorem latch_foldl_transact {ws : List (Byte × Byte)} {s : State}
    (h : ∀ w ∈ ws, w.1 ≠ s.cfg.regOutPort) :
    (ws.foldl (fun t w => t.transact w.1 w.2) s).latch = s.latch := by
  induction ws generalizing s with
  | nil => rfl
  | cons w ws ih =>
    rw [List.foldl_cons, ih (s := s.transact w.1 w.2) fun w' hw' => h w' (List.mem_cons_of_mem _ hw'),
      latch_transact_other (h w List.mem_cons_self)]

theorem conforming_foldl_transact (ws : List (Byte × Byte)) (s : State) :
    (ws.foldl (fun t w => t.transact w.1 w.2) s).chip.conforming = s.chip.conforming := by
  induction ws generalizing s with
  | nil => rfl
  | cons w ws ih => rw [List.foldl_cons, ih, transact_chip, chip_take_conforming]

/-- The conforming expander answers a read of the latch with its byte (R63). -/
theorem expanderByte_latch {s : State} (h : s.chip.conforming = true) :
    s.expanderByte s.cfg.regOutLatch = (s.latch, s) :=
  expanderByte_of_answer_some (by simp [Chip.answer, h, State.latch])

/-- Settles O6: the latch is the byte of the last port write, and the other writes leave it. -/
theorem latchReadReturnsLastPortWrite : Obligations.LatchReadReturnsLastPortWrite := by
  intro s v ws _ hc hne
  have hcfg : (ws.foldl (fun t w => t.transact w.1 w.2) (s.transact s.cfg.regOutPort v)).cfg = s.cfg := by
    rw [foldl_transact]; rfl
  have hconf := (conforming_foldl_transact ws (s.transact s.cfg.regOutPort v)).trans
    ((chip_take_conforming s.chip s.cfg s.cfg.regOutPort v).trans hc)
  have hread := expanderByte_latch hconf
  rwa [hcfg, latch_foldl_transact (s := s.transact s.cfg.regOutPort v) hne, latch_transact_same] at hread

/-! ### The bus -/

theorem runs_busWrite (reg v : Byte) (u : Value) (s : State) :
    Runs 1 [.busWrite reg v] u s u (s.busWrite reg v) :=
  .line (fun th rest h => by rw [runLine, h]) (busWrite_time ..)

theorem runs_busRead (reg : Byte) (u : Value) (s : State) :
    Runs 1 [.busRead reg] u s (.byte (s.busRead reg).1) (s.busRead reg).2 :=
  .line (fun _ _ _ => rfl) (busRead_time ..)

/-- Settles O2: one step, gated or, at a line of `INIT`, not. -/
theorem busWriteIsOneGatedTransaction : Obligations.BusWriteIsOneGatedTransaction := by
  intro reg v s
  refine ⟨fun hs => ?_, fun rest x t => rfl, rfl⟩
  have h := (runs_busWrite reg v .unit s).returns hs (by simp)
  refine h.trans ?_
  by_cases hd : s.drv = .ready
  · rw [busWrite_ready hd, if_pos hd]; rfl
  · rw [busWrite_not_ready hd, if_neg hd]

/-- Settles O4: one step that returns the expander's byte, or 0x00. -/
theorem busReadIsOneGatedTransaction : Obligations.BusReadIsOneGatedTransaction := by
  intro reg s hs
  refine ⟨?_, fun b => rfl⟩
  have h := (runs_busRead reg .unit s).returns hs (by simp)
  refine h.trans ?_
  by_cases hd : s.drv = .ready
  · rw [busRead_ready hd, if_pos hd]
  · rw [busRead_not_ready hd, if_neg hd]

/-- Settles O9: each is one step, the reads gated as `BUS_READ` is. -/
theorem statusAndPortReadsReturnTheirValue : Obligations.StatusAndPortReadsReturnTheirValue := by
  intro s hs
  have hready : Runs 1 codeIsReady .unit s (.bool s.ready) s := .line (fun _ _ _ => rfl) rfl
  have hin := (runs_busRead s.cfg.regInPort .unit s).returns hs (by simp)
  have hlatch := (runs_busRead s.cfg.regOutLatch .unit s).returns hs (by simp)
  refine ⟨hready.returns hs (by simp), fun hd => ⟨hin.trans ?_, hlatch.trans ?_⟩,
    fun hd => ⟨hin.trans ?_, hlatch.trans ?_⟩⟩
  · rw [busRead_ready hd]
  · rw [busRead_ready hd]
  · rw [busRead_not_ready hd]
  · rw [busRead_not_ready hd]

/-! ### `INIT` -/

/-- The configuration writes, then the end of `INIT`. -/
theorem runs_initWrites (ws : List (Byte × Byte)) (r : InitResult) (v : Value) (s : State) :
    Runs (ws.length + 1) (ws.map (fun w => Line.initWrite w.1 w.2) ++ [.initDone r]) v s v
      ((ws.foldl (fun t w => t.transact w.1 w.2) s).finishInit r) := by
  induction ws generalizing s with
  | nil => exact .line (fun th rest h => by rw [runLine, h]; rfl) (finishInit_time ..)
  | cons w ws ih =>
    have hw : Runs 1 [.initWrite w.1 w.2] v s v (s.transact w.1 w.2) :=
      .line (fun th rest h => by rw [runLine, h]) rfl
    have h := hw.append (ih (s.transact w.1 w.2))
    rw [Nat.add_comm] at h
    exact h

/-- `INIT` run through, for any `init_result` (R133, R134). -/
theorem exec_init {s : State} (r : InitResult) (hd : s.drv = .uninit) (hi : s.initStarted = false)
    (hs : 10 ≤ s.slice) :
    exec (.init r) s = .next (({ s with
      initStarted := true
      out := 0
      ch0 := ChannelRec.reset
      ch1 := ChannelRec.reset
      busTrace := s.busTrace ++ (initDone s.cfg r).map (fun w => Txn.write w.1 w.2)
      chip := (initDone s.cfg r).foldl (fun h w => h.take s.cfg w.1 w.2) s.chip } : State).finishInit r) := by
  have hout : Runs 1 [.initOut] .unit s.startInit .unit s.startInit.resetOut :=
    .line (fun th rest h => by rw [runLine, h]) rfl
  have hch : ∀ (c : Channel) (t : State), Runs 1 [.initChannel c] .unit t .unit
      (t.setChannel c ChannelRec.reset) :=
    fun c t => .line (fun th rest h => by rw [runLine, h]) (setChannel_time ..)
  have hrun := ((hout.append (hch 0 _)).append (hch 1 _)).append
    (runs_initWrites (initDone s.cfg r) r .unit
      ((s.startInit.resetOut.setChannel 0 ChannelRec.reset).setChannel 1 ChannelRec.reset))
  have hlen : (initDone s.cfg r).length ≤ 6 := by
    simp [initDone, initWrites]
  have hexec : exec (.init r) s = launch .init (codeInit s.cfg r) s.startInit := if_pos ⟨hd, hi⟩
  have hcode : codeInit s.cfg r = (([.initOut] ++ [.initChannel 0]) ++ [.initChannel 1]) ++
      ((initDone s.cfg r).map (fun w => Line.initWrite w.1 w.2) ++ [.initDone r]) := by
    simp [codeInit, initDone]
  have hturn := hrun.runTurn (a := .init) (.inl (by simp))
    (le_trans (by omega : 1 + 1 + 1 + ((initDone s.cfg r).length + 1) ≤ 10) hs) s.startInit.time
  rw [foldl_transact] at hturn
  rw [hexec, launch, hcode, hturn]
  rfl

/-- Settles O7. -/
theorem initSuccessConfiguresAndBecomesReady : Obligations.InitSuccessConfiguresAndBecomesReady := by
  intro s hd hi hs
  exact exec_init .ok hd hi hs

/-- Settles O8. -/
theorem initFailureStopsAfterItsWrites : Obligations.InitFailureStopsAfterItsWrites := by
  intro s k hd hi hs
  exact exec_init (.fail k) hd hi hs

/-! ### `RMW` -/

/-- `RMW(f)` called from outside (R137, R138). -/
theorem exec_rmw (f : ByteFn) {s : State} (hs : 3 ≤ s.slice) :
    launchCaller (codeRmw f) s = .next ((s.outBecomes (applyByteFn f s.out)).returned s.nextCmd
      (.pair s.out (applyByteFn f s.out))) :=
  (runs_rmw f .unit s).returns hs (by simp)

/-- Every function from bytes to bytes is the table of its values. -/
theorem exists_byteFn (f : Byte → Byte) : ∃ c, ∀ v, applyByteFn c v = f v := by
  refine ⟨.table (Vector.ofFn fun i : Fin 256 => f (BitVec.ofNat 8 i.val)), fun v => ?_⟩
  simp [applyByteFn]

/-- Settles O10. -/
theorem rmwWritesOnlyAChange : Obligations.RmwWritesOnlyAChange :=
  ⟨fun f _ hs => exec_rmw f hs, fun _ _ => ⟨rfl, rfl, rfl⟩, fun _ _ => rfl, exists_byteFn⟩

/-- Settles O11: the three are the `RMW` of their function. -/
theorem outputOperationsAreRmws : Obligations.OutputOperationsAreRmws :=
  fun m _ hs => ⟨exec_rmw (.orMask m) hs, exec_rmw (.andNotMask m) hs, exec_rmw (.const m) hs⟩

/-- Settles O12: the one step leaves the new caller at its bus write. -/
theorem rmwBusWriteIsASeparateStep : Obligations.RmwBusWriteIsASeparateStep := by
  intro f s hs hf
  have hrun : runThread (.cmd s.nextCmd) s.newCaller.slice
      ⟨codeRmw f ++ [.deliver s.nextCmd], .unit, s.time⟩ s.newCaller =
      .next (⟨[.busWrite s.cfg.regOutPort (applyByteFn f s.out), .deliver s.nextCmd],
        .pair s.out (applyByteFn f s.out), s.time⟩, s.newCaller.rmwAtomic f) := by
    simp [hs, codeRmw, runLine, runRmw, proceed, hf]
  exact runTurn_of_runThread hrun

/-- A change of `OUT` with the driver Ready leaves the latch equal to `OUT`, if it was (R82). -/
theorem latch_outBecomes {s : State} (hd : s.drv = .ready) (h : s.latch = s.out) (new : Byte) :
    (s.outBecomes new).latch = new := by
  by_cases hn : new = s.out
  · rw [outBecomes_same hn, h, hn]
  · have hd' : (s.rmwAtomic (.const new)).drv = .ready := hd
    rw [outBecomes_new hn, busWrite_ready hd']
    exact latch_transact_same (s.rmwAtomic (.const new)) new

/-- Settles O14. -/
theorem latchFollowsShadowOfOneAgent : Obligations.LatchFollowsShadowOfOneAgent := by
  intro f s t hs hd _ hl h
  obtain rfl := Host.Outcome.next.inj ((exec_rmw f hs).symm.trans h)
  show (s.outBecomes _).latch = (s.outBecomes _).out
  rw [latch_outBecomes hd hl, outBecomes_out]

/-! ### Two agents -/

/-- An agent in mid-operation, let go on for one step, takes its next line. -/
theorem resume_one {a : AgentId} {s s' : State} {l : Line} {rest : List Line} {v : Value} {t : Rat}
    {th : Thread} (hs : s.slice = 1) (hg : Assoc.get s.threads a.key = some ⟨l :: rest, v, t⟩)
    (hl : runLine ⟨l :: rest, v, t⟩ l rest (s.takeUp a) = .next (th, s')) :
    resume a s = .next (s'.park a th) := by
  have hth : s.thread a = ⟨l :: rest, v, t⟩ := by simp [State.thread, hg]
  have hsl : (s.takeUp a).slice = 1 := hs
  rw [resume_eq, hth]
  exact runTurn_of_runThread (by rw [hsl, runThread_line, hl]; rfl)

/-- Keeping one agent's position leaves the others' where they are. -/
theorem get_park_other {a b : AgentId} (h : a ≠ b) (s : State) (th : Thread) :
    Assoc.get (s.park a th).threads b.key = Assoc.get s.threads b.key := by
  unfold State.park
  split
  · rfl
  · exact assoc_get_put_other _ (fun e => h (key_injective e.symm)) _

/-- A pending write of the output port, let go on. -/
theorem resume_busWrite {a : AgentId} {s : State} {v : Byte} {rest : List Line} {x : Value} {t : Rat}
    (hd : s.drv = .ready) (hs : s.slice = 1)
    (hg : Assoc.get s.threads a.key = some ⟨.busWrite s.cfg.regOutPort v :: rest, x, t⟩) :
    ∃ th, resume a s = .next (((s.takeUp a).transact s.cfg.regOutPort v).park a th) := by
  have hd' : (s.takeUp a).drv = .ready := hd
  exact ⟨_, resume_one hs hg (by rw [runLine, busWrite_ready hd']; rfl)⟩

/-- Settles O13: each write is its agent's next step, and the latch holds the one that comes last. -/
theorem pendingWritesLandInEitherOrder : Obligations.PendingWritesLandInEitherOrder := by
  intro s j k vj vk cj ck aj ak tj tk hd hs hjk hj hk
  obtain ⟨thj, h1⟩ := resume_busWrite hd hs hj
  have hk1 : Assoc.get (((s.takeUp j).transact s.cfg.regOutPort vj).park j thj).threads k.key =
      some ⟨.busWrite s.cfg.regOutPort vk :: ck, ak, tk⟩ := by
    rw [get_park_other hjk, ← hk]
    exact assoc_get_erase_other _ fun e => hjk (key_injective e.symm)
  generalize hu : ((s.takeUp j).transact s.cfg.regOutPort vj).park j thj = u at h1 hk1
  have hcfg : u.cfg = s.cfg := by rw [← hu]; simp
  have hout : u.out = s.out := by rw [← hu]; simp
  have htrace : u.busTrace = s.busTrace ++ [.write s.cfg.regOutPort vj] := by rw [← hu]; simp
  have hdu : u.drv = .ready := by rw [← hu]; simpa using hd
  have hsu : u.slice = 1 := by rw [← hu]; simpa using hs
  obtain ⟨thk, h2⟩ := resume_busWrite hdu hsu (hcfg.symm ▸ hk1)
  refine ⟨u, _, h1, h2, by simpa using hout, ?_, by simp [htrace, hcfg]⟩
  simp only [State.latch, park_chip, park_cfg]
  exact latch_transact_same (u.takeUp k) vk

/-! ### Interrupts -/

theorem running_of_same_threads {s t : State} (h : t.threads = s.threads) (a : AgentId) :
    t.running a = s.running a := by
  rw [State.running, State.running, h]

/-- An idle agent that is handed an operation starts it from its first line. -/
theorem continueWith_idle {a : AgentId} {s : State} (h : s.running a = false) (code : List Line) :
    continueWith a code s = runTurn a ⟨code, .unit, 0⟩ s := by
  rw [continueWith, thread_of_not_running h, takeUp_of_not_running h]
  rfl

/-- The handler's lines when Ready (R141). -/
theorem runs_irq_ready {s : State} (hd : s.drv = .ready) (v : Value) :
    Runs 4 codeIrqEdge v s v
      (((s.busRead s.cfg.regIntFlag).2.busRead s.cfg.regIntCapture).2.emit
        (.ioChange (s.busRead s.cfg.regIntFlag).1
          ((s.busRead s.cfg.regIntFlag).2.busRead s.cfg.regIntCapture).1)) := by
  have hemit : ∀ (e : Event) (t : State), Runs 1 [.emit e] v t v (t.emit e) :=
    fun e t => .line (fun th rest h => by rw [runLine, h]) rfl
  refine .expand (c := [.irqFlag]) (v := v) (s' := s) (fun th rest h => ?_) rfl ?_
  · rw [runLine, if_pos ((ready_iff s).mpr hd), h]; rfl
  refine .expand (c := [.irqCapture (s.busRead s.cfg.regIntFlag).1]) (v := v)
    (s' := (s.busRead s.cfg.regIntFlag).2) (fun th rest h => ?_) (busRead_time ..) ?_
  · rw [runLine, h]; rfl
  refine .expand (fun th rest h => ?_) (busRead_time ..) (hemit _ _)
  rw [runLine, h, busRead_cfg]; rfl

theorem tooEarly_eq_false {s : State}
    (h : s.lastIrq = none ∨ ∃ t, s.lastIrq = some t ∧ t + 50 ≤ s.time) : tooEarly s = false := by
  rcases h with h | ⟨t, h, ht⟩
  · simp [tooEarly, h]
  · rw [tooEarly, h]
    exact decide_eq_false (not_lt.mpr ht)

/-- Settles O15. -/
theorem irqEdgeReportsTheStatusRegisters : Obligations.IrqEdgeReportsTheStatusRegisters := by
  intro s hacc hrun hs
  have hexec : exec .irqEdge s = runTurn .irq ⟨codeIrqEdge, .unit, 0⟩ s.acceptEdge := by
    rw [← continueWith_idle (s := s.acceptEdge) hrun]
    exact if_neg (by simp [tooEarly_eq_false hacc])
  refine ⟨fun hd => hexec.trans ?_, fun hd => hexec.trans ?_⟩
  · exact (runs_irq_ready (s := s.acceptEdge) hd .unit).runTurn (.inl (by simp)) hs 0
  · have hclosed : Runs 1 codeIrqEdge .unit s.acceptEdge .unit s.acceptEdge :=
      .line (fun th rest h => by
        rw [runLine, if_neg (mt (ready_iff s.acceptEdge).mp hd), h]) rfl
    exact hclosed.runTurn (.inl (by simp)) (le_trans (by omega) hs) 0

end Sys2Proof.Machine

/-! SUPPORT. MotorPwmScheduler's drivings and ticks, the events that are refused or do nothing, and the schedule. -/

namespace Sys2Proof.Machine

/-! ### Refused events, and events that do nothing -/

theorem tooEarly_eq_true {s : State} {t : Rat} (h : s.lastIrq = some t) (ht : s.time < t + 50) :
    tooEarly s = true := by
  rw [tooEarly, h]
  exact decide_eq_true ht

theorem exec_measure_idle {s : State} (h : s.running .sonar = false) :
    exec .measure s = runTurn .sonar ⟨codeMeasure, .unit, s.time⟩ s := if_neg (by simp [h])

theorem exec_tick_idle {s : State} (h : s.running .tick = false) :
    exec .tick s = runTurn .tick ⟨codeTick, .unit, s.time⟩ s := if_neg (by simp [h])

/-- A measurement outstanding by `SONAR.state` is refused at the gate (R161). -/
theorem runTurn_measure_busy {s : State} (hd : s.drv = .ready) (hb : s.sonarState ≠ .idle)
    (hs : 1 ≤ s.slice) (t : Rat) :
    runTurn .sonar ⟨codeMeasure, .unit, t⟩ s = .refused .measureWhileBusy := by
  obtain ⟨n, hn⟩ := Nat.exists_eq_add_of_le' hs
  have hgate : runMeasureGate [] .unit s = .refused .measureWhileBusy := by
    rw [runMeasureGate, if_pos ((ready_iff s).mpr hd), if_pos ((busy_iff s).mpr hb)]
  rw [runTurn, hn, codeMeasure, runThread_line, runLine, hgate]

/-- Settles O16. -/
theorem forbiddenEventsAreRefused : Obligations.ForbiddenEventsAreRefused := by
  intro s r t
  refine ⟨fun h => if_neg ?_, fun hl ht => if_pos (tooEarly_eq_true hl ht), fun h => if_pos h,
    fun hd hb hs => ?_, fun h => if_pos h⟩
  · rintro ⟨hd, hi⟩
    rcases h with h | h
    · exact h hd
    · simp [hi] at h
  · cases hr : s.running .sonar with
    | true => exact if_pos hr
    | false => rw [exec_measure_idle hr, runTurn_measure_busy hd hb hs]

/-- Settles O17: both gates are closed, and each operation ends there. -/
theorem periodicEventsDoNothingUnlessReady : Obligations.PeriodicEventsDoNothingUnlessReady := by
  intro s hd hs
  have hgate : s.ready = false := by simp [State.ready, hd]
  have hmeasure : Runs 1 codeMeasure .unit s .unit s :=
    .line (fun th rest h => by simp [runLine, runMeasureGate, hgate, h]) rfl
  have htick : Runs 1 codeTick .unit s .unit s :=
    .line (fun th rest h => by simp [runLine, hgate, h]) rfl
  refine ⟨fun hr => ?_, fun hr => ?_⟩
  · rw [exec_measure_idle hr, hmeasure.runTurn (.inl (by simp)) hs]
  · rw [exec_tick_idle hr, htick.runTurn (.inl (by simp)) hs]

/-! ### Drivings -/

section
variable (s : State) (c : Channel) (d : Direction)

@[simp] theorem driven_cfg : (s.driven c d).cfg = s.cfg := by simp [State.driven]
@[simp] theorem driven_drv : (s.driven c d).drv = s.drv := by simp [State.driven]
@[simp] theorem driven_ch0 : (s.driven c d).ch0 = s.ch0 := by simp [State.driven]
@[simp] theorem driven_ch1 : (s.driven c d).ch1 = s.ch1 := by simp [State.driven]
@[simp] theorem driven_tick : (s.driven c d).tick = s.tick := by simp [State.driven]
@[simp] theorem driven_out :
    (s.driven c d).out = (s.out &&& ~~~ driveClear s.cfg c d) ||| driveSet s.cfg c d := by
  simp [State.driven]

end

/-- Settles O27: the channel's bits by the drive table, and no others in its masks. -/
theorem driveSetsThePinPair : Obligations.DriveSetsThePinPair := by
  intro s c d hw
  refine ⟨?_, ?_, fun i hf hb => ?_⟩
  · rw [driven_out, bitOf_or, bitOf_andNot, bitOf_driveClear_fwd hw, bitOf_driveSet_fwd hw]
    cases d <;> simp
  · rw [driven_out, bitOf_or, bitOf_andNot, bitOf_driveClear_back hw, bitOf_driveSet_back hw]
    cases d <;> simp
  · rw [driven_out, bitOf_or, bitOf_andNot, bitOf_driveClear_other _ c d hf hb,
      bitOf_driveSet_other _ c d hf hb]
    simp

/-- Settles O28. -/
theorem safeSetClearClearsBeforeItSets : Obligations.SafeSetClearClearsBeforeItSets := by
  intro s set clear c d hs
  exact ⟨((runs_safeSetClear set clear .unit s).append (runs_give _ .unit _)).returns hs (by simp),
    ((runs_drive c d .unit s).append (runs_give _ .unit _)).returns hs (by simp)⟩

/-! ### The setters -/

theorem runs_setDirection (c : Channel) (d : Direction) (v : Value) (s : State) :
    Runs 1 (codeSetDirection c d) v s v (s.writeDirection c d) :=
  .line (fun th rest h => by rw [runLine, h]) (writeDirection_time ..)

theorem runs_setPower (c : Channel) (p : Int) (v : Value) (s : State) :
    Runs 1 (codeSetPower c p) v s v (s.writePower c p) :=
  .line (fun th rest h => by rw [runLine, h]) (writePower_time ..)

theorem runs_stopAll (v : Value) (s : State) :
    Runs 2 codeStopAll v s v ((s.writeDirection 0 .stopped).writeDirection 1 .stopped) :=
  (runs_setDirection 0 .stopped v s).append (runs_setDirection 1 .stopped v _)

/-- Settles O29. -/
theorem settersChangeTheChannelOnly : Obligations.SettersChangeTheChannelOnly := by
  intro s d p hs
  have hs2 : 1 + 1 ≤ s.slice := by omega
  exact ⟨(runs_setDirection 0 d .unit s).returns hs2 (by simp),
    (runs_setDirection 1 d .unit s).returns hs2 (by simp),
    (runs_setPower 0 p .unit s).returns hs2 (by simp),
    (runs_setPower 1 p .unit s).returns hs2 (by simp),
    (runs_stopAll .unit s).returns hs (by simp)⟩

/-! ### Ticks -/

/-- One channel of a tick (R180 to R183). -/
theorem runs_tickChannel (t : Nat) (c : Channel) (v : Value) (s : State) :
    ∃ w, Runs 5 [.tickChannel t c] v s w (s.driven c ((s.channel c).target t)) :=
  ⟨_, .expand (fun th rest h => by rw [runLine, h]) rfl
    (runs_drive c ((s.channel c).target t) v s)⟩

/-- A whole tick when Ready: both channels by one counter value, then the count (R180). -/
theorem runs_tick {s : State} (hd : s.drv = .ready) (v : Value) :
    ∃ w, Runs 12 codeTick v s w
      (((s.driven 0 (s.ch0.target s.tick)).driven 1 (s.ch1.target s.tick)).setTick (s.tick + 1)) := by
  obtain ⟨w0, h0⟩ := runs_tickChannel s.tick 0 v s
  obtain ⟨w1, h1⟩ := runs_tickChannel s.tick 1 w0 (s.driven 0 (s.ch0.target s.tick))
  rw [show (s.driven 0 (s.ch0.target s.tick)).channel 1 = s.ch1 from driven_ch1 ..] at h1
  have hend : ∀ u : State, Runs 1 [.tickEnd s.tick] w1 u w1 (u.setTick (s.tick + 1)) :=
    fun u => .line (fun th rest h => by rw [runLine, h]) rfl
  refine ⟨w1, .expand (fun th rest h => ?_) rfl ((h0.append h1).append (hend _))⟩
  rw [runLine, if_pos ((ready_iff s).mpr hd), h]
  rfl

/-- Settles O26. -/
theorem tickDrivesBothChannels : Obligations.TickDrivesBothChannels := by
  intro s hd hr hs
  obtain ⟨w, h⟩ := runs_tick hd .unit
  rw [exec_tick_idle hr, h.runTurn (.inl (by simp)) hs]
  rfl

/-! ### Full power -/

/-- Channel 0 stands at Forward and full power, its forward bit set and its back bit clear, under the configuration
`g`. -/
structure FullForward (g : Cfg) (s : State) : Prop where
  cfg : s.cfg = g
  ch0 : s.ch0 = ⟨.forward, 5, 0⟩
  fwd : bitOf s.out g.fwdBit0 = true
  back : bitOf s.out g.backBit0 = false

/-- A byte function that leaves the bits of channel 0 so. -/
def SparesForward (g : Cfg) (f : ByteFn) : Prop :=
  ∀ v, bitOf v g.fwdBit0 = true → bitOf v g.backBit0 = false →
    bitOf (applyByteFn f v) g.fwdBit0 = true ∧ bitOf (applyByteFn f v) g.backBit0 = false

/-- A line of a tick that changes no output by itself. -/
def Line.keepsOut : Line → Bool
  | .busWrite _ _ | .tickGate | .tickChannel _ _ | .tickEnd _ => true
  | _ => false

/-- A line of a tick that leaves the bits of channel 0 so. -/
def Line.SparesForward (g : Cfg) (l : Line) : Prop :=
  l.keepsOut = true ∨ ∃ f, l = .rmw f ∧ Machine.SparesForward g f

theorem sparesForward_of_all {g : Cfg} {code : List Line} (h : code.all Line.keepsOut = true) :
    ∀ l ∈ code, l.SparesForward g :=
  fun l hl => .inl (List.all_eq_true.mp h l hl)

/-- At full power no tick is an off tick (R181, R192). -/
theorem target_fullPower (t : Nat) : (⟨.forward, 5, 0⟩ : ChannelRec).target t = .forward := by
  simp [ChannelRec.target]

/-- A driving of channel 0 forward, or of channel 1, spares the bits of channel 0. -/
theorem codeDrive_sparesForward {g : Cfg} (hw : g.wf = true) {c : Channel} {d : Direction}
    (h : c = 0 → d = .forward) : ∀ l ∈ codeDrive g c d, l.SparesForward g := by
  have hforward : ¬ (0 = c ∧ d ≠ .forward) := fun ⟨hc, hd⟩ => hd (h hc.symm)
  have hreverse : ¬ (0 = c ∧ d = .reverse) := by
    rintro ⟨hc, rfl⟩
    cases h hc.symm
  have hclear : bitOf (driveClear g c d) g.fwdBit0 = false :=
    (bitOf_driveClear_fwd hw c 0 d).trans (decide_eq_false hforward)
  have hset : bitOf (driveSet g c d) g.backBit0 = false :=
    (bitOf_driveSet_back hw c 0 d).trans (decide_eq_false hreverse)
  intro l hl
  simp only [codeDrive, codeSafeSetClear, codeClearBits, codeSetBits, codeRmw, List.cons_append,
    List.nil_append, List.mem_cons, List.not_mem_nil, or_false] at hl
  rcases hl with rfl | rfl
  · refine .inr ⟨_, rfl, fun v hf hb => ?_⟩
    rw [applyByteFn, bitOf_andNot, bitOf_andNot, hf, hb, hclear]
    exact ⟨rfl, rfl⟩
  · refine .inr ⟨_, rfl, fun v hf hb => ?_⟩
    rw [applyByteFn, bitOf_or, bitOf_or, hf, hb, hset]
    exact ⟨rfl, rfl⟩

/-- A step of a tick leaves channel 0 so. -/
theorem LineStep.fullForward {g : Cfg} {s s' : State} {l : Line} {new : List Line}
    (h : LineStep s l new s') (hw : g.wf = true) (hl : l.SparesForward g) (hs : FullForward g s) :
    FullForward g s' ∧ ∀ l' ∈ new, l'.SparesForward g := by
  rcases hl with hl | ⟨f, rfl, hf⟩
  · cases h with
    | busWrite => exact ⟨⟨by simpa using hs.cfg, by simpa using hs.ch0, by simpa using hs.fwd,
        by simpa using hs.back⟩, sparesForward_of_all rfl⟩
    | tickGate | tickGateClosed => exact ⟨hs, sparesForward_of_all rfl⟩
    | tickEnd => exact ⟨⟨hs.cfg, hs.ch0, hs.fwd, hs.back⟩, sparesForward_of_all rfl⟩
    | tickChannel t c =>
      refine ⟨hs, hs.cfg ▸ codeDrive_sparesForward (hs.cfg ▸ hw) ?_⟩
      rintro rfl
      rw [show s.channel 0 = s.ch0 from rfl, hs.ch0, target_fullPower]
    | _ => cases hl
  · obtain ⟨hfwd, hback⟩ := hf s.out hs.fwd hs.back
    cases h with
    | rmw => exact ⟨⟨hs.cfg, hs.ch0, hfwd, hback⟩, sparesForward_of_all rfl⟩
    | rmwSame => exact ⟨hs, sparesForward_of_all rfl⟩

/-- The first steps of a turn whose steps all answer answer too. -/
theorem runThread_first {a : AgentId} {m n : Nat} {th th' : Thread} {s s' : State}
    (h : runThread a (m + n) th s = .next (th', s')) :
    ∃ th1 s1, runThread a m th s = .next (th1, s1) := by
  induction m generalizing th s with
  | zero => exact ⟨th, s, rfl⟩
  | succ m ih =>
    rw [Nat.succ_add] at h
    simp only [runThread] at h ⊢
    split at h
    · exact ih h
    · cases h
    · cases h

/-- After any number of its steps a tick leaves channel 0 so. -/
theorem runThread_tick_fullForward {g : Cfg} {n : Nat} {th : Thread} {s u : State}
    (h : runThread .tick n ⟨codeTick, .unit, s.time⟩ s = .next (th, u)) (hw : g.wf = true)
    (hs : FullForward g s) : FullForward g u := by
  refine (runThread_keeps (fun code u => FullForward g u ∧ ∀ l ∈ code, l.SparesForward g) ?_ h
    ⟨hs, sparesForward_of_all rfl⟩).1
  rintro code u code' u' ⟨hu, hl⟩ hstep
  cases hstep with
  | stay => exact ⟨hu, hl⟩
  | line rest hstep =>
    obtain ⟨hu', hnew⟩ := hstep.fullForward hw (hl _ List.mem_cons_self) hu
    refine ⟨hu', fun l' hl' => ?_⟩
    rcases List.mem_append.mp hl' with hl' | hl'
    · exact hnew l' hl'
    · exact hl l' (List.mem_cons_of_mem _ hl')
  | exchange ha | byte ha => cases ha

/-- Driving forward a channel that stands so changes and writes nothing (R192). -/
theorem driven_forward_same {s : State} {c : Channel} (hf : bitOf s.out (s.cfg.fwdBit c) = true)
    (hb : bitOf s.out (s.cfg.backBit c) = false) : s.driven c .forward = s := by
  have hclear : s.out &&& ~~~ driveClear s.cfg c .forward = s.out := by
    refine byte_ext fun i => ?_
    by_cases hi : i = s.cfg.backBit c
    · simp [hi, hb]
    · simp [driveClear, bitOf_mask, hi]
  have hset : s.out ||| driveSet s.cfg c .forward = s.out := by
    refine byte_ext fun i => ?_
    by_cases hi : i = s.cfg.fwdBit c
    · simp [hi, hf]
    · simp [driveSet, bitOf_mask, hi]
  rw [State.driven, hclear, hset, outBecomes_same rfl, outBecomes_same rfl]

/-- Settles O32: what a tick ends with by the drive table, and every step before by the lines it has to run. -/
theorem fullPowerKeepsTheForwardBit : Obligations.FullPowerKeepsTheForwardBit := by
  intro s hw hd hr hs hch
  obtain ⟨w, hrun⟩ := runs_tick hd .unit
  refine ⟨?_, fun hf hb => ⟨driven_forward_same hf hb, fun n => ?_⟩⟩
  · have h0 := driveSetsThePinPair s 0 (s.ch0.target s.tick) hw
    obtain ⟨hf, hb, -⟩ := h0
    obtain ⟨-, -, hother⟩ := driveSetsThePinPair (s.driven 0 (s.ch0.target s.tick)) 1
      (s.ch1.target s.tick) (by rw [driven_cfg]; exact hw)
    rw [driven_cfg] at hother
    have h01 : (0 : Channel) ≠ 1 := by decide
    refine ⟨_, (exec_tick_idle hr).trans (hrun.runTurn (.inl (by simp)) hs _), ?_, ?_⟩
    · rw [setTick_out]
      refine (hother (s.cfg.fwdBit 0) (mt (fwdBit_eq_iff hw 1 0).mp h01)
        (fwdBit_ne_backBit hw 1 0)).trans (hf.trans ?_)
      rw [hch, target_fullPower]
      rfl
    · rw [setTick_out]
      refine (hother (s.cfg.backBit 0) (fwdBit_ne_backBit hw 0 1).symm
        (mt (backBit_eq_iff hw 1 0).mp h01)).trans (hb.trans ?_)
      rw [hch, target_fullPower]
      rfl
  · have hall := hrun.runThread_le (a := .tick) (.inl (by simp)) (n := n + 12) (by omega) s.time
    obtain ⟨th, u, hn⟩ := runThread_first hall
    have hu := runThread_tick_fullForward hn hw ⟨rfl, hch, hf, hb⟩
    exact ⟨th, u, hn, hu.fwd, hu.back⟩

/-! ### The schedule -/

/-- Settles O48. -/
theorem stepRunsTheScheduledTurn : Obligations.StepRunsTheScheduledTurn := by
  intro s t rest hw
  have hwf : ¬ s.cfg.wf = false := by simp [hw]
  refine ⟨fun ht => by simp [step, hw, ht], fun ht htime => ?_⟩
  have hback : ¬ s.backwards t = true := by simpa [State.backwards] using htime
  refine ⟨fun w i hact hdec => ?_, fun a hact => ?_⟩
  · simp only [step, if_neg hwf, ht, if_neg hback, hact, hdec]
    rfl
  · simp only [step, if_neg hwf, ht, if_neg hback, hact]
    rfl

/-- What `wf` says, condition by condition (R44). -/
theorem cfg_wf_iff (g : Cfg) : g.wf = true ↔
    g.ownedBits.Pairwise (· ≠ ·) ∧ (∀ b ∈ g.ownedBits, b ≠ 1 ∧ b ≠ 2) ∧ g.devaddrW ≠ g.devaddrR ∧
    g.mainRegs.Pairwise (· ≠ ·) ∧
    (∀ r ∈ g.mainRegs, r ≠ g.regOutPort → g.regOutLatch ≠ r) ∧ 0 < g.tTrig := by
  have hbits : (∀ b ∈ g.ownedBits, b ≠ 1 ∧ b ≠ 2) ↔ (1 : Fin 8) ∉ g.ownedBits ∧ (2 : Fin 8) ∉ g.ownedBits :=
    ⟨fun h => ⟨fun h1 => (h 1 h1).1 rfl, fun h2 => (h 2 h2).2 rfl⟩,
      fun h b hb => ⟨fun e => h.1 (e ▸ hb), fun e => h.2 (e ▸ hb)⟩⟩
  have hlatch : (∀ r ∈ g.mainRegs, r ≠ g.regOutPort → g.regOutLatch ≠ r) ↔
      (g.regOutLatch = g.regOutPort ∨ g.regOutLatch ∉ g.mainRegs) := by
    constructor
    · intro h
      by_cases he : g.regOutLatch = g.regOutPort
      · exact .inl he
      · exact .inr fun hm => h _ hm he rfl
    · rintro (h | h) r hr hne he
      · exact hne (he ▸ h)
      · exact h (he ▸ hr)
  rw [hbits, hlatch, Cfg.wf, decide_eq_true_eq]
  exact ⟨fun ⟨h1, h2, h3, h4, h5, h6, h7⟩ => ⟨h1, ⟨h2, h3⟩, h4, h5, h6, h7⟩,
    fun ⟨h1, ⟨h2, h3⟩, h4, h5, h6, h7⟩ => ⟨h1, h2, h3, h4, h5, h6, h7⟩⟩

/-- The registers whose addresses differ from the output port's, once the nine differ pairwise. -/
theorem mainRegs_ne_port {g : Cfg} (h : g.mainRegs.Pairwise (· ≠ ·)) (r : Byte) :
    (r ∈ g.mainRegs ∧ r ≠ g.regOutPort) ↔
      r ∈ [g.regCfg, g.regDirOut, g.regDirIn, g.regPullupIn, g.regIntenIn, g.regInPort, g.regIntFlag,
        g.regIntCapture] := by
  simp only [Cfg.mainRegs, List.pairwise_cons, List.mem_cons, List.not_mem_nil, or_false] at h ⊢
  grind

/-- Settles O50. -/
theorem brokenRunsAreRefused : Obligations.BrokenRunsAreRefused := by
  refine ⟨fun s t rest => ⟨fun hw => if_pos hw, fun hw ht htime => ?_⟩, fun g => ?_⟩
  · have hback : s.backwards t = true := by simpa [State.backwards] using htime
    simp [step, hw, ht, hback]
  · rw [cfg_wf_iff]
    have hport : g.mainRegs.Pairwise (· ≠ ·) →
        ((∀ r ∈ g.mainRegs, r ≠ g.regOutPort → g.regOutLatch ≠ r) ↔
          ∀ r ∈ [g.regCfg, g.regDirOut, g.regDirIn, g.regPullupIn, g.regIntenIn, g.regInPort, g.regIntFlag,
            g.regIntCapture], g.regOutLatch ≠ r) := by
      intro h
      refine forall_congr' fun r => ?_
      rw [← mainRegs_ne_port h r, and_imp]
    constructor
    · rintro ⟨h1, h2, h3, h4, h5, h6⟩
      exact ⟨h1, h2, h3, h4, (hport h4).mp h5, h6⟩
    · rintro ⟨h1, h2, h3, h4, h5, h6⟩
      exact ⟨h1, h2, h3, h4, (hport h4).mpr h5, h6⟩

/-- Settles O1. -/
theorem resetLeavesTheListedValues : Obligations.ResetLeavesTheListedValues := by
  intro g
  refine ⟨rfl, rfl, rfl, rfl, rfl, rfl, rfl, rfl, rfl, rfl, rfl, rfl, rfl, rfl, fun a => ?_⟩
  show (Memory.powerOn g).read a = _
  rw [powerOn_eq]
  by_cases hin : a = g.regDirIn.toNat
  · rw [hin, memory_read_write_same, if_pos (.inr rfl)]
  · rw [memory_read_write_other _ hin]
    by_cases hout : a = g.regDirOut.toNat
    · rw [hout, memory_read_write_same, if_pos (.inl rfl)]
    · rw [memory_read_write_other _ hout, if_neg (by simp [hin, hout])]
      rfl

/-- Settles O52: with no agent in mid-operation and nothing written, only the configuration and the schedule have
something to meet. -/
theorem resetSatisfiesTheInvariants : Obligations.ResetSatisfiesTheInvariants := by
  intro g turns hw hturns
  have hout : Exclusive g 0 := fun c => by simp
  have none_running : ∀ {P : Nat × Thread → Prop}, ∀ p ∈ (State.resetWith g).threads, P p :=
    fun p hp => absurd hp List.not_mem_nil
  exact ⟨⟨hw, hout, fun v hv => absurd hv List.not_mem_nil, none_running, hturns⟩,
    ⟨dutyOk_reset, dutyOk_reset⟩, ⟨Nat.zero_le _, none_running⟩, rfl,
    ⟨List.Pairwise.nil, none_running, powerOn_wf g⟩, none_running, none_running, none_running⟩

/-! ### Turns of one agent -/

theorem setSlice_park (s : State) (a : AgentId) (th : Thread) (n : Nat) :
    { s.park a th with slice := n } = ({ s with slice := n } : State).park a th := by
  unfold State.park
  split <;> rfl

/-- An agent with nothing to run goes the same way whatever value and time it has left: it stays, or, `A_SERIAL`,
takes a byte. -/
theorem runTurn_idle_irrel (a : AgentId) (v w : Value) (t u : Rat) (s : State) :
    runTurn a ⟨[], v, t⟩ s = runTurn a ⟨[], w, u⟩ s := by
  by_cases ha : a = .serial
  · subst ha
    cases hq : s.rxq with
    | nil =>
      rw [runTurn_of_runThread (runThread_serial_empty s.slice v t hq),
        runTurn_of_runThread (runThread_serial_empty s.slice w u hq)]
      rfl
    | cons b q =>
      have hstep : stepThread .serial ⟨[], v, t⟩ s = stepThread .serial ⟨[], w, u⟩ s := by
        simp [stepThread, runSerialByte, hq]
      cases hn : s.slice with
      | zero => rw [runTurn, runTurn, hn]; rfl
      | succ n => rw [runTurn, runTurn, hn, runThread, runThread, hstep]
  · rw [runTurn_of_runThread (runThread_idle ha s.slice v t s),
      runTurn_of_runThread (runThread_idle ha s.slice w u s)]
    rfl

/-- Letting an agent go on whose position was just kept is going on from that position. -/
theorem resume_park {a : AgentId} {s : State} (h : s.running a = false) (th : Thread) :
    resume a (s.park a th) = runTurn a th s := by
  obtain ⟨code, v, t⟩ := th
  cases code with
  | nil =>
    rw [park_done, resume_eq, thread_of_not_running h, takeUp_of_not_running h]
    exact runTurn_idle_irrel ..
  | cons l rest =>
    have hg : Assoc.get s.threads a.key = none := by simpa [State.running] using h
    rw [resume_eq, park_more, State.takeUp, State.thread]
    simp only [assoc_get_put_same, assoc_erase_put hg, Option.getD_some]

/-- Settles O49: the steps of the second turn go on from the position the first one left. -/
theorem turnsOfOneAgentCompose : Obligations.TurnsOfOneAgentCompose := by
  intro a th s t u n m hr h1 h2
  obtain ⟨th1, s1, hrun1, rfl⟩ := runTurn_next h1
  have hr1 : ({ s1 with slice := m } : State).running a = false :=
    (running_of_same_threads (runThread_setting hrun1).threads a).trans hr
  rw [setSlice_park, resume_park hr1] at h2
  obtain ⟨th2, s2, hrun2, rfl⟩ := runTurn_next h2
  have first : runThread a n th { s with slice := n + m } = .next (th1, { s1 with slice := n + m }) :=
    runThread_setSlice hrun1 (n + m)
  have second : runThread a m th1 { s1 with slice := n + m } = .next (th2, { s2 with slice := n + m }) :=
    runThread_setSlice hrun2 (n + m)
  rw [setSlice_park]
  exact runTurn_of_runThread ((runThread_add first m).trans second)

end Sys2Proof.Machine

/-! SUPPORT. CommandDispatcher: the bytes of the replies, what each command leaves, and the dispatch of a request. -/

namespace Sys2Proof.Machine

/-! ### The bytes of the texts -/

theorem ascii_poll : ascii "poll" = [0x70, 0x6F, 0x6C, 0x6C] := by decide

theorem ascii_resetAll : ascii "reset_all" = [0x72, 0x65, 0x73, 0x65, 0x74, 0x5F, 0x61, 0x6C, 0x6C] := by
  decide

theorem ascii_crossdomain : ascii "crossdomain.xml" =
    [0x63, 0x72, 0x6F, 0x73, 0x73, 0x64, 0x6F, 0x6D, 0x61, 0x69, 0x6E, 0x2E, 0x78, 0x6D, 0x6C] := by
  decide

theorem ascii_o : ascii "o" = [0x6F] := by decide

theorem ascii_md : ascii "md" = [0x6D, 0x64] := by decide

theorem ascii_mp : ascii "mp" = [0x6D, 0x70] := by decide

theorem replyOkay_bytes : replyOkay = [0x6F, 0x6B, 0x61, 0x79, 0x0A] := by decide

theorem errInvalidBit_bytes : errInvalidBit =
    [0x5F, 0x70, 0x72, 0x6F, 0x62, 0x6C, 0x65, 0x6D, 0x20, 0x69, 0x6E, 0x76, 0x61, 0x6C, 0x69, 0x64, 0x20,
      0x62, 0x69, 0x74] := by decide

theorem errInvalidMotor_bytes : errInvalidMotor =
    [0x5F, 0x70, 0x72, 0x6F, 0x62, 0x6C, 0x65, 0x6D, 0x3A, 0x20, 0x69, 0x6E, 0x76, 0x61, 0x6C, 0x69, 0x64,
      0x20, 0x6D, 0x6F, 0x74, 0x6F, 0x72, 0x20, 0x69, 0x64, 0x0A] := by decide

theorem errNotConnected_bytes : errNotConnected =
    [0x5F, 0x70, 0x72, 0x6F, 0x62, 0x6C, 0x65, 0x6D, 0x20, 0x54, 0x68, 0x65, 0x20, 0x44, 0x69, 0x67, 0x69,
      0x74, 0x61, 0x6C, 0x20, 0x32, 0x20, 0x50, 0x69, 0x66, 0x61, 0x63, 0x65, 0x20, 0x69, 0x73, 0x20, 0x6E,
      0x6F, 0x74, 0x20, 0x63, 0x6F, 0x6E, 0x6E, 0x65, 0x63, 0x74, 0x65, 0x64, 0x2E, 0x0A] := by decide

theorem errUnknown_bytes (req : Bytes) : errUnknown req =
    [0x5F, 0x70, 0x72, 0x6F, 0x62, 0x6C, 0x65, 0x6D, 0x20, 0x75, 0x6E, 0x6B, 0x6E, 0x6F, 0x77, 0x6E, 0x20,
      0x63, 0x6F, 0x6D, 0x6D, 0x61, 0x6E, 0x64, 0x3A, 0x20] ++ req ++ [0x0A] := by
  have h : ascii "_problem unknown command: " =
      [0x5F, 0x70, 0x72, 0x6F, 0x62, 0x6C, 0x65, 0x6D, 0x20, 0x75, 0x6E, 0x6B, 0x6E, 0x6F, 0x77, 0x6E, 0x20,
        0x63, 0x6F, 0x6D, 0x6D, 0x61, 0x6E, 0x64, 0x3A, 0x20] := by decide
  rw [errUnknown, h]

theorem xdomain_bytes (port : Nat) : xdomain port =
    [0x3C, 0x63, 0x72, 0x6F, 0x73, 0x73, 0x2D, 0x64, 0x6F, 0x6D, 0x61, 0x69, 0x6E, 0x2D, 0x70, 0x6F, 0x6C,
      0x69, 0x63, 0x79, 0x3E, 0x3C, 0x61, 0x6C, 0x6C, 0x6F, 0x77, 0x2D, 0x61, 0x63, 0x63, 0x65, 0x73, 0x73,
      0x2D, 0x66, 0x72, 0x6F, 0x6D, 0x20, 0x64, 0x6F, 0x6D, 0x61, 0x69, 0x6E, 0x3D, 0x22, 0x2A, 0x22, 0x20,
      0x74, 0x6F, 0x2D, 0x70, 0x6F, 0x72, 0x74, 0x73, 0x3D, 0x22] ++ dec port ++
    [0x22, 0x2F, 0x3E, 0x3C, 0x2F, 0x63, 0x72, 0x6F, 0x73, 0x73, 0x2D, 0x64, 0x6F, 0x6D, 0x61, 0x69, 0x6E,
      0x2D, 0x70, 0x6F, 0x6C, 0x69, 0x63, 0x79, 0x3E, 0x0A] := by
  have h1 : ascii "<cross-domain-policy><allow-access-from domain=\"*\" to-ports=\"" =
      [0x3C, 0x63, 0x72, 0x6F, 0x73, 0x73, 0x2D, 0x64, 0x6F, 0x6D, 0x61, 0x69, 0x6E, 0x2D, 0x70, 0x6F, 0x6C,
        0x69, 0x63, 0x79, 0x3E, 0x3C, 0x61, 0x6C, 0x6C, 0x6F, 0x77, 0x2D, 0x61, 0x63, 0x63, 0x65, 0x73,
        0x73, 0x2D, 0x66, 0x72, 0x6F, 0x6D, 0x20, 0x64, 0x6F, 0x6D, 0x61, 0x69, 0x6E, 0x3D, 0x22, 0x2A,
        0x22, 0x20, 0x74, 0x6F, 0x2D, 0x70, 0x6F, 0x72, 0x74, 0x73, 0x3D, 0x22] := by decide
  have h2 : ascii "\"/></cross-domain-policy>\n" =
      [0x22, 0x2F, 0x3E, 0x3C, 0x2F, 0x63, 0x72, 0x6F, 0x73, 0x73, 0x2D, 0x64, 0x6F, 0x6D, 0x61, 0x69, 0x6E,
        0x2D, 0x70, 0x6F, 0x6C, 0x69, 0x63, 0x79, 0x3E, 0x0A] := by decide
  rw [xdomain, h1, h2]

/-- A line about a pin below 10, byte for byte (R108). -/
theorem pinLine_input {k : Nat} (h : k < 10) (b : Bool) :
    pinLine (ascii "i/") k b = rtLine 0x69 (digit k) b := by
  have h1 : ascii "i/" = [0x69, 0x2F] := by decide
  rw [pinLine, dec_of_lt h, h1]
  cases b <;> rfl

theorem pinLine_output {k : Nat} (h : k < 10) (b : Bool) :
    pinLine (ascii "o/") k b = rtLine 0x6F (digit k) b := by
  have h1 : ascii "o/" = [0x6F, 0x2F] := by decide
  rw [pinLine, dec_of_lt h, h1]
  cases b <;> rfl

/-- The lines of one pin index: its input, and at 1 and 2 the output below it (R108). -/
theorem pollLines_output (i l : Byte) {k : Fin 8} (h : k.val = 1 ∨ k.val = 2) :
    pollLines i l k = rtLine 0x69 (digit k.val) (bitOf i k) ++
      rtLine 0x6F (digit (k.val - 1)) (bitOf l k) := by
  rw [pollLines, if_pos h, pinLine_input (by omega), pinLine_output (by omega)]

theorem pollLines_input (i l : Byte) {k : Fin 8} (h : ¬ (k.val = 1 ∨ k.val = 2)) :
    pollLines i l k = rtLine 0x69 (digit k.val) (bitOf i k) := by
  rw [pollLines, if_neg h, pinLine_input (by omega), List.append_nil]

theorem pollReply_bytes (i l : Byte) (d : Nat) : pollReply i l d =
    rtLine 0x69 0x30 (bitOf i 0) ++ rtLine 0x69 0x31 (bitOf i 1) ++
      rtLine 0x6F 0x30 (bitOf l 1) ++ rtLine 0x69 0x32 (bitOf i 2) ++
      rtLine 0x6F 0x31 (bitOf l 2) ++ rtLine 0x69 0x33 (bitOf i 3) ++
      rtLine 0x69 0x34 (bitOf i 4) ++ rtLine 0x69 0x35 (bitOf i 5) ++
      rtLine 0x69 0x36 (bitOf i 6) ++ [0x64, 0x20] ++ dec d ++ [0x0A] := by
  have hd : ascii "d " = [0x64, 0x20] := by decide
  simp only [pollReply, List.flatMap_cons, List.flatMap_nil, List.append_nil, hd,
    pollLines_input i l (k := 0) (by decide), pollLines_output i l (k := 1) (by decide),
    pollLines_output i l (k := 2) (by decide), pollLines_input i l (k := 3) (by decide),
    pollLines_input i l (k := 4) (by decide), pollLines_input i l (k := 5) (by decide),
    pollLines_input i l (k := 6) (by decide), List.append_assoc]
  rfl

/-! ### How long the replies are -/

theorem length_rtLine_le (kind index : Byte) (b : Bool) : (rtLine kind index b).length ≤ 10 := by
  cases b <;> simp [rtLine]

theorem length_pollReply_le (i l : Byte) {d : Nat} (h : d ≤ 1000) : (pollReply i l d).length ≤ 200 := by
  have hd : (dec d).length ≤ 4 := length_dec_le (k := 3) (by omega)
  have hline := length_rtLine_le
  rw [pollReply_bytes]
  simp only [List.length_append, List.length_cons, List.length_nil]
  have := hline 0x69 0x30 (bitOf i 0)
  have := hline 0x69 0x31 (bitOf i 1)
  have := hline 0x6F 0x30 (bitOf l 1)
  have := hline 0x69 0x32 (bitOf i 2)
  have := hline 0x6F 0x31 (bitOf l 2)
  have := hline 0x69 0x33 (bitOf i 3)
  have := hline 0x69 0x34 (bitOf i 4)
  have := hline 0x69 0x35 (bitOf i 5)
  have := hline 0x69 0x36 (bitOf i 6)
  omega

theorem length_xdomain_le {port : Nat} (h : port < 65536) : (xdomain port).length ≤ 200 := by
  have hd : (dec port).length ≤ 5 := length_dec_le (k := 4) (by omega)
  rw [xdomain_bytes]
  simp only [List.length_append, List.length_cons, List.length_nil]
  omega

theorem length_errUnknown (req : Bytes) : (errUnknown req).length = req.length + 27 := by
  rw [errUnknown_bytes]
  simp only [List.length_append, List.length_cons, List.length_nil]
  omega

/-! ### The commands -/

section
variable (v : Value) (s : State)

theorem runs_poll_ready (hd : s.drv = .ready) : Runs 4 codePoll v s
    (.text (pollReply (s.busRead s.cfg.regInPort).1
      ((s.busRead s.cfg.regInPort).2.busRead s.cfg.regOutLatch).1 s.dist))
    ((s.busRead s.cfg.regInPort).2.busRead s.cfg.regOutLatch).2 := by
  have hreply : ∀ (i l : Byte) (t : State), Runs 1 [.pollReply i l] v t (.text (pollReply i l t.dist)) t :=
    fun _ _ _ => .line (fun _ _ _ => rfl) rfl
  refine .expand (c := [.pollInputs]) (v := v) (s' := s) (fun th rest h => ?_) rfl ?_
  · rw [runLine, if_pos ((ready_iff s).mpr hd), h]; rfl
  refine .expand (c := [.pollLatch (s.busRead s.cfg.regInPort).1]) (v := v)
    (s' := (s.busRead s.cfg.regInPort).2) (fun th rest h => ?_) (busRead_time ..) ?_
  · rw [runLine, h]; rfl
  have hend := hreply (s.busRead s.cfg.regInPort).1
    ((s.busRead s.cfg.regInPort).2.busRead s.cfg.regOutLatch).1
    ((s.busRead s.cfg.regInPort).2.busRead s.cfg.regOutLatch).2
  rw [busRead_dist, busRead_dist] at hend
  refine .expand (fun th rest h => ?_) (busRead_time ..) hend
  rw [runLine, h, busRead_cfg]; rfl

theorem runs_poll_not_ready (hd : s.drv ≠ .ready) : Runs 1 codePoll v s (.text errNotConnected) s :=
  .line (fun _ _ _ => by rw [runLine, if_neg (mt (ready_iff s).mp hd)]) rfl

/-- What `o` makes of a byte at bit `i` (R228). -/
def putBit (i : Fin 8) (b : Bool) (w : Byte) : Byte := if b then w ||| mask i else w &&& ~~~ mask i

theorem runs_o {i : Int} (hi : i = 0 ∨ i = 1) (b : Bool) : Runs 3 (codeO i b) v s (.text replyOkay)
    (s.outBecomes (putBit (outputBit i) b s.out)) := by
  rw [codeO, if_pos hi]
  cases b with
  | true => exact (runs_rmw (.orMask (mask (outputBit i))) v s).append (runs_give _ _ _)
  | false => exact (runs_rmw (.andNotMask (mask (outputBit i))) v s).append (runs_give _ _ _)

theorem runs_o_invalid {i : Int} (h0 : i ≠ 0) (h1 : i ≠ 1) (b : Bool) :
    Runs 1 (codeO i b) v s (.text errInvalidBit) s := by
  rw [codeO, if_neg (by simp [h0, h1])]
  exact runs_give v _ s

theorem runs_resetAll : Runs 3 codeResetAll v s (.text replyOkay)
    ((s.writeDirection 0 .stopped).writeDirection 1 .stopped) :=
  (runs_stopAll v s).append (runs_give v _ _)

theorem runs_md {c : Int} {k : Channel} (hc : motorChannel c = some k) (d : Direction) :
    Runs 2 (codeMd c d) v s (.text replyOkay) (s.writeDirection k d) := by
  rw [codeMd, hc]
  exact (runs_setDirection k d v s).append (runs_give v _ _)

theorem runs_mp {c : Int} {k : Channel} (hc : motorChannel c = some k) (p : Int) :
    Runs 2 (codeMp c p) v s (.text replyOkay) (s.writePower k p) := by
  rw [codeMp, hc]
  exact (runs_setPower k p v s).append (runs_give v _ _)

theorem runs_md_invalid {c : Int} (hc : motorChannel c = none) (d : Direction) :
    Runs 1 (codeMd c d) v s (.text errInvalidMotor) s := by
  rw [codeMd, hc]
  exact runs_give v _ s

theorem runs_mp_invalid {c : Int} (hc : motorChannel c = none) (p : Int) :
    Runs 1 (codeMp c p) v s (.text errInvalidMotor) s := by
  rw [codeMp, hc]
  exact runs_give v _ s

end

theorem motorChannel_none {c : Int} (h0 : c ≠ 0) (h1 : c ≠ 1) : motorChannel c = none := by
  rw [motorChannel, if_neg h0, if_neg h1]

/-- Settles O42. -/
theorem outputCommandDrivesItsBit : Obligations.OutputCommandDrivesItsBit := by
  intro i b s hs
  refine ⟨?_, ?_, fun h0 h1 => ?_, replyOkay_bytes, errInvalidBit_bytes⟩
  · rintro rfl
    exact (runs_o .unit s (.inl rfl) b).replies hs
  · rintro rfl
    exact (runs_o .unit s (.inr rfl) b).replies hs
  · exact (runs_o_invalid .unit s h0 h1 b).replies (by omega)

/-- Settles O43. -/
theorem plainCommandsGiveTheirReply : Obligations.PlainCommandsGiveTheirReply := by
  intro req s hs
  exact ⟨(runs_resetAll .unit s).replies hs, (runs_give .unit _ s).replies (by omega),
    (runs_give .unit _ s).replies (by omega), replyOkay_bytes, xdomain_bytes, errUnknown_bytes req⟩

/-- Settles O44. -/
theorem motorCommandsSetTheirChannel : Obligations.MotorCommandsSetTheirChannel := by
  intro c p d s hs
  have hc0 : motorChannel 0 = some 0 := rfl
  have hc1 : motorChannel 1 = some 1 := rfl
  refine ⟨?_, ?_, fun h0 h1 => ?_, replyOkay_bytes, errInvalidMotor_bytes⟩
  · rintro rfl
    exact ⟨(runs_md .unit s hc0 d).replies hs, (runs_mp .unit s hc0 p).replies hs⟩
  · rintro rfl
    exact ⟨(runs_md .unit s hc1 d).replies hs, (runs_mp .unit s hc1 p).replies hs⟩
  · have hc := motorChannel_none h0 h1
    exact ⟨(runs_md_invalid .unit s hc d).replies (by omega),
      (runs_mp_invalid .unit s hc p).replies (by omega)⟩

/-- Settles O41. -/
theorem pollReportsInputsLatchAndDistance : Obligations.PollReportsInputsLatchAndDistance := by
  refine ⟨fun s hs => ⟨fun hd => (runs_poll_ready .unit s hd).replies hs,
    fun hd => (runs_poll_not_ready .unit s hd).replies (by omega)⟩, pollReply_bytes, fun d => ?_,
    errNotConnected_bytes⟩
  refine ⟨isDigit_of_mem_dec d, decimalValue_dec d, fun h => ?_⟩
  have hd : d = 0 := by
    by_contra hne
    exact head_dec_ne_zero (Nat.pos_of_ne_zero hne) h
  subst hd
  rfl

/-! ### Dispatch -/

/-- Performing a command as an event of its own (R220). -/
theorem exec_instr (req : Bytes) (c : Command) (s : State) :
    exec (c.instr req) s = launchCaller (codeCommand s.cfg req c) s := by
  cases c <;> rfl

theorem codeDispatch_of_ok {req : Bytes} {c : Command} (h : parseCommand req = .ok c) (g : Cfg) :
    codeDispatch g req = codeCommand g req c := by
  rw [codeDispatch, h]

/-- What is left of a command abandoned with a `ParseError` is the generic reply (R222, R271). -/
theorem codeDispatch_of_error {req : Bytes} {e : ParseError} (h : parseCommand req = .error e) (g : Cfg) :
    codeDispatch g req = codeUnknown req := by
  rw [codeDispatch, h]
  rfl

/-- Dispatching a request is performing the command its text decodes to. -/
theorem exec_dispatch (req : Bytes) (s : State) : exec (.dispatch req) s = exec (decodeText req) s := by
  have hdispatch : exec (.dispatch req) s = launchCaller (codeDispatch s.cfg req) s := rfl
  cases h : parseCommand req with
  | ok c => rw [hdispatch, codeDispatch_of_ok h, decodeText_of_ok h, exec_instr]
  | error e => rw [hdispatch, codeDispatch_of_error h, decodeText_of_error h]; rfl

/-- A command's run ends with a reply `r` that can be framed (R211), and has sent nothing itself. -/
structure CommandRun (req : Bytes) (code : List Line) (v : Value) (s : State) (r : Bytes) (s' : State) :
    Prop where
  runs : Runs 4 code v s (.text r) s'
  replies : s'.replies = s.replies
  serialOut : s'.serialOut = s.serialOut
  length_le : s.dist ≤ 1000 → req.length ≤ 255 → r.length ≤ 65535

theorem outBecomes_replies (s : State) (w : Byte) : (s.outBecomes w).replies = s.replies :=
  outBecomes_field s w State.replies rfl fun _ => busWrite_replies ..

theorem outBecomes_serialOut (s : State) (w : Byte) : (s.outBecomes w).serialOut = s.serialOut :=
  outBecomes_field s w State.serialOut rfl fun _ => busWrite_serialOut ..

/-- Every command ends, in at most four steps. -/
theorem command_runs (req : Bytes) (c : Command) (v : Value) (s : State) :
    ∃ r s', CommandRun req (codeCommand s.cfg req c) v s r s' := by
  have okay : replyOkay.length ≤ 65535 := by decide
  have invalid : errInvalidMotor.length ≤ 65535 := by decide
  cases c with
  | poll =>
    by_cases hd : s.drv = .ready
    · exact ⟨_, _, runs_poll_ready v s hd, by simp, by simp,
        fun h _ => (length_pollReply_le _ _ h).trans (by omega)⟩
    · exact ⟨_, _, (runs_poll_not_ready v s hd).mono (by omega), rfl, rfl, fun _ _ => by decide⟩
  | o i b =>
    by_cases hi : i = 0 ∨ i = 1
    · exact ⟨_, _, (runs_o v s hi b).mono (by omega), outBecomes_replies .., outBecomes_serialOut ..,
        fun _ _ => okay⟩
    · rw [not_or] at hi
      exact ⟨_, _, (runs_o_invalid v s hi.1 hi.2 b).mono (by omega), rfl, rfl, fun _ _ => by decide⟩
  | resetAll => exact ⟨_, _, (runs_resetAll v s).mono (by omega), by simp, by simp, fun _ _ => okay⟩
  | crossdomain =>
    exact ⟨_, _, (runs_give v _ s).mono (by omega), rfl, rfl,
      fun _ _ => (length_xdomain_le s.cfg.listenPort.isLt).trans (by omega)⟩
  | md c d =>
    cases hc : motorChannel c with
    | some k => exact ⟨_, _, (runs_md v s hc d).mono (by omega), by simp, by simp, fun _ _ => okay⟩
    | none => exact ⟨_, _, (runs_md_invalid v s hc d).mono (by omega), rfl, rfl, fun _ _ => invalid⟩
  | mp c p =>
    cases hc : motorChannel c with
    | some k =>
      exact ⟨_, _, (runs_mp v s hc p).mono (by omega), by simp [State.writePower], by simp [State.writePower],
        fun _ _ => okay⟩
    | none => exact ⟨_, _, (runs_mp_invalid v s hc p).mono (by omega), rfl, rfl, fun _ _ => invalid⟩
  | unknown =>
    exact ⟨_, _, (runs_give v _ s).mono (by omega), rfl, rfl,
      fun _ h => by rw [length_errUnknown]; omega⟩

/-- Every request's dispatch ends so. -/
theorem dispatch_runs (req : Bytes) (v : Value) (s : State) :
    ∃ r s', CommandRun req (codeDispatch s.cfg req) v s r s' := by
  cases h : parseCommand req with
  | ok c => rw [codeDispatch_of_ok h]; exact command_runs req c v s
  | error e => rw [codeDispatch_of_error h]; exact command_runs req .unknown v s

/-- What a dispatch answers its caller. -/
theorem CommandRun.exec_dispatch {req r : Bytes} {s s' : State}
    (h : CommandRun req (codeDispatch s.cfg req) .unit s r s') (hs : 5 ≤ s.slice) :
    exec (.dispatch req) s = .next (s'.replied s.nextCmd r) :=
  h.runs.replies hs

/-- Settles O39. -/
theorem dispatchAnswersTheDecodedCommand : Obligations.DispatchAnswersTheDecodedCommand := by
  refine ⟨fun req s => ⟨exec_dispatch req s, fun hs => ?_⟩, fun req name hn => ?_, fun req =>
    ⟨fun h => decodeText_of_error (parseCommand_of_none h), fun e h => decodeText_of_error h⟩⟩
  · obtain ⟨r, s', h⟩ := dispatch_runs req .unit s
    refine ⟨_, r, h.exec_dispatch (by omega), ?_, h.runs.setting.threads, rfl⟩
    show s'.replies ++ _ = _
    rw [h.replies]
  · rw [← ascii_poll, ← ascii_resetAll, ← ascii_crossdomain, ← ascii_o, ← ascii_md, ← ascii_mp]
    refine ⟨?_, ?_, ?_, fun x y hx hy => ⟨?_, ?_, ?_⟩, fun h1 h2 h3 h4 h5 h6 => ?_⟩
    · rintro rfl
      exact decodeText_of_ok (parseCommand_poll hn)
    · rintro rfl
      exact decodeText_of_ok (parseCommand_resetAll hn)
    · rintro rfl
      exact decodeText_of_ok (parseCommand_crossdomain hn)
    · rintro i b rfl hi hb
      exact decodeText_of_ok ((parseCommand_o hn).trans
        (parseO_eq_ok.mpr ⟨x, y, i, b, hx, hy, hi, hb, rfl⟩))
    · rintro i rfl hi
      exact decodeText_of_ok ((parseCommand_md hn).trans (parseMd_eq_ok.mpr ⟨x, y, i, hx, hy, hi, rfl⟩))
    · rintro i p rfl hi hp
      exact decodeText_of_ok ((parseCommand_mp hn).trans
        (parseMp_eq_ok.mpr ⟨x, y, i, p, hx, hy, hi, hp, rfl⟩))
    · exact decodeText_of_ok (parseCommand_other hn h1 h2 h3 h4 h5 h6)

/-! ### `ParseError` -/

theorem error_iff_not_ok {ε α : Type} (x : Except ε α) : (∃ e, x = .error e) ↔ ¬ ∃ a, x = .ok a := by
  cases x <;> simp

/-- A request converts when segment 1 is there, and what its arm takes from the others (R100, R223). -/
theorem parseCommand_ok_iff (req : Bytes) : (∃ c, parseCommand req = .ok c) ↔
    ∃ name, (splitSlash req)[1]? = some name ∧
      (name = ascii "o" → ∃ c, parseO (splitSlash req) = .ok c) ∧
      (name = ascii "md" → ∃ c, parseMd (splitSlash req) = .ok c) ∧
      (name = ascii "mp" → ∃ c, parseMp (splitSlash req) = .ok c) := by
  constructor
  · rintro ⟨c, hc⟩
    cases hn : (splitSlash req)[1]? with
    | none => rw [parseCommand_of_none hn] at hc; cases hc
    | some name =>
      refine ⟨name, rfl, ?_, ?_, ?_⟩
      · rintro rfl; exact ⟨c, (parseCommand_o hn).symm.trans hc⟩
      · rintro rfl; exact ⟨c, (parseCommand_md hn).symm.trans hc⟩
      · rintro rfl; exact ⟨c, (parseCommand_mp hn).symm.trans hc⟩
  · rintro ⟨name, hn, ho, hmd, hmp⟩
    rw [parseCommand_of_name hn, commandOfName]
    split
    · exact ⟨_, rfl⟩
    split
    · exact ho ‹_›
    split
    · exact ⟨_, rfl⟩
    split
    · exact ⟨_, rfl⟩
    split
    · exact hmd ‹_›
    split
    · exact hmp ‹_›
    · exact ⟨_, rfl⟩

theorem parseO_ok_iff (segs : List Bytes) : (∃ c, parseO segs = .ok c) ↔
    ∃ x y i b, segs[2]? = some x ∧ segs[3]? = some y ∧ parseInt x = .ok i ∧ parseBool y = .ok b := by
  simp only [parseO_eq_ok]
  exact ⟨fun ⟨_, x, y, i, b, hx, hy, hi, hb, _⟩ => ⟨x, y, i, b, hx, hy, hi, hb⟩,
    fun ⟨x, y, i, b, hx, hy, hi, hb⟩ => ⟨_, x, y, i, b, hx, hy, hi, hb, rfl⟩⟩

theorem parseMd_ok_iff (segs : List Bytes) : (∃ c, parseMd segs = .ok c) ↔
    ∃ x y i, segs[2]? = some x ∧ segs[3]? = some y ∧ parseInt x = .ok i := by
  simp only [parseMd_eq_ok]
  exact ⟨fun ⟨_, x, y, i, hx, hy, hi, _⟩ => ⟨x, y, i, hx, hy, hi⟩,
    fun ⟨x, y, i, hx, hy, hi⟩ => ⟨_, x, y, i, hx, hy, hi, rfl⟩⟩

theorem parseMp_ok_iff (segs : List Bytes) : (∃ c, parseMp segs = .ok c) ↔
    ∃ x y i p, segs[2]? = some x ∧ segs[3]? = some y ∧ parseInt x = .ok i ∧ parseInt y = .ok p := by
  simp only [parseMp_eq_ok]
  exact ⟨fun ⟨_, x, y, i, p, hx, hy, hi, hp, _⟩ => ⟨x, y, i, p, hx, hy, hi, hp⟩,
    fun ⟨x, y, i, p, hx, hy, hi, hp⟩ => ⟨_, x, y, i, p, hx, hy, hi, hp, rfl⟩⟩

/-- Settles O40. -/
theorem parseErrorAnswersUnknown : Obligations.ParseErrorAnswersUnknown := by
  refine ⟨fun req e s h hs => ?_, fun req => ?_, fun req =>
    ⟨splitSlash_ne_nil req, intercalate_splitSlash req, slash_not_mem_segment req⟩, fun t i => ?_,
    fun t b => ?_⟩
  · have hcode : exec (.dispatch req) s = launchCaller (codeUnknown req) s := by
      rw [← codeDispatch_of_error h s.cfg]; rfl
    exact hcode.trans ((runs_give .unit _ s).replies hs)
  · rw [error_iff_not_ok, parseCommand_ok_iff, ascii_o, ascii_md, ascii_mp]
    simp only [parseO_ok_iff, parseMd_ok_iff, parseMp_ok_iff]
  · rw [parseInt_eq_ok, parseIntAny_eq_some]
    simp only [IsNumeral, IsDigit, and_assoc, inInt32]
  · rw [parseBool_eq_ok]
    cases b with
    | true => rw [show boolText true = [0x74, 0x72, 0x75, 0x65] from by decide]; rfl
    | false => rw [show boolText false = [0x66, 0x61, 0x6C, 0x73, 0x65] from by decide]; rfl

end Sys2Proof.Machine

/-! SUPPORT. FramedSerialCodec: frames and decoders, the serial agent's bytes, and its exchanges. -/

namespace Sys2Proof.Machine

/-! ### The inbound decoder -/

theorem feedAll_append (d : DecRegs) (xs ys : Bytes) : feedAll d (xs ++ ys) =
    ((feedAll (feedAll d xs).1 ys).1, (feedAll d xs).2 ++ (feedAll (feedAll d xs).1 ys).2) := by
  induction xs generalizing d with
  | nil => rfl
  | cons x xs ih => simp only [List.cons_append, feedAll, ih, List.append_assoc]

/-- In Hunt every byte but 0xAA is discarded (R201). -/
theorem feedAll_garbage {d : DecRegs} (hd : d.phase = .hunt) {garbage : Bytes}
    (h : Config.frameHeader ∉ garbage) : feedAll d garbage = (d, []) := by
  induction garbage with
  | nil => rfl
  | cons b garbage ih =>
    rw [List.mem_cons, not_or] at h
    have hb : d.feed b = (d, none) := by simp [DecRegs.feed, hd, Ne.symm h.1]
    rw [feedAll, hb, ih h.2]
    rfl

/-- The bytes still wanted complete the payload, and only the last of them does (R201). -/
theorem feedAll_payload {len : Byte} {p : Bytes} (buf : Bytes) (hp : p ≠ [])
    (hlen : buf.length + p.length = len.toNat) :
    feedAll ⟨.payload, len, buf⟩ p = (⟨.hunt, len, []⟩, [buf ++ p]) := by
  induction p generalizing buf with
  | nil => exact absurd rfl hp
  | cons b p ih =>
    rw [List.length_cons] at hlen
    by_cases h : p = []
    · subst h
      have hfull : (buf ++ [b]).length = len.toNat := by simpa using hlen
      rw [feedAll, DecRegs.feed, if_pos hfull]
      rfl
    · have hpos := List.length_pos_of_ne_nil h
      have hmore : ¬ (buf ++ [b]).length = len.toNat := by
        rw [List.length_append, List.length_singleton]; omega
      rw [feedAll, DecRegs.feed, if_neg hmore, ih (buf ++ [b]) h (by
        rw [List.length_append, List.length_singleton]; omega)]
      simp

/-- The frame of a payload delivers it, from Hunt (R209). -/
theorem feedAll_requestFrame {d : DecRegs} (hd : d.phase = .hunt) {p : Bytes} (hp : p.length ≤ 255) :
    feedAll d (requestFrame p) = (⟨.hunt, BitVec.ofNat 8 p.length, []⟩, [p]) := by
  have hheader : d.feed Config.frameHeader = ({ d with phase := .len }, none) := by
    simp [DecRegs.feed, hd]
  rw [requestFrame, feedAll, hheader, feedAll]
  by_cases h : p = []
  · subst h; rfl
  · have hpos := List.length_pos_of_ne_nil h
    have hlen : (BitVec.ofNat 8 p.length).toNat = p.length := by
      rw [BitVec.toNat_ofNat]; omega
    have hne : ¬ BitVec.ofNat 8 p.length = 0 := fun e => by
      rw [e] at hlen
      change 0 = p.length at hlen
      omega
    rw [DecRegs.feed, if_neg hne, feedAll_payload [] h (by simpa using hlen.symm)]
    rfl

/-! ### The peer's decoder -/

theorem peer_foldl_payload {d : PeerRegs} {p : Bytes} (hd : d.phase = .payload) (hp : p ≠ [])
    (hlen : d.buf.length + p.length = d.len) :
    (p.foldl PeerRegs.feed d).delivered = d.delivered ++ [d.buf ++ p] ∧
      (p.foldl PeerRegs.feed d).phase = .hunt := by
  induction p generalizing d with
  | nil => exact absurd rfl hp
  | cons b p ih =>
    rw [List.length_cons] at hlen
    rw [List.foldl_cons]
    by_cases h : p = []
    · subst h
      have hfull : d.buf.length + 1 = d.len := by simpa using hlen
      simp [PeerRegs.feed, hd, hfull]
    · have hpos := List.length_pos_of_ne_nil h
      have hmore : ¬ (d.buf ++ [b]).length = d.len := by
        rw [List.length_append, List.length_singleton]; omega
      have hfeed : d.feed b = { d with buf := d.buf ++ [b] } := by
        rw [PeerRegs.feed, hd]; exact if_neg hmore
      rw [hfeed]
      have := ih (d := { d with buf := d.buf ++ [b] }) hd h (by
        show (d.buf ++ [b]).length + p.length = d.len
        rw [List.length_append, List.length_singleton]; omega)
      simpa using this

theorem peer_foldl_responseFrame {d : PeerRegs} (hd : d.phase = .hunt) {p : Bytes}
    (hp : p.length ≤ 65535) :
    ((responseFrame p).foldl PeerRegs.feed d).delivered = d.delivered ++ [p] ∧
      ((responseFrame p).foldl PeerRegs.feed d).phase = .hunt := by
  have hlen : (BitVec.ofNat 8 (p.length / 256)).toNat * 256 + (BitVec.ofNat 8 (p.length % 256)).toNat =
      p.length := by
    simp only [BitVec.toNat_ofNat]; omega
  have hheader : d.feed Config.frameHeader = { d with phase := .lenHigh } := by
    simp [PeerRegs.feed, hd]
  simp only [responseFrame, List.foldl_cons, hheader]
  generalize BitVec.ofNat 8 (p.length / 256) = hi at hlen ⊢
  generalize BitVec.ofNat 8 (p.length % 256) = lo at hlen ⊢
  by_cases h : p = []
  · subst h
    simp only [PeerRegs.feed, hlen, List.length_nil, if_true, List.foldl_nil, and_self]
  · have hne : ¬ p.length = 0 := by simpa using h
    simp only [PeerRegs.feed, hlen, hne, if_false]
    exact peer_foldl_payload rfl h (by simp)

/-- Settles O35. -/
theorem framesRoundTrip : Obligations.FramesRoundTrip := by
  refine ⟨fun d garbage p hd _ hg hp => ?_, fun d p hd hp => peer_foldl_responseFrame hd hp⟩
  rw [feedAll_append, feedAll_garbage hd hg, feedAll_requestFrame hd hp]
  exact ⟨rfl, rfl, rfl⟩

/-- Settles O37. -/
theorem codecFunctionsReturnTheirFrame : Obligations.CodecFunctionsReturnTheirFrame := by
  refine ⟨fun d b => ⟨fun h => ?_, fun h => ?_, fun h hn => ?_, fun h hn => ?_, fun h hn => ?_,
    fun h hn => ?_⟩, fun p b s hs => ⟨fun hp => ?_, fun hp => ?_, fun hp => ?_, fun hp => ?_, ?_⟩⟩
  · rw [PeerRegs.feed, h]; rfl
  · rw [PeerRegs.feed, h]
  · simp [PeerRegs.feed, h, hn]
  · rw [PeerRegs.feed, h]; exact if_neg hn
  · have hmore : ¬ (d.buf ++ [b]).length = d.len := by simpa using hn
    rw [PeerRegs.feed, h]; exact if_neg hmore
  · simp [PeerRegs.feed, h, hn]
  · exact (if_pos hp).trans ((runs_give .unit _ s).returns hs (by simp))
  · exact if_neg (by omega)
  · exact (if_pos hp).trans ((runs_give .unit _ s).returns hs (by simp))
  · exact if_neg (by omega)
  · have h : Runs 1 (codeDecodeResponse b) .unit s .unit (s.feedPeer b) :=
      .line (fun th rest h => by rw [runLine, h]) rfl
    exact h.returns hs (by simp)

/-! ### The serial agent's bytes -/

theorem exec_decodeByte_idle {s : State} (h : s.running .serial = false) (b : Byte) :
    exec (.decodeByte b) s = runTurn .serial ⟨[], .unit, 0⟩ (s.receive b) :=
  continueWith_idle (s := s.receive b) h []

/-- `A_SERIAL`, idle, takes the head of `RXQ`; the byte delivers nothing (R200, R201). -/
theorem stepThread_serial_byte {s : State} {c : Byte} {q : Bytes} (hq : s.rxq = c :: q)
    (hn : (s.dec.feed c).2 = none) (v : Value) (t : Rat) :
    stepThread .serial ⟨[], v, t⟩ s =
      .next (⟨[], .unit, s.time⟩, s.decoded q (s.dec.feed c).1) := by
  simp only [stepThread, if_pos, runSerialByte, hq, hn]
  rfl

/-- Or it delivers the payload `p`, which is then exchanged (R210). -/
theorem stepThread_serial_exchange {s : State} {c : Byte} {q p : Bytes} (hq : s.rxq = c :: q)
    (hp : (s.dec.feed c).2 = some p) (v : Value) (t : Rat) :
    stepThread .serial ⟨[], v, t⟩ s =
      .next (⟨codeSerialExchange s.cfg p, .unit, s.time⟩, s.decoded q (s.dec.feed c).1) := by
  simp only [stepThread, if_pos, runSerialByte, hq, hp]
  rfl

theorem receive_rxq_of_nil {s : State} (h : s.rxq = []) (b : Byte) : (s.receive b).rxq = [b] := by
  rw [receive_rxq, h, List.nil_append]

/-- The byte just received taken again from the queue. -/
theorem receive_decoded {s : State} (h : s.rxq = []) (b : Byte) (d : DecRegs) :
    (s.receive b).decoded [] d = { s with dec := d } := by
  show ({ s with rxq := [], dec := d } : State) = { s with dec := d }
  rw [← h]

/-- A byte that delivers nothing, `A_SERIAL` idle and nothing queued. -/
theorem exec_decodeByte_none {s : State} {b : Byte} (h : s.running .serial = false) (hq : s.rxq = [])
    (hs : 1 ≤ s.slice) (hn : (s.dec.feed b).2 = none) :
    exec (.decodeByte b) s = .next { s with dec := (s.dec.feed b).1 } := by
  obtain ⟨n, hn'⟩ := Nat.exists_eq_add_of_le' hs
  have hstep := stepThread_serial_byte (s := s.receive b) (receive_rxq_of_nil hq b) hn .unit 0
  have hrun : runThread .serial (s.receive b).slice ⟨[], .unit, 0⟩ (s.receive b) =
      .next (⟨[], .unit, s.time⟩, (s.receive b).decoded [] (s.dec.feed b).1) := by
    rw [receive_slice, hn', runThread_succ_next hstep, runThread_serial_empty]
    · rfl
    · rfl
  rw [exec_decodeByte_idle h, runTurn_of_runThread hrun, park_done, receive_decoded hq]

/-- Settles O33: each is a byte after which the decoder has delivered nothing. -/
theorem decodeByteWithoutDelivery : Obligations.DecodeByteWithoutDelivery := by
  intro b s h hq hs
  have feed : ∀ {d}, s.dec.feed b = (d, none) → exec (.decodeByte b) s = .next { s with dec := d } := by
    intro d hd
    have := exec_decodeByte_none h hq hs (b := b) (by rw [hd])
    rwa [hd] at this
  refine ⟨fun hp hb => feed ?_, fun hp hb => feed (d := s.dec) ?_, fun hp hb => feed ?_,
    fun hp hlen => feed ?_⟩
  · rw [DecRegs.feed, hp]; exact if_pos hb
  · rw [DecRegs.feed, hp]; exact if_neg hb
  · rw [DecRegs.feed, hp]; exact if_neg hb
  · simp [DecRegs.feed, hp, hlen]

/-! ### A byte in mid-exchange -/

/-- Keeping again a position just taken out gives the map back. -/
theorem assoc_put_erase {α : Type} {m : List (Nat × α)} {k : Nat} {v : α} (hw : Assoc.wf m)
    (h : Assoc.get m k = some v) : Assoc.put (Assoc.erase m k) k v = m := by
  induction m with
  | nil => cases h
  | cons p r ih =>
    obtain ⟨k', v'⟩ := p
    simp only [Assoc.wf, List.map_cons, List.pairwise_cons, List.mem_map, forall_exists_index,
      and_imp] at hw ih
    obtain ⟨hlt, hr⟩ := hw
    by_cases hk : k = k'
    · subst hk
      obtain rfl : v' = v := by simpa [Assoc.get] using h
      have habsent : Assoc.get r k = none := by
        by_contra hne
        obtain ⟨w, hw⟩ := Option.ne_none_iff_exists'.mp hne
        exact lt_irrefl k (hlt k _ (assoc_mem_of_get hw) rfl)
      rw [Assoc.erase, if_pos rfl, assoc_erase_absent habsent]
      cases r with
      | nil => rfl
      | cons q r => rw [Assoc.put, if_pos (hlt q.1 q List.mem_cons_self rfl)]
    · have hg : Assoc.get r k = some v := by simpa [Assoc.get, hk] using h
      have hgt : ¬ k < k' := not_lt.mpr (hlt k _ (assoc_mem_of_get hg) rfl).le
      rw [Assoc.erase, if_neg hk, Assoc.put, if_neg hgt, if_neg hk, ih hr hg]

/-- Taking up an agent and keeping it where it stands changes nothing (in the canonical form). -/
theorem park_takeUp {s : State} (hs : s.Canonical) (a : AgentId) :
    (s.takeUp a).park a (s.thread a) = s := by
  cases hr : s.running a with
  | false => rw [thread_of_not_running hr, takeUp_of_not_running hr]; rfl
  | true =>
    obtain ⟨th, hg⟩ := (running_iff s a).mp hr
    have hth : s.thread a = th := by simp [State.thread, hg]
    rw [hth, State.park, if_neg (hs.busy _ (assoc_mem_of_get hg))]
    simp only [State.takeUp, assoc_put_erase hs.threads hg]

/-- A line's step is the same with a byte more waiting. -/
theorem runLine_receive {th th' : Thread} {l : Line} {rest : List Line} {s s' : State}
    (h : runLine th l rest s = .next (th', s')) (b : Byte) :
    runLine th l rest (s.receive b) = .next (th', s'.receive b) := by
  have hreceive : ∀ {t : State}, SameSetting s t → t.rxq = s.rxq →
      t.reframe s.threads s.nextCmd s.slice (s.rxq ++ [b]) = t.receive b := by
    intro t ht hq
    rw [← ht.threads, ← ht.nextCmd, ← ht.slice, ← hq]
    rfl
  have hsame : SameSetting s s' := by
    rcases runLine_next h with ⟨-, rfl⟩ | ⟨new, -, hl⟩
    · exact .refl _
    · exact hl.setting
  rw [← hreceive (.refl s) rfl, runLine_reframe, h, onState_next, hreceive hsame (runLine_rxq h)]

/-- So are the steps of a turn of `A_SERIAL` that leave it in mid-operation. -/
theorem runThread_receive {n : Nat} {th th' : Thread} {s s' : State}
    (h : runThread .serial n th s = .next (th', s')) (hc : th'.code ≠ []) (b : Byte) :
    runThread .serial n th (s.receive b) = .next (th', s'.receive b) := by
  induction n generalizing th s with
  | zero =>
    simp only [runThread_zero, Host.Outcome.next.injEq, Prod.mk.injEq] at h
    obtain ⟨rfl, rfl⟩ := h
    rfl
  | succ n ih =>
    have first : ∀ {th1 s1}, stepThread .serial th s = .next (th1, s1) →
        stepThread .serial th (s.receive b) = .next (th1, s1.receive b) →
        runThread .serial (n + 1) th (s.receive b) = .next (th', s'.receive b) := by
      intro th1 s1 h1 h2
      rw [runThread_succ_next h1] at h
      rw [runThread_succ_next h2]
      exact ih h
    obtain ⟨code, v, t⟩ := th
    cases code with
    | cons l rest =>
      cases hl : runLine ⟨l :: rest, v, t⟩ l rest s with
      | next r => exact first (th1 := r.1) (s1 := r.2) hl (runLine_receive hl b)
      | fault e => simp [hl] at h
      | refused e => simp [hl] at h
    | nil =>
      cases hq : s.rxq with
      | nil =>
        rw [runThread_serial_empty _ v t hq] at h
        simp only [Host.Outcome.next.injEq, Prod.mk.injEq] at h
        exact absurd (h.1 ▸ rfl) hc
      | cons c q =>
        have hq' : (s.receive b).rxq = c :: (q ++ [b]) := by rw [receive_rxq, hq]; rfl
        cases hp : (s.dec.feed c).2 with
        | none => exact first (stepThread_serial_byte hq hp v t) (stepThread_serial_byte hq' hp v t)
        | some p =>
          exact first (stepThread_serial_exchange hq hp v t) (stepThread_serial_exchange hq' hp v t)

/-- A turn that leaves an agent running has left it in mid-operation. -/
theorem code_ne_nil_of_running {a : AgentId} {n : Nat} {th th' : Thread} {s s' : State}
    (h : runThread a n th (s.takeUp a) = .next (th', s')) (hr : (s'.park a th').running a = true) :
    th'.code ≠ [] := by
  intro hc
  have hthreads : s'.threads = Assoc.erase s.threads a.key := (runThread_setting h).threads
  rw [State.park, if_pos hc, State.running, hthreads, assoc_get_erase_same] at hr
  cases hr

/-- The byte is received before the turn, or after it. -/
theorem exec_decodeByte (b : Byte) (s : State) :
    exec (.decodeByte b) s = runTurn .serial (s.thread .serial) ((s.takeUp .serial).receive b) :=
  continueWith_nil .serial (s.receive b)

theorem park_receive (s : State) (a : AgentId) (th : Thread) (b : Byte) :
    (s.receive b).park a th = (s.park a th).receive b := by
  unfold State.park
  split <;> rfl

/-- Settles O36. -/
theorem serialBytesAreTakenInOrder : Obligations.SerialBytesAreTakenInOrder := by
  intro b c q s
  refine ⟨fun hcan hs => ?_, fun hr hs hq hn => ?_, fun l rest v t th u hs hg hl => ?_,
    fun u hu hr => ?_⟩
  · have hrun : runThread .serial ((s.takeUp .serial).receive b).slice (s.thread .serial)
        ((s.takeUp .serial).receive b) = .next (s.thread .serial, (s.takeUp .serial).receive b) := by
      rw [receive_slice, takeUp_slice, hs, runThread_zero]
    rw [exec_decodeByte, runTurn_of_runThread hrun, park_receive, park_takeUp hcan]
    rfl
  · have hq' : (s.receive b).rxq = c :: (q ++ [b]) := by rw [receive_rxq, hq]; rfl
    have hstep := stepThread_serial_byte (s := s.receive b) hq' hn .unit 0
    have hrun : runThread .serial (s.receive b).slice ⟨[], .unit, 0⟩ (s.receive b) =
        .next (⟨[], .unit, s.time⟩, (s.receive b).decoded (q ++ [b]) (s.dec.feed c).1) := by
      rw [receive_slice, hs, runThread_succ_next hstep]
      rfl
    rw [exec_decodeByte_idle hr, runTurn_of_runThread hrun]
    rfl
  · have hth : s.thread .serial = ⟨l :: rest, v, t⟩ := by simp [State.thread, hg]
    have hrun : runThread .serial ((s.takeUp .serial).receive b).slice (s.thread .serial)
        ((s.takeUp .serial).receive b) = .next (th, u.receive b) := by
      rw [receive_slice, takeUp_slice, hs, hth, runThread_line, runLine_receive hl b]
      rfl
    have hu : u.rxq = (s.takeUp .serial).rxq := runLine_rxq hl
    rw [takeUp_rxq] at hu
    rw [exec_decodeByte, runTurn_of_runThread hrun, ← hu]
    rfl
  · rw [resume_eq] at hu
    obtain ⟨th', s', hrun, rfl⟩ := runTurn_next hu
    have hc := code_ne_nil_of_running hrun hr
    rw [exec_decodeByte, runTurn_of_runThread (runThread_receive hrun hc b), park_receive]
    rfl

/-! ### Exchanges -/

theorem startsWith_iff (t s : Bytes) : startsWith t s = true ↔ t <+: s := by
  induction t generalizing s with
  | nil => simp [startsWith]
  | cons a t ih =>
    cases s with
    | nil => simp [startsWith]
    | cons b s => simp [startsWith, ih, List.cons_prefix_cons]

theorem containsText_iff (t s : Bytes) : containsText t s = true ↔ t <:+: s := by
  induction s with
  | nil => rw [containsText, startsWith_iff, List.prefix_nil, List.infix_nil]
  | cons b s ih => rw [containsText, Bool.or_eq_true, startsWith_iff, ih, List.infix_cons_iff]

/-- A text is answered when the four bytes of `poll` stand in it (R208). -/
theorem answered_iff (p : Bytes) :
    answered p = true ↔ ∃ a b, p = a ++ [0x70, 0x6F, 0x6C, 0x6C] ++ b := by
  rw [answered, containsText_iff, ascii_poll]
  exact ⟨fun ⟨a, b, h⟩ => ⟨a, b, h.symm⟩, fun ⟨a, b, h⟩ => ⟨a, b, h.symm⟩⟩

/-- What the sending leaves: the reply framed on `serial_out`, or nothing (R207, R208). -/
def State.answeredWith (s : State) (p r : Bytes) : State :=
  { s with serialOut := if answered p = true then s.serialOut ++ responseFrame r else s.serialOut }

theorem runs_serialReply (p : Bytes) {r : Bytes} (h : r.length ≤ 65535) (s : State) :
    Runs 1 [.serialReply p] (.text r) s .unit (s.answeredWith p r) := by
  refine .line (fun th rest hth => ?_) rfl
  by_cases ha : answered p = true
  · simp [runLine, runSerialReply, hth, Value.textBytes, h, ha, State.answeredWith, State.send]
  · simp [runLine, runSerialReply, ha, State.answeredWith]

section
variable {k : Nat} {p r : Bytes} {s s' : State}

/-- An exchange runs its dispatch and then the sending. -/
theorem runs_serialExchange (h : Runs k (codeDispatch s.cfg p) .unit s (.text r) s')
    (hr : r.length ≤ 65535) :
    Runs (k + 1) (codeSerialExchange s.cfg p) .unit s .unit (s'.answeredWith p r) :=
  h.append (runs_serialReply p hr s')

/-- A whole exchange asked for from outside, `A_SERIAL` idle and nothing queued. -/
theorem exec_serialExchange (hi : s.running .serial = false) (hq : s.rxq = [])
    (h : Runs k (codeDispatch s.cfg p) .unit s (.text r) s') (hr : r.length ≤ 65535)
    (hk : k + 1 ≤ s.slice) : exec (.serialExchange p) s = .next (s'.answeredWith p r) := by
  have hexec : exec (.serialExchange p) s = runTurn .serial ⟨codeSerialExchange s.cfg p, .unit, 0⟩ s :=
    continueWith_idle hi _
  rw [hexec, (runs_serialExchange h hr).runTurn (.inr hq) hk]

/-- A byte that completes a frame, `A_SERIAL` idle and nothing queued: one step for the byte, and then the
exchange. -/
theorem exec_decodeByte_exchange {b : Byte} {d : DecRegs} (hi : s.running .serial = false)
    (hq : s.rxq = []) (hp : s.dec.feed b = (d, some p))
    (h : Runs k (codeDispatch s.cfg p) .unit { s with dec := d } (.text r) s') (hr : r.length ≤ 65535)
    (hk : k + 2 ≤ s.slice) : exec (.decodeByte b) s = .next (s'.answeredWith p r) := by
  obtain ⟨n, hn⟩ := Nat.exists_eq_add_of_le' (le_trans (by omega : 1 ≤ k + 2) hk)
  have hp2 : ((s.receive b).dec.feed b).2 = some p := by rw [receive_dec, hp]
  have hstep := stepThread_serial_exchange (s := s.receive b) (receive_rxq_of_nil hq b) hp2 .unit 0
  rw [receive_dec, hp, receive_decoded hq] at hstep
  have hrun := (runs_serialExchange (s := { s with dec := d }) h hr).runThread_le (a := .serial) (.inr hq)
    (n := n) (by omega) s.time
  have hturn : runThread .serial (s.receive b).slice ⟨[], .unit, 0⟩ (s.receive b) =
      .next (⟨[], .unit, s.time⟩, s'.answeredWith p r) := by
    rw [receive_slice, hn, runThread_succ_next hstep]
    exact hrun
  rw [exec_decodeByte_idle hi, runTurn_of_runThread hturn]
  rfl

end

/-- A text that names no command is dispatched to the generic reply (R238). -/
theorem codeDispatch_of_unknown {p : Bytes} (h : decodeText p = .unknown p) (g : Cfg) :
    codeDispatch g p = codeUnknown p := by
  cases hp : parseCommand p with
  | error e => exact codeDispatch_of_error hp g
  | ok c =>
    rw [codeDispatch_of_ok hp]
    rw [decodeText_of_ok hp] at h
    cases c <;> first | rfl | cases h

theorem runs_dispatch_unknown {p : Bytes} (h : decodeText p = .unknown p) (s : State) :
    Runs 1 (codeDispatch s.cfg p) .unit s (.text (errUnknown p)) s := by
  rw [codeDispatch_of_unknown h]
  exact runs_give .unit _ s

theorem length_errUnknown_le {p : Bytes} (h : p.length ≤ 255) : (errUnknown p).length ≤ 65535 := by
  rw [length_errUnknown]; omega

/-- Settles O38. -/
theorem exchangeSendsOnlyPollTexts : Obligations.ExchangeSendsOnlyPollTexts := by
  refine ⟨answered_iff, fun p s hi hq hp => ⟨fun hs hd => ?_, fun hs => ⟨fun d hc => ?_, fun hu => ?_⟩⟩⟩
  · obtain ⟨r, s', h⟩ := dispatch_runs p .unit s
    refine ⟨_, r, h.exec_dispatch (by omega), ?_, ?_⟩
    · show s'.replies ++ _ = _
      rw [h.replies]
    · rw [exec_serialExchange hi hq h.runs (h.length_le hd hp) (by omega), ← h.replies, ← h.serialOut,
        ← h.runs.setting.nextCmd]
      rfl
  · have h : Runs 2 (codeDispatch s.cfg p) .unit s (.text replyOkay) (s.writeDirection 0 d) := by
      rw [codeDispatch_of_ok hc]
      exact runs_md .unit s (c := 0) (k := 0) rfl d
    exact exec_serialExchange hi hq h (by decide) hs
  · exact exec_serialExchange hi hq (runs_dispatch_unknown hu s) (length_errUnknown_le hp) (by omega)

/-- A completed frame's turn is a step for the byte and the turn of the exchange. -/
theorem completed_exchange {b : Byte} {d : DecRegs} {p : Bytes} {s : State}
    (hi : s.running .serial = false) (hq : s.rxq = []) (hp : s.dec.feed b = (d, some p))
    (hlen : p.length ≤ 255) {n : Nat} (hn : 6 ≤ n) (hd : s.dist ≤ 1000) :
    ∃ t, exec (.serialExchange p) { s with dec := d, slice := n } = .next t ∧
      exec (.decodeByte b) { s with slice := n + 1 } = .next { t with slice := n + 1 } := by
  obtain ⟨r, s', h⟩ := dispatch_runs p .unit { s with dec := d, slice := n }
  have hr := h.length_le hd hlen
  refine ⟨s'.answeredWith p r, exec_serialExchange hi hq h.runs hr ?_, ?_⟩
  · show 4 + 1 ≤ n
    omega
  · have hk : 4 + 2 ≤ n + 1 := by omega
    exact exec_decodeByte_exchange (s := { s with slice := n + 1 }) hi hq hp
      (h.runs.setSlice (n + 1)) hr hk

/-- The byte that completes a payload (R201). -/
theorem feed_completes {d : DecRegs} (hd : d.phase = .payload) {b : Byte}
    (hlen : d.buf.length + 1 = d.len.toNat) :
    d.feed b = ({ d with phase := .hunt, buf := [] }, some (d.buf ++ [b])) := by
  rw [DecRegs.feed, hd]
  exact if_pos (by simpa using hlen)

/-- Settles O34. -/
theorem completedFrameIsExchanged : Obligations.CompletedFrameIsExchanged := by
  intro b s hi hq
  refine ⟨fun hp hb n hn hd => ?_, fun hp hlen => ?_⟩
  · have hfeed : s.dec.feed b = (⟨.hunt, 0, []⟩, some []) := by
      rw [DecRegs.feed, hp, hb]; rfl
    exact completed_exchange hi hq hfeed (by simp) hn hd
  have hfeed := feed_completes hp (b := b) hlen
  have hshort : (s.dec.buf ++ [b]).length ≤ 255 := by
    have := s.dec.len.isLt
    rw [List.length_append, List.length_singleton]
    omega
  refine ⟨fun n hn hd => completed_exchange hi hq hfeed hshort hn hd, fun hs hc ha hd => ?_,
    fun hs hu => ?_⟩
  · have h : Runs 1 (codeDispatch s.cfg (s.dec.buf ++ [b])) .unit
        { s with dec := { s.dec with phase := .hunt, buf := [] } } (.text errNotConnected)
        { s with dec := { s.dec with phase := .hunt, buf := [] } } := by
      rw [codeDispatch_of_ok hc]
      exact runs_poll_not_ready .unit _ hd
    rw [exec_decodeByte_exchange hi hq hfeed h (by decide) hs, State.answeredWith, if_pos ha]
  · exact exec_decodeByte_exchange hi hq hfeed
      (runs_dispatch_unknown hu { s with dec := { s.dec with phase := .hunt, buf := [] } })
      (length_errUnknown_le hshort) hs

end Sys2Proof.Machine

/-! SUPPORT. PulseRangeSensor: the distance formula, the lines of `MEASURE`, and a whole measurement. -/

namespace Sys2Proof.Machine

/-! ### The distance -/

/-- Settles O25: the floor of `q + 1/2` is the integer within a half of `q`, ties up. -/
theorem roundIsNearestTiesUp : Obligations.RoundIsNearestTiesUp := by
  intro q n _
  have hfloor : (q + 1 / 2).floor = ⌊q + 1 / 2⌋ := rfl
  rw [roundHalfUp, hfloor, Int.floor_eq_iff]
  constructor
  · rintro ⟨h1, h2⟩
    exact ⟨by linarith, by linarith⟩
  · rintro ⟨h1, h2⟩
    exact ⟨by linarith, by linarith⟩

/-- Settles O24: `170 * (u / 1000) + 1/2` is `(17 * u + 50) / 100`. -/
theorem distanceOfMicroseconds : Obligations.DistanceOfMicroseconds := by
  intro u
  have hfrac : 170 * ((u : Rat) / 1000) + 1 / 2 = ((17 * u + 50 : Nat) : Rat) / ((100 : Nat) : Rat) := by
    push_cast
    ring
  have hfloor : (170 * ((u : Rat) / 1000) + 1 / 2).floor = ⌊170 * ((u : Rat) / 1000) + 1 / 2⌋ := rfl
  rw [distanceMm, roundHalfUp, hfloor, hfrac, Rat.floor_natCast_div_natCast]
  rfl

/-! ### The lines of `MEASURE` -/

section
variable {s : State} {v : Value} {t : Rat} {rest : List Line}

theorem step_measureTest_timeout (h : 60 ≤ s.time - s.sonarT0) :
    stepThread .sonar ⟨.measureTest :: rest, v, t⟩ s =
      .next (⟨.measureEnd :: rest, v, s.time⟩, s.setSonar .timedOut) :=
  if_pos h

theorem step_measureTest (h : s.time - s.sonarT0 < 60) :
    stepThread .sonar ⟨.measureTest :: rest, v, t⟩ s =
      .next (⟨.measureSample :: rest, v, s.time⟩, s) :=
  if_neg (not_le.mpr h)

theorem echoLevel_inactive_iff (g : Cfg) (b : Byte) : echoLevel g b = .inactive ↔ bitOf b g.echoBit = false := by
  unfold echoLevel
  cases bitOf b g.echoBit <;> simp

/-- A sample that is Inactive after Active ends the loop (R166). -/
theorem step_measureSample_edge (hp : s.sonarPrev = .active)
    (hb : bitOf (s.busRead s.cfg.regInPort).1 s.cfg.echoBit = false) :
    stepThread .sonar ⟨.measureSample :: rest, v, t⟩ s =
      .next (⟨.measureEdge :: rest, v, s.time⟩, (s.busRead s.cfg.regInPort).2) := by
  have hedge : runMeasureSample rest v s =
      proceed (.measureEdge :: rest) v (s.busRead s.cfg.regInPort).2 :=
    if_pos ⟨hp, (echoLevel_inactive_iff ..).mpr hb⟩
  rw [stepThread_line, runLine, hedge, proceed, busRead_time]

/-- Any other sample is remembered, and the loop goes on. -/
theorem step_measureSample_level
    (h : ¬ (s.sonarPrev = .active ∧ bitOf (s.busRead s.cfg.regInPort).1 s.cfg.echoBit = false)) :
    stepThread .sonar ⟨.measureSample :: rest, v, t⟩ s =
      .next (⟨.measureTest :: rest, v, s.time⟩, (s.busRead s.cfg.regInPort).2.setPrev
        (echoLevel s.cfg (s.busRead s.cfg.regInPort).1)) := by
  have hlevel : runMeasureSample rest v s = proceed (.measureTest :: rest) v
      ((s.busRead s.cfg.regInPort).2.setPrev (echoLevel s.cfg (s.busRead s.cfg.regInPort).1)) :=
    if_neg (by rwa [echoLevel_inactive_iff])
  rw [stepThread_line, runLine, hlevel, proceed, setPrev_time, busRead_time]

end

/-- What a measurement of `d` millimetres leaves: published and notified within the filter, else discarded, and the
sonar Idle (R169, R170). -/
def State.measured (s : State) (d : Nat) : State :=
  if d ≤ 1000 then
    { s with
      sonarState := .idle
      sonarPrev := .none
      dist := d
      events := s.events ++ [.distance d] }
  else
    { s with
      sonarState := .idle
      sonarPrev := .none }

/-- From the falling edge to the end of the measurement. -/
theorem runThread_measureEdge (s : State) (v : Value) (t : Rat) :
    runThread .sonar 4 ⟨[.measureEdge], v, t⟩ s =
      .next (⟨[], v, s.time⟩, s.measured (distanceMm (s.time - s.sonarT0))) := by
  by_cases h : distanceMm (s.time - s.sonarT0) ≤ Config.distMax
  · have hstep : stepThread .sonar ⟨[.measureEdge], v, t⟩ s =
        .next (⟨[.publish (distanceMm (s.time - s.sonarT0)),
          .emit (.distance (distanceMm (s.time - s.sonarT0))), .measureEnd], v, s.time⟩,
          s.setSonar .measured) := by
      simp only [stepThread_line, runLine, runMeasureEdge, if_pos h]
      rfl
    have h1000 : distanceMm (s.time - s.sonarT0) ≤ 1000 := h
    rw [runThread_succ_next hstep, State.measured, if_pos h1000]
    rfl
  · have hstep : stepThread .sonar ⟨[.measureEdge], v, t⟩ s =
        .next (⟨[.measureEnd], v, s.time⟩, s.setSonar .measured) := by
      simp only [stepThread_line, runLine, runMeasureEdge, if_neg h]
      rfl
    have h1000 : ¬ distanceMm (s.time - s.sonarT0) ≤ 1000 := h
    rw [runThread_succ_next hstep, State.measured, if_neg h1000]
    rfl

/-- Settles O20. -/
theorem echoTimeoutEndsSilently : Obligations.EchoTimeoutEndsSilently := by
  intro s v t h
  refine ⟨step_measureTest_timeout h, ?_⟩
  rw [runThread_succ_next (step_measureTest_timeout h)]
  rfl

/-- The test and a sample that shows no edge (R164, R166). -/
theorem runThread_level {s : State} (h : s.time - s.sonarT0 < 60)
    (hb : ¬ (s.sonarPrev = .active ∧ bitOf (s.busRead s.cfg.regInPort).1 s.cfg.echoBit = false))
    (v : Value) (t : Rat) :
    runThread .sonar 2 ⟨[.measureTest], v, t⟩ s = .next (⟨[.measureTest], v, s.time⟩,
      (s.busRead s.cfg.regInPort).2.setPrev (echoLevel s.cfg (s.busRead s.cfg.regInPort).1)) := by
  rw [runThread_succ_next (step_measureTest h), runThread_succ_next (step_measureSample_level hb)]
  rfl

/-- Settles O21. -/
theorem sampleWithoutEdgeIsRemembered : Obligations.SampleWithoutEdgeIsRemembered := by
  intro s v t h hb
  rw [runThread_level h hb]
  rfl

/-- The test, the sample that shows the edge, and the end of the measurement (R165 to R170). -/
theorem runThread_fallingEdge {s : State} (h : s.time - s.sonarT0 < 60) (hp : s.sonarPrev = .active)
    (hb : bitOf (s.busRead s.cfg.regInPort).1 s.cfg.echoBit = false) (v : Value) (t : Rat) :
    runThread .sonar 6 ⟨[.measureTest], v, t⟩ s = .next (⟨[], v, s.time⟩,
      (s.busRead s.cfg.regInPort).2.measured (distanceMm (s.time - s.sonarT0))) := by
  rw [runThread_succ_next (step_measureTest h), runThread_succ_next (step_measureSample_edge hp hb),
    runThread_measureEdge, busRead_time, busRead_sonarT0]

/-- Settles O22. -/
theorem fallingEdgePublishesTheDistance : Obligations.FallingEdgePublishesTheDistance := by
  intro s v t h hp hb
  rw [runThread_fallingEdge h hp hb, State.measured]
  simp only [busRead_events]

/-! ### The trigger -/

/-- Before the wait is over `A_SONAR` has no step, however many the turn allows (R163). -/
theorem runThread_waiting {s : State} {rest : List Line} {v : Value} {t : Rat}
    (h : s.time < t + s.cfg.tTrig) (n : Nat) :
    runThread .sonar n ⟨.measureTrigger :: rest, v, t⟩ s = .next (⟨.measureTrigger :: rest, v, t⟩, s) := by
  induction n with
  | zero => rfl
  | succ n ih =>
    have hstep : stepThread .sonar ⟨.measureTrigger :: rest, v, t⟩ s =
        .next (⟨.measureTrigger :: rest, v, t⟩, s) := if_neg (not_le.mpr h)
    rw [runThread_succ_next hstep, ih]

/-- Once it is over the trigger bit is set by an `RMW` (R160 line 6). -/
theorem runThread_trigger {s : State} {rest : List Line} {v : Value} {t : Rat}
    (h : t + s.cfg.tTrig ≤ s.time) (n : Nat) :
    runThread .sonar (n + rmwSteps s (.orMask (mask s.cfg.trigBit))) ⟨.measureTrigger :: rest, v, t⟩ s =
      runThread .sonar n ⟨rest, .pair s.out (s.out ||| mask s.cfg.trigBit), s.time⟩
        (s.outBecomes (s.out ||| mask s.cfg.trigBit)) := by
  have hline : stepThread .sonar ⟨.measureTrigger :: rest, v, t⟩ s =
      stepThread .sonar ⟨.rmw (.orMask (mask s.cfg.trigBit)) :: rest, v, t⟩ s := if_pos h
  have hrmw := runThread_rmw .sonar n (.orMask (mask s.cfg.trigBit)) rest v t s
  have hpos : ∃ k, n + rmwSteps s (.orMask (mask s.cfg.trigBit)) = k + 1 := by
    unfold rmwSteps
    split
    · exact ⟨n, rfl⟩
    · exact ⟨n + 1, rfl⟩
  obtain ⟨k, hk⟩ := hpos
  rw [rmwWhole_eq] at hrmw
  rw [← show applyByteFn (.orMask (mask s.cfg.trigBit)) s.out = s.out ||| mask s.cfg.trigBit from rfl,
    ← hrmw, hk, runThread, runThread, hline]

/-- The trigger and the start of the timer (R163, R164). -/
theorem runThread_trigger_start {s : State} {rest : List Line} {v : Value} {t : Rat}
    (h : t + s.cfg.tTrig ≤ s.time) :
    runThread .sonar (1 + rmwSteps s (.orMask (mask s.cfg.trigBit)))
      ⟨.measureTrigger :: .measureStart :: rest, v, t⟩ s =
    .next (⟨rest, .pair s.out (s.out ||| mask s.cfg.trigBit), s.time⟩,
      { s.outBecomes (s.out ||| mask s.cfg.trigBit) with
        sonarT0 := s.time
        sonarPrev := .none
        sonarState := .waiting }) := by
  have hstart : ∀ (u : State) (w : Value) (x : Rat),
      runThread .sonar 1 ⟨.measureStart :: rest, w, x⟩ u = .next (⟨rest, w, u.time⟩, u.startTimer) :=
    fun _ _ _ => rfl
  rw [runThread_trigger h, hstart]
  simp only [State.startTimer, outBecomes_time]

/-- Settles O19. -/
theorem triggerIsSetAfterTheDelay : Obligations.TriggerIsSetAfterTheDelay := by
  intro s rest v t n
  refine ⟨fun h => runThread_waiting h n, fun h => ?_⟩
  have hsteps : (if s.out ||| mask s.cfg.trigBit = s.out then 2 else 3) =
      1 + rmwSteps s (.orMask (mask s.cfg.trigBit)) := by
    unfold rmwSteps
    split <;> simp_all [applyByteFn]
  rw [hsteps, runThread_trigger_start h]

/-! ### A whole measurement -/

/-- The state as `A_SONAR` waits for `T_TRIG`, before its position is kept (R160 lines 1 to 4). -/
def State.triggering (s : State) : State :=
  (s.setSonar .triggering).outBecomes (s.out &&& ~~~ mask s.cfg.trigBit)

/-- Where it waits. -/
def triggerPosition (s : State) : Thread :=
  ⟨[.measureTrigger, .measureStart, .measureTest], .pair s.out (s.out &&& ~~~ mask s.cfg.trigBit), s.time⟩

/-- The event's turn: the gate, the clearing of the trigger bit, and the wait. -/
theorem exec_measure {s : State} (hd : s.drv = .ready) (hi : s.sonarState = .idle)
    (hr : s.running .sonar = false) (ht : 0 < s.cfg.tTrig) (hs : 3 ≤ s.slice) :
    exec .measure s = .next (s.triggering.park .sonar (triggerPosition s)) := by
  have hgate : stepThread .sonar ⟨codeMeasure, .unit, s.time⟩ s = .next
      (⟨.rmw (.andNotMask (mask s.cfg.trigBit)) :: [.measureTrigger, .measureStart, .measureTest], .unit,
        s.time⟩, s.setSonar .triggering) := by
    have hbusy : ¬ s.busy = true := by rw [busy_iff]; exact not_not.mpr hi
    have hrun : runMeasureGate [] .unit s =
        proceed (codeMeasureBody s.cfg ++ []) .unit (s.setSonar .triggering) := by
      rw [runMeasureGate, if_pos ((ready_iff s).mpr hd), if_neg hbusy]
    exact hrun
  have hle := rmwSteps_le (s.setSonar .triggering) (.andNotMask (mask s.cfg.trigBit))
  obtain ⟨n, hn⟩ := Nat.exists_eq_add_of_le'
    (show rmwSteps (s.setSonar .triggering) (.andNotMask (mask s.cfg.trigBit)) + 1 ≤ s.slice by omega)
  have hrun : runThread .sonar s.slice ⟨codeMeasure, .unit, s.time⟩ s =
      .next (triggerPosition s, s.triggering) := by
    rw [hn, ← Nat.add_assoc, runThread_succ_next hgate, runThread_rmw, rmwWhole_eq]
    refine runThread_waiting ?_ n
    rw [outBecomes_time, outBecomes_cfg]
    exact lt_add_of_pos_right s.time ht
  rw [exec_measure_idle hr, runTurn_of_runThread hrun]

/-- Settles O18. -/
theorem measureClearsTheTriggerAndWaits : Obligations.MeasureClearsTheTriggerAndWaits := by
  intro s hd hi hr ht hs
  rw [exec_measure hd hi hr ht hs, triggerPosition, park_more, State.triggering, outBecomes_threads]
  rfl

/-- Going on later from a position just kept. -/
theorem resume_park_later {a : AgentId} {s : State} (h : s.running a = false) (th : Thread) (t : Rat)
    (n : Nat) : resume a { s.park a th with time := t, slice := n } =
      runTurn a th { s with time := t, slice := n } := by
  have hpark : { s.park a th with time := t, slice := n } =
      ({ s with time := t, slice := n } : State).park a th := by
    unfold State.park
    split <;> rfl
  rw [hpark]
  exact resume_park (s := { s with time := t, slice := n }) h th

/-- A read where the expander is not assumed to conform takes the next byte of the script (R66). -/
theorem busRead_script {s : State} {b : Byte} {bs : Bytes} (hd : s.drv = .ready)
    (hc : s.chip.conforming = false) (hb : s.busIn = b :: bs) (reg : Byte) :
    s.busRead reg = (b, { s with busIn := bs, busTrace := s.busTrace ++ [.read reg b] }) := by
  rw [busRead_ready hd, expanderByte_of_answer_none (answer_of_not_conforming hc _ _), draw_of_cons hb]

theorem outBecomes_conforming (s : State) (w : Byte) :
    (s.outBecomes w).chip.conforming = s.chip.conforming := by
  refine outBecomes_field s w (fun t => t.chip.conforming) rfl fun t => ?_
  by_cases hd : t.drv = .ready
  · rw [busWrite_ready hd]; exact chip_take_conforming ..
  · rw [busWrite_not_ready hd]

/-- Setting a bit just cleared is a change. -/
theorem or_mask_ne_of_cleared (w : Byte) (i : Fin 8) :
    (w &&& ~~~ mask i) ||| mask i ≠ w &&& ~~~ mask i := by
  intro h
  have := congrArg (bitOf · i) h
  simp [bitOf_mask] at this

/-- The state of a measurement once its timer runs: the fields the rest of it reads and keeps. -/
structure Measuring (s u : State) (t1 : Rat) (script : Bytes) : Prop where
  cfg : u.cfg = s.cfg
  drv : u.drv = .ready
  conforming : u.chip.conforming = false
  busIn : u.busIn = script
  sonarT0 : u.sonarT0 = t1
  threads : u.threads = s.threads
  events : u.events = s.events
  out : u.out = (s.out &&& ~~~ mask s.cfg.trigBit) ||| mask s.cfg.trigBit
  tick : u.tick = s.tick
  ch0 : u.ch0 = s.ch0
  ch1 : u.ch1 = s.ch1

section
variable {s u : State} {t1 : Rat} {script : Bytes}

theorem Measuring.running (h : Measuring s u t1 script) (hr : s.running .sonar = false) :
    u.running .sonar = false :=
  (running_of_same_threads h.threads .sonar).trans hr

/-- The turn of the trigger: the bit is set, the timer started, and the loop entered. -/
theorem runTurn_trigger (hd : s.drv = .ready) (hc : s.chip.conforming = false) (hb : s.busIn = script)
    (ht : s.time + s.cfg.tTrig ≤ t1) :
    ∃ u p, runTurn .sonar (triggerPosition s) { s.triggering with time := t1, slice := 3 } =
      .next (u.park .sonar ⟨[.measureTest], p, t1⟩) ∧ Measuring s u t1 script ∧ u.sonarPrev = .none := by
  have hcfg : s.triggering.cfg = s.cfg := outBecomes_cfg ..
  have hout : s.triggering.out = s.out &&& ~~~ mask s.cfg.trigBit := outBecomes_out ..
  have hsteps : 1 + rmwSteps { s.triggering with time := t1, slice := 3 }
      (.orMask (mask s.triggering.cfg.trigBit)) = 3 := by
    rw [rmwSteps, if_neg]
    rw [hcfg]
    show ¬ s.triggering.out ||| mask s.cfg.trigBit = s.triggering.out
    rw [hout]
    exact or_mask_ne_of_cleared s.out s.cfg.trigBit
  have hrun := runThread_trigger_start (s := { s.triggering with time := t1, slice := 3 })
    (rest := [.measureTest]) (v := .pair s.out (s.out &&& ~~~ mask s.cfg.trigBit)) (t := s.time)
    (by rw [hcfg]; exact ht)
  rw [hsteps] at hrun
  refine ⟨_, _, runTurn_of_runThread hrun, ?_, rfl⟩
  constructor <;> simp [State.triggering, hd, hc, hb, outBecomes_conforming]

/-- A sample taken in a later turn: the byte is the next of the script, and the rest stays. -/
theorem Measuring.sampled {b : Byte} {bs : Bytes} (h : Measuring s u t1 (b :: bs)) (t : Rat) (n : Nat) (reg : Byte) :
    (({ u with time := t, slice := n } : State).busRead reg).1 = b ∧
      Measuring s (({ u with time := t, slice := n } : State).busRead reg).2 t1 bs := by
  rw [busRead_script (s := { u with time := t, slice := n }) h.drv h.conforming h.busIn]
  exact ⟨rfl, ⟨h.cfg, h.drv, h.conforming, rfl, h.sonarT0, h.threads, h.events, h.out, h.tick, h.ch0, h.ch1⟩⟩

/-- A turn of the test and one sample, the first Active one. -/
theorem runTurn_active {b : Byte} {bs : Bytes} (h : Measuring s u t1 (b :: bs)) (hp : u.sonarPrev = .none)
    (hb : bitOf b s.cfg.echoBit = true) {t2 : Rat} (ht : t2 - t1 < 60) (p : Value) (t : Rat) :
    ∃ w, runTurn .sonar ⟨[.measureTest], p, t⟩ { u with time := t2, slice := 2 } =
      .next (w.park .sonar ⟨[.measureTest], p, t2⟩) ∧ Measuring s w t1 bs ∧ w.sonarPrev = .active := by
  obtain ⟨hbyte, hw⟩ := h.sampled t2 2 u.cfg.regInPort
  have hrun := runThread_level (s := { u with time := t2, slice := 2 }) (by rw [h.sonarT0]; exact ht)
    (fun hc => nomatch hp.symm.trans hc.1) p t
  have hlevel : echoLevel u.cfg b = .active := by rw [echoLevel, h.cfg, if_pos hb]
  rw [hbyte, hlevel] at hrun
  exact ⟨_, runTurn_of_runThread hrun, { hw with }, rfl⟩

/-- The last turn: an Inactive sample after it, and the distance. -/
theorem runTurn_inactive {b : Byte} {bs : Bytes} (h : Measuring s u t1 (b :: bs)) (hp : u.sonarPrev = .active)
    (hb : bitOf b s.cfg.echoBit = false) {t3 : Rat} (ht : t3 - t1 < 60) (p : Value) (t : Rat) :
    ∃ w, runTurn .sonar ⟨[.measureTest], p, t⟩ { u with time := t3, slice := 6 } =
      .next (w.measured (distanceMm (t3 - t1))) ∧ Measuring s w t1 bs := by
  obtain rfl := h.sonarT0
  obtain ⟨hbyte, hw⟩ := h.sampled t3 6 u.cfg.regInPort
  have hrun := runThread_fallingEdge (s := { u with time := t3, slice := 6 }) ht hp
    (by rw [hbyte, h.cfg]; exact hb) p t
  exact ⟨_, (runTurn_of_runThread hrun).trans (congrArg _ (park_done ..)), hw⟩

end

/-- Settles O23: the event's turn, the trigger's, an Active sample's and the Inactive one's. -/
theorem measurementRunsToItsEnd : Obligations.MeasurementRunsToItsEnd := by
  intro s b1 b2 bs t1 t2 t3 hd hi hr ht hs hc hb h1 h2 ht1 ht12 ht23 ht3 hdist
  have hr1 : s.triggering.running .sonar = false :=
    (running_of_same_threads (outBecomes_threads ..) .sonar).trans hr
  obtain ⟨u2, p, hturn2, hm2, hp2⟩ := runTurn_trigger hd hc hb ht1
  obtain ⟨u3, hturn3, hm3, hp3⟩ := runTurn_active hm2 hp2 h1 (t2 := t2) (by linarith) p t1
  obtain ⟨u4, hturn4, hm4⟩ := runTurn_inactive hm3 hp3 h2 ht3 p t2
  have hend : u4.measured (distanceMm (t3 - t1)) = { u4 with
      sonarState := .idle
      sonarPrev := .none
      dist := distanceMm (t3 - t1)
      events := u4.events ++ [.distance (distanceMm (t3 - t1))] } := if_pos hdist
  rw [hend, hm4.events] at hturn4
  refine ⟨_, _, _, _, exec_measure hd hi hr ht hs, (resume_park_later hr1 _ t1 3).trans hturn2,
    (resume_park_later (hm2.running hr) _ t2 2).trans hturn3,
    (resume_park_later (hm3.running hr) _ t3 6).trans hturn4, rfl, rfl, rfl, rfl, hm4.sonarT0, hm4.threads,
    hm4.busIn, hm4.out, hm4.tick, hm4.ch0, hm4.ch1, hm4.drv.trans hd.symm⟩

end Sys2Proof.Machine
